-- ==== Sys2Proof/Word.lean ====
section
/-! DEFINITION. The two word types of the LCW codec core: the byte every memory space is made of (20_memory.md R40)
and the 32-bit register (00_scope.md R7 with `AW = 32`; 10_state.md R26). -/

namespace Sys2Proof

/-- One byte of a space or of an opcode stream (20_memory.md R40). -/
abbrev Byte := BitVec 8

/-- A cursor, length or capacity register: `AW = 32` bits (00_scope.md R7). -/
abbrev Word := BitVec 32

end Sys2Proof
end

