-- ==== Sys2Proof/Config.lean ====
section
/-! DEFINITION. What is fixed for the hardware: the names of its two engines and four memory spaces, the constants of
the format (00_scope.md R6), the index range (R7), and the FREE VALUES: constants without a body, of which no proof
can learn anything but their type. -/

namespace Sys2Proof

/-- The two engines (10_state.md R10). -/
inductive Engine where
  | dec
  | enc
  deriving DecidableEq, Repr

/-- The four memory spaces (10_state.md R20). -/
inductive Space where
  | din
  | dout
  | ein
  | eout
  deriving DecidableEq, Repr

namespace Config

/-- `MIN_MATCH` (00_scope.md R6): the smallest copy length. -/
@[simp] abbrev minMatch : Nat := 3

/-- `SHORT_MAX_LEN` (R6): the largest short-copy length. -/
@[simp] abbrev shortMaxLen : Nat := 10

/-- `SHORT_MAX_OFF` (R6): the largest short-copy backward offset. -/
@[simp] abbrev shortMaxOff : Nat := 4095

/-- `MED_MAX_LEN` (R6, 90_conflicts.md C1): the largest medium-copy length. -/
@[simp] abbrev medMaxLen : Nat := 64

/-- `LONG_MAX_LEN` (R6): the largest long-copy count. -/
@[simp] abbrev longMaxLen : Nat := 65535

/-- `ABS_MAX` (R6): the largest absolute offset. -/
@[simp] abbrev absMax : Nat := 65535

/-- `LIT_MAX` (R6): the largest literal-run count. -/
@[simp] abbrev litMax : Nat := 63

/-- `FILL_MIN` (R6): the smallest single-byte run the encoder turns into a fill. -/
@[simp] abbrev fillMin : Nat := 65

/-- `FILL_MAX` (R6): the largest fill count. -/
@[simp] abbrev fillMax : Nat := 65535

/-- `2^AW`: indices of every space are `0 .. 2^AW - 1` (00_scope.md R7, 10_state.md R20). -/
@[simp] abbrev indexLimit : Nat := 4294967296

/-- The longest instruction, a literal run of 63 bytes (30_encoding.md R63). -/
@[simp] abbrev longestInstr : Nat := 64

/-- FREE VALUE (93_implementation_defined.md U7, U9; log entries 1 and 2). DESIGN CHOICE of the form, not of any value:
the byte that index `index` of space `space` holds while nothing known has been written there, after `losses` abandoned
launches may have written it. -/
opaque unwrittenByte (space : Space) (losses index : Nat) : Byte

/-- FREE VALUE (93_implementation_defined.md U10, 43_host_interface.md R141; log entry 3): which of the launch's step
boundaries the `k`-th host read of a `BUSY` engine's cursor answers from. -/
opaque busyReadChoice (k : Nat) : Nat

end Config

end Sys2Proof
end

