-- ==== Sys2Proof/Syntax.lean ====
section
/-! DEFINITION. The opcode stream's instructions: one constructor per row of spec/opcode_table.json, with the operands
of 30_encoding.md R66 and the assembler syntax of R70. Operands are numbers: every quantity of the spec's rules is an
unbounded non-negative integer until a rule stores it in a register (00_scope.md R8), and WellFormed states the ranges. -/

namespace Sys2Proof

/-- The six instructions (30_encoding.md R62, R69). -/
inductive Instr where
  /-- `SCOPY length, offset` (40_decoder.md R83): a short copy, `offset` counted backward from the write cursor. -/
  | scopy (length offset : Nat)
  /-- `END` (R84): the end marker. -/
  | endMarker
  /-- `LIT b0 .. b(n-1)` (R85): a literal run. -/
  | lit (data : List Byte)
  /-- `FILL count, value` (R86): a fill run. -/
  | fill (count : Nat) (value : Byte)
  /-- `MCOPY length, offset` (R87): a medium copy, `offset` an index from the destination's start. -/
  | mcopy (length offset : Nat)
  /-- `LCOPY count, offset` (R88): a long copy, `offset` an index from the destination's start. -/
  | lcopy (count offset : Nat)
  deriving DecidableEq, Repr

/-- The six families a tag byte selects from (30_encoding.md R64). -/
inductive Family where
  | scopy
  | endMarker
  | lit
  | fill
  | lcopy
  | mcopy
  deriving DecidableEq, Repr

end Sys2Proof
end

