-- ==== Sys2Proof/WellFormed.lean ====
section
/-! DEFINITION. Which instructions have an encoding: the operand ranges of 30_encoding.md R66. -/

namespace Sys2Proof

/-- Every operand lies in its range (30_encoding.md R66). -/
def Instr.wellFormed : Instr → Bool
  | .scopy length offset =>
    decide (Config.minMatch ≤ length) && decide (length ≤ Config.shortMaxLen) && decide (offset ≤ Config.shortMaxOff)
  | .endMarker => true
  | .lit data => decide (1 ≤ data.length) && decide (data.length ≤ Config.litMax)
  | .fill count _ => decide (count ≤ Config.fillMax)
  | .mcopy length offset =>
    decide (Config.minMatch ≤ length) && decide (length ≤ Config.medMaxLen) && decide (offset ≤ Config.absMax)
  | .lcopy count offset => decide (count ≤ Config.longMaxLen) && decide (offset ≤ Config.absMax)

end Sys2Proof
end

