-- ==== Sys2Proof/Decode.lean ====
section
/-! DEFINITION. From bytes to an instruction (30_encoding.md R62 to R66), total and refusing by name; and after it the
inverse, from an instruction to bytes (R67), and the host's view of one opcode-table word. -/

namespace Sys2Proof

/-- Dispatch on the tag byte (30_encoding.md R64), in the rule's own order. -/
def familyOf (t : Byte) : Family :=
  if t.getLsbD 7 = false then .scopy
  else if t = 0x80#8 then .endMarker
  else if t.getLsbD 6 = false then .lit
  else if t = 0xFE#8 then .fill
  else if t = 0xFF#8 then .lcopy
  else .mcopy

/-- `tag & 0x3F`, the six low bits of a tag (R66). -/
def low6 (t : Byte) : Nat := t.toNat &&& 0x3F

/-- Length in bytes of the instruction that a tag begins (R63). -/
def instrLength (t : Byte) : Nat :=
  match familyOf t with
  | .scopy => 2
  | .endMarker => 1
  | .lit => 1 + low6 t
  | .fill => 4
  | .lcopy => 5
  | .mcopy => 3

/-- A 16-bit little-endian field (20_memory.md R41). -/
def le16 (lo hi : Byte) : Nat := lo.toNat ||| (hi.toNat <<< 8)

/-- The short copy's 12-bit offset (20_memory.md R42): tag nibble high, payload byte low. -/
def shortOffset (t payload : Byte) : Nat := ((t.toNat &&& 0x0F) <<< 8) ||| payload.toNat

/-- Why bytes are no instruction. There is no illegal tag (30_encoding.md R65). -/
inductive DecodeError where
  /-- There is no tag byte. -/
  | missingTag
  /-- The tag is there and its payload, or part of it, is not. -/
  | missingPayload (tag : Byte)
  deriving DecidableEq, Repr

/-- One instruction from the front of a byte list, with the bytes after it (30_encoding.md R66). -/
def decode : List Byte → Except DecodeError (Instr × List Byte)
  | [] => .error .missingTag
  | t :: rest =>
    match familyOf t with
    | .scopy =>
      match rest with
      | b1 :: r => .ok (.scopy ((t.toNat >>> 4) + 3) (shortOffset t b1), r)
      | _ => .error (.missingPayload t)
    | .endMarker => .ok (.endMarker, rest)
    | .lit =>
      if low6 t ≤ rest.length then .ok (.lit (rest.take (low6 t)), rest.drop (low6 t))
      else .error (.missingPayload t)
    | .fill =>
      match rest with
      | b1 :: b2 :: b3 :: r => .ok (.fill (le16 b1 b2) b3, r)
      | _ => .error (.missingPayload t)
    | .lcopy =>
      match rest with
      | b1 :: b2 :: b3 :: b4 :: r => .ok (.lcopy (le16 b1 b2) (le16 b3 b4), r)
      | _ => .error (.missingPayload t)
    | .mcopy =>
      match rest with
      | b1 :: b2 :: r => .ok (.mcopy (low6 t + 3) (le16 b1 b2), r)
      | _ => .error (.missingPayload t)

/-- Bytes an instruction occupies in the stream (30_encoding.md R63). -/
def Instr.size : Instr → Nat
  | .scopy _ _ => 2
  | .endMarker => 1
  | .lit data => 1 + data.length
  | .fill _ _ => 4
  | .mcopy _ _ => 3
  | .lcopy _ _ => 5

/-- The low byte of a number: `v & 0xFF` (30_encoding.md R67). -/
def loByte (v : Nat) : Byte := BitVec.ofNat 8 (v &&& 0xFF)

/-- The next byte of a number: `v >> 8` (R67). -/
def hiByte (v : Nat) : Byte := BitVec.ofNat 8 (v >>> 8)

/-- The bytes of an instruction (30_encoding.md R67), meaningful for well-formed ones. -/
def encode : Instr → List Byte
  | .scopy length offset => [BitVec.ofNat 8 (((length - 3) <<< 4) ||| (offset >>> 8)), loByte offset]
  | .endMarker => [0x80#8]
  | .lit data => BitVec.ofNat 8 (0x80 ||| data.length) :: data
  | .fill count value => [0xFE#8, loByte count, hiByte count, value]
  | .mcopy length offset => [BitVec.ofNat 8 (0xC0 ||| (length - 3)), loByte offset, hiByte offset]
  | .lcopy count offset => [0xFF#8, loByte count, hiByte count, loByte offset, hiByte offset]

/-- The bytes of a table word: its lowest 8 bits are the tag (the byte at the lowest stream index), every bit from
`nbits` up is 0, and there are as many bytes as the longest instruction has. -/
def tableBytes (nbits w : Nat) : List Byte :=
  (List.range Config.longestInstr).map fun k => BitVec.ofNat 8 ((w % 2 ^ nbits) >>> (8 * k))

/-- The instruction the decoder reads from an instruction whose bits are `w`, numbered as spec/opcode_table.json numbers
them. -/
def decodeTableWord (nbits w : Nat) : Option Instr :=
  match decode (tableBytes nbits w) with
  | .ok (i, _) => some i
  | .error _ => none

end Sys2Proof
end

