-- ==== Sys2Proof/Machine/State.lean ====
section
/-! DEFINITION. The machine's state as plain data: every register and space of 10_state.md, the moves of the agents
outside the engines (43_host_interface.md), the reasons a step can stop, and the state after reset (R29, R180).
Fields that are the model's own and not the spec's say so. -/

namespace Sys2Proof.Machine

/-- `E.STATE` (10_state.md R24). -/
inductive RunState where
  | idle
  | busy
  | done
  | err
  deriving DecidableEq, Repr

/-- The causes an engine can fault with (60_exceptions.md R150). -/
inductive Cause where
  /-- Code 1; no rule raises it (R154). -/
  | invalidOpcode
  /-- Code 2 (R152, R153). -/
  | bufferOverrun
  /-- Code 3 (R151). -/
  | truncatedStream
  /-- Code 4 (R156). -/
  | unwrittenSource
  /-- Code 5 (R155). -/
  | outputExhausted
  deriving DecidableEq, Repr

/-- The contents of one space (10_state.md R20): (index, byte) pairs at strictly rising indices. An unlisted index has
no known value (93_implementation_defined.md U7). -/
abbrev Memory := List Host.Cell

/-- The cursor registers of an engine at one step boundary (43_host_interface.md R141). `DEC` has no run record, so
its `runIdx` and `runCnt` are 0 (10_state.md R26). -/
structure Cursors where
  sp : Word
  dp : Word
  runIdx : Word
  runCnt : BitVec 6
  deriving DecidableEq, Repr

/-- The decoder engine `DEC` (10_state.md R12 to R15, R20, R24, R25). -/
structure Decoder where
  /-- `DEC.STATE` (R24). -/
  run : RunState
  /-- `DEC.ERR_CODE` (R25). -/
  errCode : BitVec 4
  /-- `DEC.SRC_LEN` (R14). -/
  srcLen : Word
  /-- `DEC.DST_CAP` (R15). -/
  dstCap : Word
  /-- `DEC.SP`, the program counter (R12). -/
  sp : Word
  /-- `DEC.DP`, the write cursor (R13). -/
  dp : Word
  /-- Space `DIN` (R20). -/
  din : Memory
  /-- Space `DOUT` (R20). -/
  dout : Memory
  /-- The model's own (log entry 2): the `DST_CAP` of every launch a reset abandoned while `BUSY`. -/
  doutLost : List Word
  /-- The model's own (log entry 3): the cursors at this launch's earlier step boundaries, newest first. -/
  trail : List Cursors
  deriving DecidableEq, Repr

/-- The encoder engine `ENC` (10_state.md R17 to R19, R20, R22, R24, R25). -/
structure Encoder where
  /-- `ENC.STATE` (R24). -/
  run : RunState
  /-- `ENC.ERR_CODE` (R25). -/
  errCode : BitVec 4
  /-- `ENC.SRC_LEN` (R19). -/
  srcLen : Word
  /-- `ENC.DST_CAP` (R19). -/
  dstCap : Word
  /-- `ENC.SP`, the source position (R17). -/
  sp : Word
  /-- `ENC.DP`, the output cursor (R18). -/
  dp : Word
  /-- `ENC.RUN_IDX` (R22). -/
  runIdx : Word
  /-- `ENC.RUN_CNT` (R22). -/
  runCnt : BitVec 6
  /-- Space `EIN` (R20). -/
  ein : Memory
  /-- Space `EOUT` (R20). -/
  eout : Memory
  /-- The model's own (log entry 2): as `Decoder.doutLost`. -/
  eoutLost : List Word
  /-- The model's own (log entry 3): as `Decoder.trail`. -/
  trail : List Cursors
  deriving DecidableEq, Repr

/-- The registers of an engine's block (10_state.md R26). -/
inductive Reg where
  | ctrl
  | status
  | srcLen
  | dstCap
  | sp
  | dp
  | runIdx
  | runCnt
  deriving DecidableEq, Repr

/-- The host's moves (43_host_interface.md R140), all of them. A register is named by its byte offset from the engine's
base. -/
inductive HostMove where
  /-- Read the register at a byte offset (R141). -/
  | readReg (e : Engine) (offset : Nat)
  /-- Write a 32-bit value to the register at a byte offset (R142 to R144). -/
  | writeReg (e : Engine) (offset : Nat) (value : Word)
  /-- Read a byte of a space (R140). -/
  | readByte (space : Space) (index : Nat)
  /-- Write a byte of a space (R140). -/
  | writeByte (space : Space) (index : Nat) (value : Byte)
  /-- Assert reset (70_reset_and_hazards.md R180). -/
  | assertReset
  deriving DecidableEq, Repr

/-- The model's own (log entries 6, 14 and 15): what the platform has put behind the spaces, as far as the launch
premises ask (43_host_interface.md R146, 93_implementation_defined.md U6). It decides which launches are accepted and
nothing about what a space holds. -/
structure Buffers where
  /-- Pairs of spaces that share storage. -/
  sharing : List (Space × Space)
  /-- Bytes of storage behind `DOUT`. -/
  doutStorage : Nat
  /-- Bytes of storage behind `EOUT`. -/
  eoutStorage : Nat
  deriving DecidableEq, Repr

/-- One entry of the agenda (log entry 5): whose move is next. -/
inductive Action where
  /-- The engine takes its next step, if it is `BUSY`. -/
  | engine (e : Engine)
  /-- The host makes a move. -/
  | host (move : HostMove)
  /-- The platform puts other storage behind the spaces, which keep their bytes (log entry 14). -/
  | platform (buffers : Buffers)
  deriving DecidableEq, Repr

/-- The whole machine: two engines that share nothing (10_state.md R10) and what drives them. -/
structure State where
  dec : Decoder
  enc : Encoder
  /-- The model's own (log entry 6). -/
  buffers : Buffers
  /-- The model's own (log entry 5): the moves still to come, in order. When it is empty a `BUSY` engine steps by itself. -/
  agenda : List Action
  /-- The model's own (log entry 4): what the host's last read answered. -/
  hostData : Word
  /-- The model's own (log entry 3): how many free choices `Config.busyReadChoice` has made. -/
  busyReads : Nat
  deriving DecidableEq, Repr

/-- Why the machine stops. No engine ever stops it: an engine's fault is a next state (60_exceptions.md R160). -/
inductive Fault where
  /-- Raised by a host read or write of a byte whose index is `2^AW` or more: no space has such an index (10_state.md
  R20). Safe: the model stops where there is nothing to access. -/
  | indexOutsideSpace (space : Space) (index : Nat)
  deriving DecidableEq, Repr

/-- What the model gives no meaning. No instruction is refused. -/
inductive Refusal where
  /-- Raised by an arm of `exec` that has no meaning yet (there is none). Safe. -/
  | notModelled (mnemonic : String)
  /-- Raised by a host read or write of a byte of a space whose engine is `BUSY`: the host has no such move
  (20_memory.md R50, 93_implementation_defined.md U8). Safe: nothing can be proved of it. -/
  | spaceOwnedByEngine (space : Space)
  /-- Raised by a `START` whose spaces share storage or whose `DST_CAP` exceeds the storage (10_state.md R21,
  93_implementation_defined.md U6). Safe. -/
  | launchPremiseBroken (e : Engine)
  /-- Raised by the platform moving buffers while an engine is `BUSY` (20_memory.md R50: the buffers are held "for the
  full lifetime of the call"). Safe. -/
  | buffersMovedWhileBusy
  deriving DecidableEq, Repr

/-- `DEC` after reset (10_state.md R29); memory lists nothing (log entry 1). -/
def Decoder.reset : Decoder where
  run := .idle
  errCode := 0
  srcLen := 0
  dstCap := 0
  sp := 0
  dp := 0
  din := []
  dout := []
  doutLost := []
  trail := []

/-- `ENC` after reset (10_state.md R29); memory lists nothing (log entry 1). -/
def Encoder.reset : Encoder where
  run := .idle
  errCode := 0
  srcLen := 0
  dstCap := 0
  sp := 0
  dp := 0
  runIdx := 0
  runCnt := 0
  ein := []
  eout := []
  eoutLost := []
  trail := []

/-- Separate buffers, storage behind every index (log entry 6). -/
def Buffers.reset : Buffers where
  sharing := []
  doutStorage := Config.indexLimit
  eoutStorage := Config.indexLimit

/-- The machine right after reset (10_state.md R29, 70_reset_and_hazards.md R180). -/
def State.reset : State where
  dec := Decoder.reset
  enc := Encoder.reset
  buffers := Buffers.reset
  agenda := []
  hostData := 0
  busyReads := 0

end Sys2Proof.Machine
end

