-- ==== Sys2Proof/Machine/Ops.lean ====
section
/-! DEFINITION. The named operations over memory and registers: reading and writing a space, the forward copy
(40_decoder.md R82), an engine's cursors, taking a fault (60_exceptions.md R160) and what takes its place as a return,
a new launch (43_host_interface.md R142, 60_exceptions.md R162), and reset (70_reset_and_hazards.md R180). -/

namespace Sys2Proof.Machine

/-! ### Memory -/

/-- The known byte at an index, if there is one. -/
def Memory.lookup : Memory → Nat → Option Byte
  | [], _ => none
  | (b, v) :: rest, a => if a = b then some v else if a < b then none else Memory.lookup rest a

/-- One single-byte write (20_memory.md R44), keeping the indices rising. -/
def Memory.write : Memory → Nat → Byte → Memory
  | [], a, v => [(a, v)]
  | (b, w) :: rest, a, v =>
    if a < b then (a, v) :: (b, w) :: rest
    else if a = b then (a, v) :: rest
    else (b, w) :: Memory.write rest a v

/-- One single-byte read: the known byte, or else what `unknown` says an unwritten index holds (log entry 1). -/
def Memory.read (unknown : Nat → Byte) (m : Memory) (a : Nat) : Byte := (m.lookup a).getD (unknown a)

/-- The bytes at `a`, `a + 1`, ..., in increasing index order (20_memory.md R45). -/
def Memory.readList (unknown : Nat → Byte) (m : Memory) (a : Nat) : Nat → List Byte
  | 0 => []
  | k + 1 => m.read unknown a :: Memory.readList unknown m (a + 1) k

/-- Bytes written one by one from index `a` upward (20_memory.md R43, R45). -/
def Memory.writeList (m : Memory) (a : Nat) : List Byte → Memory
  | [] => m
  | v :: vs => Memory.writeList (m.write a v) (a + 1) vs

/-- `CopyForward` (40_decoder.md R82): read, write, then the next index; so a read may return a byte this copy wrote. -/
def Memory.copyForward (unknown : Nat → Byte) (m : Memory) (src dst : Nat) : Nat → Memory
  | 0 => m
  | k + 1 => Memory.copyForward unknown (m.write dst (m.read unknown src)) (src + 1) (dst + 1) k

/-- Forget every byte below `cap` (93_implementation_defined.md U9). -/
def Memory.forgetBelow (m : Memory) (cap : Nat) : Memory := m.filter fun c => decide (cap ≤ c.1)

/-- The canonical form: indices strictly rise and exist (10_state.md R20). An unlisted index has no known value, so no
entry can equal what an unlisted index reads as. -/
def Memory.wf (m : Memory) : Bool :=
  decide (m.Pairwise fun c d => c.1 < d.1) && m.all fun c => decide (c.1 < Config.indexLimit)

/-! ### What an index of each space holds while nothing known has been written there (log entries 1 and 2) -/

/-- How many abandoned launches may have written index `a`. -/
def lossesAt (lost : List Word) (a : Nat) : Nat := lost.countP fun cap => decide (a < cap.toNat)

/-- An unwritten index of `DIN`. -/
def unknownDin (a : Nat) : Byte := Config.unwrittenByte .din 0 a

/-- An unwritten index of `EIN`. -/
def unknownEin (a : Nat) : Byte := Config.unwrittenByte .ein 0 a

/-- An unwritten index of `DOUT`. -/
def Decoder.unknownDout (d : Decoder) (a : Nat) : Byte := Config.unwrittenByte .dout (lossesAt d.doutLost a) a

/-- An unwritten index of `EOUT`. -/
def Encoder.unknownEout (e : Encoder) (a : Nat) : Byte := Config.unwrittenByte .eout (lossesAt e.eoutLost a) a

/-- `DIN[a]`. -/
def Decoder.dinByte (d : Decoder) (a : Nat) : Byte := d.din.read unknownDin a

/-- `DOUT[a]`. -/
def Decoder.doutByte (d : Decoder) (a : Nat) : Byte := d.dout.read d.unknownDout a

/-- `EIN[a]`. -/
def Encoder.einByte (e : Encoder) (a : Nat) : Byte := e.ein.read unknownEin a

/-- `EOUT[a]`. -/
def Encoder.eoutByte (e : Encoder) (a : Nat) : Byte := e.eout.read e.unknownEout a

/-- The engine a space belongs to (10_state.md R20). -/
def spaceEngine : Space → Engine
  | .din => .dec
  | .dout => .dec
  | .ein => .enc
  | .eout => .enc

/-- `S[a]` for a space of either engine (00_scope.md R8). -/
def State.byteOf (s : State) (space : Space) (a : Nat) : Byte :=
  match space with
  | .din => s.dec.dinByte a
  | .dout => s.dec.doutByte a
  | .ein => s.enc.einByte a
  | .eout => s.enc.eoutByte a

/-- One single-byte write to a space of either engine. -/
def State.writeByteOf (s : State) (space : Space) (a : Nat) (v : Byte) : State :=
  match space with
  | .din => { s with dec := { s.dec with din := s.dec.din.write a v } }
  | .dout => { s with dec := { s.dec with dout := s.dec.dout.write a v } }
  | .ein => { s with enc := { s.enc with ein := s.enc.ein.write a v } }
  | .eout => { s with enc := { s.enc with eout := s.enc.eout.write a v } }

/-! ### Registers -/

/-- `E.STATE` (10_state.md R24). -/
def State.runOf (s : State) : Engine → RunState
  | .dec => s.dec.run
  | .enc => s.enc.run

/-- The engine's cursor registers; `DEC` reads 0 for the run record it does not have (10_state.md R26). -/
def State.cursorsOf (s : State) : Engine → Cursors
  | .dec => ⟨s.dec.sp, s.dec.dp, 0, 0⟩
  | .enc => ⟨s.enc.sp, s.enc.dp, s.enc.runIdx, s.enc.runCnt⟩

/-- The cursors at this launch's earlier step boundaries. -/
def State.trailOf (s : State) : Engine → List Cursors
  | .dec => s.dec.trail
  | .enc => s.enc.trail

/-- Keep the engine's cursors before its next step, for host reads while it is `BUSY` (43_host_interface.md R141). -/
def recordBoundary (e : Engine) (s : State) : State :=
  match e with
  | .dec => { s with dec := { s.dec with trail := s.cursorsOf .dec :: s.dec.trail } }
  | .enc => { s with enc := { s.enc with trail := s.cursorsOf .enc :: s.enc.trail } }

/-! ### Faults and launches -/

/-- The cause's code (60_exceptions.md R150). -/
def causeCode : Cause → BitVec 4
  | .invalidOpcode => 1
  | .bufferOverrun => 2
  | .truncatedStream => 3
  | .unwrittenSource => 4
  | .outputExhausted => 5

/-- Fault entry (60_exceptions.md R160): the code and the state of the engine, and nothing else. -/
def raise (e : Engine) (c : Cause) (s : State) : State :=
  match e with
  | .dec => { s with dec := { s.dec with errCode := causeCode c, run := .err } }
  | .enc => { s with enc := { s.enc with errCode := causeCode c, run := .err } }

/-- What `START` does to an engine that is not `BUSY` (43_host_interface.md R142). There is no return from a fault: this
and reset are the only ways out of `ERR` (60_exceptions.md R162). -/
def launch (e : Engine) (s : State) : State :=
  match e with
  | .dec => { s with dec := { s.dec with sp := 0, dp := 0, errCode := 0, run := .busy, trail := [] } }
  | .enc => { s with enc := { s.enc with sp := 0, dp := 0, errCode := 0, runCnt := 0, run := .busy, trail := [] } }

/-- Reset of `DEC` (70_reset_and_hazards.md R180): registers as in R29, `DIN` untouched; `DOUT` untouched too, unless a
launch is abandoned, whose bytes below `DST_CAP` are then unknown (93_implementation_defined.md U9, log entry 2). -/
def Decoder.afterReset (d : Decoder) : Decoder :=
  match d.run with
  | .busy =>
    { Decoder.reset with din := d.din, dout := d.dout.forgetBelow d.dstCap.toNat, doutLost := d.dstCap :: d.doutLost }
  | _ => { Decoder.reset with din := d.din, dout := d.dout, doutLost := d.doutLost }

/-- Reset of `ENC` (70_reset_and_hazards.md R180), as for `DEC`. -/
def Encoder.afterReset (e : Encoder) : Encoder :=
  match e.run with
  | .busy =>
    { Encoder.reset with ein := e.ein, eout := e.eout.forgetBelow e.dstCap.toNat, eoutLost := e.dstCap :: e.eoutLost }
  | _ => { Encoder.reset with ein := e.ein, eout := e.eout, eoutLost := e.eoutLost }

end Sys2Proof.Machine
end

