-- ==== Sys2Proof/Machine/Control.lean ====
section
/-! DEFINITION. The meaning of the end marker, the only opcode with an effect outside `DOUT` and the cursors
(40_decoder.md R84, R93). -/

namespace Sys2Proof.Machine

/-- `END` (40_decoder.md R84): `pc <- sp + 1`, `DEC.STATE <- DONE`. -/
def execEndMarker (s : State) : Host.Outcome State Fault Refusal :=
  .next { s with dec := { s.dec with sp := s.dec.sp + 1, run := .done } }

end Sys2Proof.Machine
end

