-- ==== Sys2Proof/Machine/Operands.lean ====
section
/-! DEFINITION. The operand forms of the copies: where a copy's source is (20_memory.md R52), with the checks that come
before any read (60_exceptions.md R153, R156). -/

namespace Sys2Proof.Machine

/-- Relative source (40_decoder.md R83): `dp - offset`. Before the start comes before unwritten (60_exceptions.md R158). -/
def relativeSource (dp offset : Nat) : Except Cause Nat :=
  if dp < offset then .error .bufferOverrun
  else if offset = 0 then .error .unwrittenSource
  else .ok (dp - offset)

/-- Absolute source (40_decoder.md R87): `offset` itself, an index into `DOUT`. -/
def absoluteSource (dp offset : Nat) : Except Cause Nat :=
  if dp ≤ offset then .error .unwrittenSource
  else .ok offset

/-- Absolute source of a long copy (40_decoder.md R88): not checked when nothing is read. -/
def longSource (dp count offset : Nat) : Except Cause Nat :=
  if 1 ≤ count then absoluteSource dp offset
  else .ok offset

end Sys2Proof.Machine
end

