-- ==== Sys2Proof/Machine/Produce.lean ====
section
/-! DEFINITION. What every opcode that produces bytes shares: the capacity check before the first write and the advance
of both cursors after the last (40_decoder.md R83, R85 to R88; 60_exceptions.md R152, R159). -/

namespace Sys2Proof.Machine

/-- The capacity check (60_exceptions.md R152), exact (40_decoder.md R89). -/
def fitsOutput (d : Decoder) (count : Nat) : Bool := decide (d.dp.toNat + count ≤ d.dstCap.toNat)

/-- `DOUT` has become `dout'` by the writing of `count` bytes, and the opcode was `size` bytes long. -/
def Decoder.advance (d : Decoder) (dout' : Memory) (count size : Nat) : Decoder :=
  { d with dout := dout', dp := d.dp + BitVec.ofNat 32 count, sp := d.sp + BitVec.ofNat 32 size }

/-- Append given bytes at the write cursor, or fault (R85, R86). -/
def appendBytes (data : List Byte) (size : Nat) (s : State) : State :=
  if fitsOutput s.dec data.length then
    { s with dec := s.dec.advance (s.dec.dout.writeList s.dec.dp.toNat data) data.length size }
  else raise .dec .bufferOverrun s

/-- Append `count` bytes of earlier output from a checked source, or fault (R83, R87, R88): the source's check comes
before the capacity's (60_exceptions.md R158). -/
def appendCopy (source : Except Cause Nat) (count size : Nat) (s : State) : State :=
  match source with
  | .error c => raise .dec c s
  | .ok src =>
    if fitsOutput s.dec count then
      { s with
        dec := s.dec.advance (s.dec.dout.copyForward s.dec.unknownDout src s.dec.dp.toNat count) count size }
    else raise .dec .bufferOverrun s

end Sys2Proof.Machine
end

