-- ==== Sys2Proof/Machine/Copies.lean ====
section
/-! DEFINITION. The meanings of the three copies: `SCOPY`, `MCOPY`, `LCOPY` (40_decoder.md R83, R87, R88). A fault is a
next state (60_exceptions.md R160). -/

namespace Sys2Proof.Machine

/-- `SCOPY length, offset` (40_decoder.md R83): relative source. -/
def execScopy (length offset : Nat) (s : State) : Host.Outcome State Fault Refusal :=
  .next (appendCopy (relativeSource s.dec.dp.toNat offset) length 2 s)

/-- `MCOPY length, offset` (40_decoder.md R87): absolute source. -/
def execMcopy (length offset : Nat) (s : State) : Host.Outcome State Fault Refusal :=
  .next (appendCopy (absoluteSource s.dec.dp.toNat offset) length 3 s)

/-- `LCOPY count, offset` (40_decoder.md R88): absolute source, not checked when `count` is 0. -/
def execLcopy (count offset : Nat) (s : State) : Host.Outcome State Fault Refusal :=
  .next (appendCopy (longSource s.dec.dp.toNat count offset) count 5 s)

end Sys2Proof.Machine
end

