-- ==== Sys2Proof/Machine/Runs.lean ====
section
/-! DEFINITION. The meanings of the two runs: `LIT` and `FILL` (40_decoder.md R85, R86). -/

namespace Sys2Proof.Machine

/-- `LIT b0 .. b(n-1)` (40_decoder.md R85). -/
def execLit (data : List Byte) (s : State) : Host.Outcome State Fault Refusal :=
  .next (appendBytes data (1 + data.length) s)

/-- `FILL count, value` (40_decoder.md R86). -/
def execFill (count : Nat) (value : Byte) (s : State) : Host.Outcome State Fault Refusal :=
  .next (appendBytes (List.replicate count value) 4 s)

end Sys2Proof.Machine
end

