-- ==== Sys2Proof/Machine/Dispatch.lean ====
section
/-! DEFINITION. One arm per constructor of Instr, each one direct call of its meaning. -/

namespace Sys2Proof.Machine

def exec (i : Instr) (s : State) : Host.Outcome State Fault Refusal :=
  match i with
  | .scopy length offset => Sys2Proof.Machine.execScopy length offset s
  | .endMarker => Sys2Proof.Machine.execEndMarker s
  | .lit data => Sys2Proof.Machine.execLit data s
  | .fill count value => Sys2Proof.Machine.execFill count value s
  | .mcopy length offset => Sys2Proof.Machine.execMcopy length offset s
  | .lcopy count offset => Sys2Proof.Machine.execLcopy count offset s

end Sys2Proof.Machine
end

