-- ==== Sys2Proof/Machine/Search.lean ====
section
/-! DEFINITION. The deciding half of the encoder (41_encoder_search.md): run detection, match search and tier selection,
as functions of the source bytes. -/

namespace Sys2Proof.Machine

/-- How many bytes of `src` from index `a` on equal `v`, of at most `fuel` bytes looked at. -/
def sameFrom (src : Nat → Byte) (v : Byte) (a : Nat) : Nat → Nat
  | 0 => 0
  | k + 1 => if src a = v then sameFrom src v (a + 1) k + 1 else 0

/-- How many bytes of `src` from index `c` on equal those from index `p` on, of at most `fuel` pairs looked at. -/
def agreeFrom (src : Nat → Byte) (c p : Nat) : Nat → Nat
  | 0 => 0
  | k + 1 => if src c = src p then agreeFrom src (c + 1) (p + 1) k + 1 else 0

/-- `Cap(p)` in a source of `n` bytes (41_encoder_search.md R104, R109). -/
def matchCap (n p : Nat) : Nat := min (n - p) Config.longMaxLen

/-- `EffLen(c, p)` (R104, R105, R110): a candidate above index 65535 counts only where a short copy can name it. -/
def effectiveLen (src : Nat → Byte) (n c p : Nat) : Nat :=
  if c ≤ Config.absMax then agreeFrom src c p (matchCap n p)
  else if p - c ≤ Config.shortMaxOff then min (agreeFrom src c p (matchCap n p)) Config.shortMaxLen
  else 0

/-- The scan over candidates `0 .. c-1` that replaces its best only on a strictly greater length (R106). -/
def scanBelow (src : Nat → Byte) (n p : Nat) : Nat → Nat × Nat
  | 0 => (0, 0)
  | c + 1 =>
    if (scanBelow src n p c).1 < effectiveLen src n c p then (effectiveLen src n c p, c) else scanBelow src n p c

/-- `RunLen(p)` (41_encoder_search.md R101). -/
def Encoder.runLen (e : Encoder) (p : Nat) : Nat := sameFrom e.einByte (e.einByte p) p (e.srcLen.toNat - p)

/-- `Len(c, p)` (R104, R105). -/
def Encoder.matchLen (e : Encoder) (c p : Nat) : Nat := agreeFrom e.einByte c p (matchCap e.srcLen.toNat p)

/-- `EffLen(c, p)` (R104). -/
def Encoder.effLen (e : Encoder) (c p : Nat) : Nat := effectiveLen e.einByte e.srcLen.toNat c p

/-- `BestMatch(p)` (R104): length and start of the best match. -/
def Encoder.bestMatch (e : Encoder) (p : Nat) : Nat × Nat := scanBelow e.einByte e.srcLen.toNat p p

/-- Tier selection (R108, R111): the cheapest copy that qualifies for a match of `length` at `start`, seen from `p`. -/
def tierFor (length start p : Nat) : Instr :=
  if length ≤ Config.shortMaxLen ∧ p - start ≤ Config.shortMaxOff then .scopy length (p - start)
  else if length ≤ Config.medMaxLen then .mcopy length start
  else .lcopy length start

/-- What one iteration of the encoder loop does (41_encoder_search.md R100). -/
inductive Choice where
  /-- The source is exhausted. -/
  | finish
  /-- A fill of `count` bytes. -/
  | fill (count : Nat) (value : Byte)
  /-- A copy of the match `length` bytes long that starts at `start`. -/
  | copy (length start : Nat)
  /-- One literal byte. -/
  | literal (value : Byte)
  deriving DecidableEq, Repr

/-- The decision at `ENC.SP` (41_encoder_search.md R100, R102, R103, R107). -/
def Encoder.decision (e : Encoder) : Choice :=
  if e.sp = e.srcLen then .finish
  else if Config.fillMin ≤ e.runLen e.sp.toNat then
    .fill (min (e.runLen e.sp.toNat) Config.fillMax) (e.einByte e.sp.toNat)
  else if Config.minMatch ≤ (e.bestMatch e.sp.toNat).1 then
    .copy (e.bestMatch e.sp.toNat).1 (e.bestMatch e.sp.toNat).2
  else .literal (e.einByte e.sp.toNat)

end Sys2Proof.Machine
end

