-- ==== Sys2Proof/Machine/Emit.lean ====
section
/-! DEFINITION. The emitting half of the encoder (42_encoder_emit.md): the bytes written to `EOUT`, the literal-run
record, and the end of the stream. Every emission checks the capacity before its first write (R126). -/

namespace Sys2Proof.Machine

/-- The capacity check (42_encoder_emit.md R126). -/
def fitsStream (e : Encoder) (size : Nat) : Bool := decide (e.dp.toNat + size ≤ e.dstCap.toNat)

/-- Write the bytes of an opcode at the output cursor and close any open run (R120, R121, R122, R128); the bytes are
those of 30_encoding.md R67. -/
def Encoder.emit (e : Encoder) (i : Instr) : Except Cause Encoder :=
  if fitsStream e (encode i).length then
    .ok { e with
      eout := e.eout.writeList e.dp.toNat (encode i)
      dp := e.dp + BitVec.ofNat 32 (encode i).length
      runCnt := 0 }
  else .error .outputExhausted

/-- The source position moves past `count` consumed bytes (41_encoder_search.md R100). -/
def Encoder.consume (e : Encoder) (count : Nat) : Encoder := { e with sp := e.sp + BitVec.ofNat 32 count }

/-- `EmitFill(c, v)` (42_encoder_emit.md R121). -/
def Encoder.emitFill (e : Encoder) (count : Nat) (value : Byte) : Except Cause Encoder := e.emit (.fill count value)

/-- `EmitCopy(L, m)` (42_encoder_emit.md R122). -/
def Encoder.emitCopy (e : Encoder) (length start : Nat) : Except Cause Encoder :=
  e.emit (tierFor length start e.sp.toNat)

/-- The tag of an open literal run of `count` bytes (42_encoder_emit.md R124). -/
def runTag (count : BitVec 6) : Byte := BitVec.ofNat 8 (0x80 ||| count.toNat)

/-- `AppendLiteral(b)` (42_encoder_emit.md R124): open a run, or extend the open one and rewrite its tag. -/
def Encoder.appendLiteral (e : Encoder) (b : Byte) : Except Cause Encoder :=
  if e.runCnt = 0 ∨ e.runCnt = 63 then
    if fitsStream e 2 then
      .ok { e with
        runIdx := e.dp
        eout := e.eout.writeList e.dp.toNat [0x81#8, b]
        dp := e.dp + 2
        runCnt := 1 }
    else .error .outputExhausted
  else if fitsStream e 1 then
    .ok { e with
      eout := (e.eout.write e.dp.toNat b).write e.runIdx.toNat (runTag (e.runCnt + 1))
      dp := e.dp + 1
      runCnt := e.runCnt + 1 }
  else .error .outputExhausted

/-- `EmitEnd()` (42_encoder_emit.md R128). -/
def Encoder.emitEnd (e : Encoder) : Except Cause Encoder :=
  match e.emit .endMarker with
  | .ok e' => .ok { e' with run := .done }
  | .error c => .error c

/-- One iteration of the encoder loop (41_encoder_search.md R100), short of the fault entry. -/
def Encoder.iterate (e : Encoder) : Except Cause Encoder :=
  match e.decision with
  | .finish => e.emitEnd
  | .fill count value => (e.emitFill count value).map (·.consume count)
  | .copy length start => (e.emitCopy length start).map (·.consume length)
  | .literal value => (e.appendLiteral value).map (·.consume 1)

/-- One step of `ENC` (41_encoder_search.md R100); a fault is a next state (60_exceptions.md R160). -/
def encoderStep (s : State) : State :=
  match s.enc.iterate with
  | .ok e => { s with enc := e }
  | .error c => raise .enc c s

end Sys2Proof.Machine
end

