-- ==== Sys2Proof/Machine/Fetch.lean ====
section
/-! DEFINITION. Fetching an instruction from `DIN` (40_decoder.md R81), and placing one there for the host. -/

namespace Sys2Proof.Machine

/-- The fetch (40_decoder.md R81): tag present, then payload present, then the bytes are decoded. The last refusal
cannot happen (60_exceptions.md R154; lemma `fetch_ne_invalidOpcode`). -/
def fetch (d : Decoder) : Except Cause Instr :=
  if d.srcLen.toNat ≤ d.sp.toNat then .error .truncatedStream
  else if d.srcLen.toNat < d.sp.toNat + instrLength (d.dinByte d.sp.toNat) then .error .truncatedStream
  else
    match decode (d.din.readList unknownDin d.sp.toNat (instrLength (d.dinByte d.sp.toNat))) with
    | .ok (i, _) => .ok i
    | .error _ => .error .invalidOpcode

/-- Where an instruction of up to 64 bytes can be placed: at the stream cursor, or at index 0 where the index space ends
before the longest instruction would. -/
def placeIndex (d : Decoder) : Nat :=
  if d.sp.toNat + Config.longestInstr < Config.indexLimit then d.sp.toNat else 0

/-- `s` with `bytes` in `DIN` where `DEC` fetches next, `DEC` `BUSY` with room for them below `SRC_LEN`, and `DEC` next to
move: what the host's writes and `START` bring about (70_reset_and_hazards.md R182; log entry 7). -/
def placeFetch (bytes : List Byte) (s : State) : State :=
  { s with
    dec := { s.dec with
      din := s.dec.din.writeList (placeIndex s.dec) bytes
      sp := BitVec.ofNat 32 (placeIndex s.dec)
      srcLen := BitVec.ofNat 32 (max s.dec.srcLen.toNat (placeIndex s.dec + bytes.length))
      run := .busy
      errCode := 0 }
    agenda := .engine .dec :: s.agenda }

end Sys2Proof.Machine
end

