-- ==== Sys2Proof/Machine/Flags.lean ====
section
/-! DEFINITION. The flags of the hardware: the `STATUS` word of an engine (10_state.md R24, R26). No opcode reads a flag
and there are no arithmetic condition codes. -/

namespace Sys2Proof.Machine

/-- `STATUS` bit 0 (R24). -/
def busyBit (r : RunState) : BitVec 1 := BitVec.ofBool (decide (r = .busy))

/-- `STATUS` bit 1 (R24). -/
def doneBit (r : RunState) : BitVec 1 := BitVec.ofBool (decide (r = .done))

/-- `STATUS` bit 2 (R24). -/
def errBit (r : RunState) : BitVec 1 := BitVec.ofBool (decide (r = .err))

/-- `STATUS` (R26): `BUSY`, `DONE`, `ERR` in bits 0 to 2, bit 3 zero, `ERR_CODE` in bits 7:4, the rest zero. -/
def statusWord (r : RunState) (code : BitVec 4) : Word :=
  (0 : BitVec 24) ++ code ++ (0 : BitVec 1) ++ errBit r ++ doneBit r ++ busyBit r

end Sys2Proof.Machine
end

