-- ==== Sys2Proof/Machine/HostPort.lean ====
section
/-! DEFINITION. The host's moves (43_host_interface.md): the register block, `START` with its launch premises, byte
accesses, reset; and the platform's buffers. -/

namespace Sys2Proof.Machine

/-- The register at a byte offset from the engine's base (10_state.md R26). -/
def regAt : Nat → Option Reg
  | 0x00 => some .ctrl
  | 0x04 => some .status
  | 0x08 => some .srcLen
  | 0x0C => some .dstCap
  | 0x10 => some .sp
  | 0x14 => some .dp
  | 0x18 => some .runIdx
  | 0x1C => some .runCnt
  | _ => none

/-- The four registers whose value a host must not rely on while the engine is `BUSY` (43_host_interface.md R141). -/
def Reg.isCursor : Reg → Bool
  | .sp => true
  | .dp => true
  | .runIdx => true
  | .runCnt => true
  | .ctrl => false
  | .status => false
  | .srcLen => false
  | .dstCap => false

/-- `SRC_LEN` of an engine. -/
def State.srcLenOf (s : State) : Engine → Word
  | .dec => s.dec.srcLen
  | .enc => s.enc.srcLen

/-- `DST_CAP` of an engine. -/
def State.dstCapOf (s : State) : Engine → Word
  | .dec => s.dec.dstCap
  | .enc => s.enc.dstCap

/-- `ERR_CODE` of an engine. -/
def State.errCodeOf (s : State) : Engine → BitVec 4
  | .dec => s.dec.errCode
  | .enc => s.enc.errCode

/-- The 32-bit value of a register (10_state.md R26), its cursors taken from `c`; `CTRL` reads 0. -/
def regValue (s : State) (e : Engine) (c : Cursors) : Reg → Word
  | .ctrl => 0
  | .status => statusWord (s.runOf e) (s.errCodeOf e)
  | .srcLen => s.srcLenOf e
  | .dstCap => s.dstCapOf e
  | .sp => c.sp
  | .dp => c.dp
  | .runIdx => c.runIdx
  | .runCnt => c.runCnt.setWidth 32

/-- The step boundary a read of a `BUSY` engine's cursor answers from: the present one or an earlier one of this launch,
freely (43_host_interface.md R141, 93_implementation_defined.md U10, log entry 3). -/
def boundaryRead (s : State) (e : Engine) : Cursors :=
  ((s.cursorsOf e :: s.trailOf e)[Config.busyReadChoice s.busyReads % ((s.trailOf e).length + 1)]?).getD (s.cursorsOf e)

/-- Register read (43_host_interface.md R141): no effect but the host's answer. -/
def hostReadReg (e : Engine) (offset : Nat) (s : State) : State :=
  match regAt offset with
  | none => { s with hostData := 0 }
  | some r =>
    if s.runOf e = .busy ∧ r.isCursor = true then
      { s with hostData := regValue s e (boundaryRead s e) r, busyReads := s.busyReads + 1 }
    else { s with hostData := regValue s e (s.cursorsOf e) r }

/-- Whether two spaces share storage. -/
def Buffers.shares (b : Buffers) (x y : Space) : Bool := decide ((x, y) ∈ b.sharing) || decide ((y, x) ∈ b.sharing)

/-- The launch premises of an engine (43_host_interface.md R146, 10_state.md R21, 93_implementation_defined.md U6): its
two spaces are disjoint, its capacity has storage behind it, and its spaces are disjoint from those of the other engine
if that one is `BUSY`. A launch whose output space shares storage with a space of an engine that is not `BUSY` breaks none
of them and is accepted; DESIGN CHOICE, unsafe (log entry 15): what it writes does not show in the sharing space. -/
def launchPremises (s : State) (e : Engine) : Bool :=
  let crossFree : Bool :=
    !(s.buffers.shares .din .ein || s.buffers.shares .din .eout || s.buffers.shares .dout .ein
      || s.buffers.shares .dout .eout)
  match e with
  | .dec =>
    !s.buffers.shares .din .dout && decide (s.dec.dstCap.toNat ≤ s.buffers.doutStorage)
      && (decide (s.enc.run ≠ .busy) || crossFree)
  | .enc =>
    !s.buffers.shares .ein .eout && decide (s.enc.dstCap.toNat ≤ s.buffers.eoutStorage)
      && (decide (s.dec.run ≠ .busy) || crossFree)

/-- A write of `SRC_LEN` (43_host_interface.md R144). -/
def writeSrcLen (e : Engine) (v : Word) (s : State) : State :=
  match e with
  | .dec => { s with dec := { s.dec with srcLen := v } }
  | .enc => { s with enc := { s.enc with srcLen := v } }

/-- A write of `DST_CAP` (43_host_interface.md R144). -/
def writeDstCap (e : Engine) (v : Word) (s : State) : State :=
  match e with
  | .dec => { s with dec := { s.dec with dstCap := v } }
  | .enc => { s with enc := { s.enc with dstCap := v } }

/-- A write of `CTRL` (10_state.md R26, 43_host_interface.md R142): bit 0 starts the engine. -/
def writeCtrl (e : Engine) (v : Word) (s : State) : Host.Outcome State Fault Refusal :=
  if v.getLsbD 0 then
    if launchPremises s e then .next (launch e s) else .refused (.launchPremiseBroken e)
  else .next s

/-- Register write (43_host_interface.md R142 to R144): ignored while `BUSY`, and at read-only and unlisted offsets
always. -/
def hostWriteReg (e : Engine) (offset : Nat) (v : Word) (s : State) : Host.Outcome State Fault Refusal :=
  if s.runOf e = .busy then .next s
  else
    match regAt offset with
    | some .ctrl => writeCtrl e v s
    | some .srcLen => .next (writeSrcLen e v s)
    | some .dstCap => .next (writeDstCap e v s)
    | _ => .next s

/-- Whether the host may access an index of a space (43_host_interface.md R140, 20_memory.md R50), else how it stops. -/
def hostByteAccess (space : Space) (index : Nat) (s : State) (k : State) : Host.Outcome State Fault Refusal :=
  if Config.indexLimit ≤ index then .fault (.indexOutsideSpace space index)
  else if s.runOf (spaceEngine space) = .busy then .refused (.spaceOwnedByEngine space)
  else .next k

/-- Reset (70_reset_and_hazards.md R180): both engines; what drives them stays. -/
def assertReset (s : State) : State := { s with dec := s.dec.afterReset, enc := s.enc.afterReset }

/-- A move of the host (43_host_interface.md R140). -/
def hostMove (m : HostMove) (s : State) : Host.Outcome State Fault Refusal :=
  match m with
  | .readReg e offset => .next (hostReadReg e offset s)
  | .writeReg e offset v => hostWriteReg e offset v s
  | .readByte space index =>
    hostByteAccess space index s { s with hostData := (s.byteOf space index).setWidth 32 }
  | .writeByte space index v => hostByteAccess space index s (s.writeByteOf space index v)
  | .assertReset => .next (assertReset s)

/-- The platform puts other storage behind the spaces (log entry 6), between launches only (20_memory.md R50). DESIGN
CHOICE, unsafe (log entry 14): the spec has no such move and does not say what the spaces hold after it; the model keeps
every byte of all four. -/
def platformMove (b : Buffers) (s : State) : Host.Outcome State Fault Refusal :=
  if s.dec.run = .busy ∨ s.enc.run = .busy then .refused .buffersMovedWhileBusy
  else .next { s with buffers := b }

end Sys2Proof.Machine
end

