-- ==== Sys2Proof/Machine/Schedule.lean ====
section
/-! DEFINITION. Whose move is next (60_exceptions.md R164: "A model may schedule the steps of the two engines in any
interleaving"). The interleaving is data in State, so a statement about every state covers every interleaving (log
entry 5). -/

namespace Sys2Proof.Machine

/-- Who moves at this step. -/
inductive Turn where
  /-- `DEC` interprets one opcode. -/
  | decoder
  /-- `ENC` performs one iteration. -/
  | encoder
  /-- The host makes a move. -/
  | host (m : HostMove)
  /-- The platform makes a move. -/
  | platform (b : Buffers)
  /-- Nothing moves: no engine is `BUSY` and nobody acts (60_exceptions.md: "an engine that is not `BUSY` does nothing"). -/
  | rest
  deriving DecidableEq, Repr

/-- The turn of an engine: its step if it is `BUSY` (10_state.md R10). -/
def engineTurn (s : State) : Engine → Turn
  | .dec => if s.dec.run = .busy then .decoder else .rest
  | .enc => if s.enc.run = .busy then .encoder else .rest

/-- The next turn, from the agenda; when the agenda is empty a `BUSY` engine moves (70_reset_and_hazards.md R191: it
"always eventually takes its next step"), `DEC` before `ENC`. -/
def nextTurn (s : State) : Turn :=
  match s.agenda with
  | .engine e :: _ => engineTurn s e
  | .host m :: _ => .host m
  | .platform b :: _ => .platform b
  | [] => if s.dec.run = .busy then .decoder else engineTurn s .enc

/-- The state with the agenda entry that this step acts on taken off. -/
def takeEntry (s : State) : State := { s with agenda := s.agenda.tail }

end Sys2Proof.Machine
end

