-- ==== Sys2Proof/Machine/Step.lean ====
section
/-! DEFINITION. One step of the whole machine: one turn of an engine, the host or the platform. -/

namespace Sys2Proof.Machine

/-- One step of `DEC` (40_decoder.md R80): fetch, dispatch, execute; a fetch fault is a next state (R81, 60_exceptions.md
R160). -/
def decoderStep (s : State) : Host.Outcome State Fault Refusal :=
  match fetch s.dec with
  | .ok i => exec i s
  | .error c => .next (raise .dec c s)

/-- What a turn does. An engine's cursors are kept before it moves (43_host_interface.md R141). -/
def takeTurn (t : Turn) (s : State) : Host.Outcome State Fault Refusal :=
  match t with
  | .decoder => decoderStep (recordBoundary .dec s)
  | .encoder => .next (encoderStep (recordBoundary .enc s))
  | .host m => hostMove m s
  | .platform b => platformMove b s
  | .rest => .next s

/-- One step of the machine. -/
def step (s : State) : Host.Outcome State Fault Refusal := takeTurn (nextTurn s) (takeEntry s)

/-- `s` with the instruction whose bits are `w` (30_encoding.md's bytes, the tag lowest) where the very next step fetches
it (log entry 7). -/
def State.withFetchWord (s : State) (nbits w : Nat) : State := placeFetch (tableBytes nbits w) s

end Sys2Proof.Machine
end

