-- ==== Sys2Proof/Safety.lean ====
section
/-! DEFINITION. The terms claims are stated in: what an instruction produces and when it faults (60_exceptions.md R158),
a fresh launch and its result (43_host_interface.md R142, R145), and the invariants of the two engines. -/

namespace Sys2Proof.Machine

/-- How many bytes an instruction appends to `DOUT` when it completes (60_exceptions.md R152: its `count`). -/
def producedCount : Instr → Nat
  | .scopy length _ => length
  | .endMarker => 0
  | .lit data => data.length
  | .fill count _ => count
  | .mcopy length _ => length
  | .lcopy count _ => count

/-- The copy's source lies before the destination's start (60_exceptions.md R153): `SCOPY` only. -/
def sourceBeforeStart (dp : Nat) : Instr → Bool
  | .scopy _ offset => decide (dp < offset)
  | _ => false

/-- The copy's first source index is not below the write cursor (60_exceptions.md R156). -/
def sourceUnwritten (dp : Nat) : Instr → Bool
  | .scopy _ offset => decide (offset = 0)
  | .mcopy _ offset => decide (dp ≤ offset)
  | .lcopy count offset => decide (1 ≤ count) && decide (dp ≤ offset)
  | _ => false

/-- The instruction would produce past the destination's capacity (60_exceptions.md R152); `END` produces nothing. -/
def overCapacity (d : Decoder) : Instr → Bool
  | .endMarker => false
  | i => decide (d.dstCap.toNat < d.dp.toNat + producedCount i)

/-- The fault of an instruction whose bytes are all there, by the order of 60_exceptions.md R158 items 3 to 5. -/
def instrFault (d : Decoder) (i : Instr) : Option Cause :=
  if sourceBeforeStart d.dp.toNat i then some .bufferOverrun
  else if sourceUnwritten d.dp.toNat i then some .unwrittenSource
  else if overCapacity d i then some .bufferOverrun
  else none

/-- The instruction `i` stands at `DEC`'s stream cursor, all of it below `SRC_LEN` (40_decoder.md R81). -/
def Decoder.holdsInstr (d : Decoder) (i : Instr) : Prop :=
  i.wellFormed = true ∧ d.sp.toNat + i.size ≤ d.srcLen.toNat ∧
    d.din.readList unknownDin d.sp.toNat i.size = encode i

/-- It is `DEC`'s turn to take a step. -/
def decoderMoves (s : State) : Prop := nextTurn s = .decoder

/-- It is `ENC`'s turn to take a step. -/
def encoderMoves (s : State) : Prop := nextTurn s = .encoder

/-- The state a step's move acts on: its agenda entry taken, and `DEC`'s step boundary kept. -/
def beforeDecoder (s : State) : State := recordBoundary .dec (takeEntry s)

/-- As `beforeDecoder`, for `ENC`. -/
def beforeEncoder (s : State) : State := recordBoundary .enc (takeEntry s)

/-- `DEC` as `START` leaves it (43_host_interface.md R142). -/
def Decoder.fresh (d : Decoder) : Prop := d.run = .busy ∧ d.sp = 0 ∧ d.dp = 0 ∧ d.errCode = 0

/-- `ENC` as `START` leaves it (43_host_interface.md R142). -/
def Encoder.fresh (e : Encoder) : Prop := e.run = .busy ∧ e.sp = 0 ∧ e.dp = 0 ∧ e.errCode = 0 ∧ e.runCnt = 0

/-- What a launch of `DEC` gives the host (43_host_interface.md R145): bytes after `DONE`, nothing after a fault. -/
def Decoder.result (d : Decoder) : Option (List Byte) :=
  if d.run = .done then some (d.dout.readList d.unknownDout 0 d.dp.toNat) else none

/-- What a launch of `ENC` gives the host (43_host_interface.md R145). -/
def Encoder.result (e : Encoder) : Option (List Byte) :=
  if e.run = .done then some (e.eout.readList e.unknownEout 0 e.dp.toNat) else none

/-- The source bytes of an encoder launch: `EIN[0 .. SRC_LEN-1]` (10_state.md R19). -/
def Encoder.source (e : Encoder) : List Byte := e.ein.readList unknownEin 0 e.srcLen.toNat

/-- The stream of a decoder launch: `DIN[0 .. SRC_LEN-1]` (10_state.md R14). -/
def Decoder.stream (d : Decoder) : List Byte := d.din.readList unknownDin 0 d.srcLen.toNat

/-- How many bytes a list of instructions produces. -/
def producedBy (is : List Instr) : Nat := (is.map producedCount).sum

/-- What a canonical stream allows of one opcode, decoded with the write cursor at `dp` (41_encoder_search.md R115). -/
def canonicalOpcode (dp : Nat) : Instr → Prop
  | .scopy _ offset => 1 ≤ offset ∧ offset ≤ Config.shortMaxOff
  | .endMarker => False
  | .lit _ => True
  | .fill count _ => Config.fillMin ≤ count
  | .mcopy _ offset => offset < dp
  | .lcopy count offset => Config.medMaxLen + 1 ≤ count ∧ offset < dp

/-- The shape of a canonical stream before its one `END` (41_encoder_search.md R115), its last two clauses: a literal run
that another follows is full, and the first opcode is no copy. -/
def canonicalStream (is : List Instr) : Prop :=
  (∀ (before : List Instr) (i : Instr) (after : List Instr), is = before ++ i :: after →
    i.wellFormed = true ∧ canonicalOpcode (producedBy before) i) ∧
  (∀ (before : List Instr) (a b : List Byte) (after : List Instr), is = before ++ .lit a :: .lit b :: after →
    a.length = Config.litMax) ∧
  (∀ (i : Instr) (after : List Instr), is = i :: after →
    (∃ data, i = .lit data) ∨ ∃ count value, i = .fill count value)

/-- `c` is the cursors of `DEC`, or lies behind them: the write and stream cursors only advance within a launch. -/
def cursorsBehind (c : Cursors) (sp dp : Word) : Prop := c.sp.toNat ≤ sp.toNat ∧ c.dp.toNat ≤ dp.toNat

/-- The invariant of `DEC`. -/
structure Decoder.Inv (d : Decoder) : Prop where
  /-- `DIN` is in canonical form. -/
  dinWf : d.din.wf = true
  /-- `DOUT` is in canonical form. -/
  doutWf : d.dout.wf = true
  /-- 40_decoder.md R90: `DEC.SP <= DEC.SRC_LEN` during a launch. -/
  streamBound : d.run = .busy → d.sp.toNat ≤ d.srcLen.toNat
  /-- 10_state.md R13: `DEC.DP` never exceeds `DEC.DST_CAP` during a launch. -/
  outputBound : d.run = .busy → d.dp.toNat ≤ d.dstCap.toNat
  /-- 60_exceptions.md R156: every `DOUT` byte below the write cursor has been written. -/
  written : d.run = .busy → ∀ a < d.dp.toNat, d.dout.lookup a ≠ none
  /-- 10_state.md R25: the code is 0 when the state is not `ERR`. -/
  noCode : d.run ≠ .err → d.errCode = 0
  /-- 60_exceptions.md R150: the codes of `DEC`'s causes that a rule raises. -/
  faultCode : d.run = .err → d.errCode = 2 ∨ d.errCode = 3 ∨ d.errCode = 4
  /-- 43_host_interface.md R141: kept step boundaries are earlier ones. -/
  trailBehind : d.run = .busy → ∀ c ∈ d.trail, cursorsBehind c d.sp d.dp
  /-- 10_state.md R26: `RUN_IDX` and `RUN_CNT` read 0 in the `DEC` block, at every kept step boundary. -/
  trailRunRecord : ∀ c ∈ d.trail, c.runIdx = 0 ∧ c.runCnt = 0

/-- The invariant of `ENC`. -/
structure Encoder.Inv (e : Encoder) : Prop where
  /-- `EIN` is in canonical form. -/
  einWf : e.ein.wf = true
  /-- `EOUT` is in canonical form. -/
  eoutWf : e.eout.wf = true
  /-- 10_state.md R17: `ENC.SP` never exceeds `ENC.SRC_LEN` during a launch. -/
  sourceBound : e.run = .busy → e.sp.toNat ≤ e.srcLen.toNat
  /-- 10_state.md R18: `ENC.DP` never exceeds `ENC.DST_CAP` during a launch. -/
  outputBound : e.run = .busy → e.dp.toNat ≤ e.dstCap.toNat
  /-- Every stream byte below the output cursor has been written. -/
  written : e.run = .busy → ∀ a < e.dp.toNat, e.eout.lookup a ≠ none
  /-- 10_state.md R22: the open run's tag holds its count. -/
  runTagHeld : e.run = .busy → e.runCnt ≠ 0 → e.eout.lookup e.runIdx.toNat = some (runTag e.runCnt)
  /-- 10_state.md R22: the open run ends at the output cursor. -/
  runEnds : e.run = .busy → e.runCnt ≠ 0 → e.runIdx.toNat + 1 + e.runCnt.toNat = e.dp.toNat
  /-- 10_state.md R22: the open run's bytes are the last source bytes consumed. -/
  runHolds : e.run = .busy → e.runCnt ≠ 0 → e.runCnt.toNat ≤ e.sp.toNat ∧
    ∀ i < e.runCnt.toNat, e.eoutByte (e.runIdx.toNat + 1 + i) = e.einByte (e.sp.toNat - e.runCnt.toNat + i)
  /-- 10_state.md R25: the code is 0 when the state is not `ERR`. -/
  noCode : e.run ≠ .err → e.errCode = 0
  /-- 60_exceptions.md R155: `OutputExhausted` is the only fault of `ENC`. -/
  faultCode : e.run = .err → e.errCode = 5
  /-- 43_host_interface.md R141: kept step boundaries are earlier ones. -/
  trailBehind : e.run = .busy → ∀ c ∈ e.trail, cursorsBehind c e.sp e.dp

/-- The invariant of the machine. -/
structure State.Inv (s : State) : Prop where
  dec : s.dec.Inv
  enc : s.enc.Inv

/-- Two decoders alike in everything a launch may depend on (10_state.md R28): registers, stream, and the output bytes
this launch has produced; the rest of `DOUT` may differ. -/
structure Decoder.SameLaunch (d d' : Decoder) : Prop where
  run : d.run = d'.run
  errCode : d.errCode = d'.errCode
  srcLen : d.srcLen = d'.srcLen
  dstCap : d.dstCap = d'.dstCap
  sp : d.sp = d'.sp
  dp : d.dp = d'.dp
  stream : ∀ a < d.srcLen.toNat, d.dinByte a = d'.dinByte a
  produced : ∀ a < d.dp.toNat, d.doutByte a = d'.doutByte a

/-- Two encoders alike in everything a launch may depend on (10_state.md R28): registers (`RUN_IDX` only while a run is
open, R22), source, and the stream bytes this launch has emitted. -/
structure Encoder.SameLaunch (e e' : Encoder) : Prop where
  run : e.run = e'.run
  errCode : e.errCode = e'.errCode
  srcLen : e.srcLen = e'.srcLen
  dstCap : e.dstCap = e'.dstCap
  sp : e.sp = e'.sp
  dp : e.dp = e'.dp
  runCnt : e.runCnt = e'.runCnt
  runIdx : e.runCnt ≠ 0 → e.runIdx = e'.runIdx
  source : ∀ a < e.srcLen.toNat, e.einByte a = e'.einByte a
  emitted : ∀ a < e.dp.toNat, e.eoutByte a = e'.eoutByte a

end Sys2Proof.Machine
end

