-- ==== Sys2Proof/Certificates/Slice0/Obligations.lean ====
section
/-! DEFINITION. The statements for the provers, from the spec's numbered rules, file by file. A fault of an engine is a
next state (60_exceptions.md R160), so a statement of where an instruction faults is not its completion statement. -/

open Sys2Proof Sys2Proof.Machine

/-! ### Encoding (30_encoding.md) -/

/-- Words written out from 30_encoding.md R62 and the spot checks of 95_test_vectors.md section 2.1. -/
def Obligations.WordsFromTheSpecDecode : Prop :=
  decode [0x35#8, 0xA7#8] = .ok (.scopy 6 1447, []) ∧
  decode [0x7F#8, 0xFF#8] = .ok (.scopy 10 4095, []) ∧
  decode [0x80#8, 0xFF#8] = .ok (.endMarker, [0xFF#8]) ∧
  decode [0x83#8, 0x41#8, 0x42#8, 0x43#8, 0x80#8] = .ok (.lit [0x41#8, 0x42#8, 0x43#8], [0x80#8]) ∧
  decode [0xFE#8, 0x34#8, 0x12#8, 0xAA#8] = .ok (.fill 4660 0xAA#8, []) ∧
  decode [0xC0#8, 0x34#8, 0x12#8] = .ok (.mcopy 3 4660, []) ∧
  decode [0xFD#8, 0xFF#8, 0xFF#8] = .ok (.mcopy 64 65535, []) ∧
  decode [0xFF#8, 0x34#8, 0x12#8, 0x78#8, 0x56#8] = .ok (.lcopy 4660 22136, [])

/-- 30_encoding.md R66, every row: operands are assembled from the instruction's bytes, with their ranges. -/
def Obligations.OperandsAreAssembledFromTheBytes : Prop :=
  ∀ (b0 b1 b2 b3 b4 : Byte) (rest : List Byte),
    (b0.toNat < 0x80 →
      decode (b0 :: b1 :: rest) = .ok (.scopy (b0.toNat / 16 + 3) (b0.toNat % 16 * 256 + b1.toNat), rest) ∧
      3 ≤ b0.toNat / 16 + 3 ∧ b0.toNat / 16 + 3 ≤ 10 ∧ b0.toNat % 16 * 256 + b1.toNat ≤ 4095) ∧
    (0x80 < b0.toNat → b0.toNat < 0xC0 →
      (1 ≤ b0.toNat % 64 ∧ b0.toNat % 64 ≤ 63) ∧
      ∀ data : List Byte, data.length = b0.toNat % 64 → decode (b0 :: (data ++ rest)) = .ok (.lit data, rest)) ∧
    (b0.toNat = 0xFE →
      decode (b0 :: b1 :: b2 :: b3 :: rest) = .ok (.fill (b1.toNat + b2.toNat * 256) b3, rest) ∧
      b1.toNat + b2.toNat * 256 ≤ 65535) ∧
    (0xC0 ≤ b0.toNat → b0.toNat < 0xFE →
      decode (b0 :: b1 :: b2 :: rest) = .ok (.mcopy (b0.toNat % 64 + 3) (b1.toNat + b2.toNat * 256), rest) ∧
      3 ≤ b0.toNat % 64 + 3 ∧ b0.toNat % 64 + 3 ≤ 64 ∧ b1.toNat + b2.toNat * 256 ≤ 65535) ∧
    (b0.toNat = 0xFF →
      decode (b0 :: b1 :: b2 :: b3 :: b4 :: rest) =
        .ok (.lcopy (b1.toNat + b2.toNat * 256) (b3.toNat + b4.toNat * 256), rest) ∧
      b1.toNat + b2.toNat * 256 ≤ 65535 ∧ b3.toNat + b4.toNat * 256 ≤ 65535)

/-- 30_encoding.md R63, with R64 and R65: every tag value begins exactly one instruction, of the length its tag says; there
is no tag the decoder refuses, it refuses only bytes that are not there. -/
def Obligations.EveryTagBeginsAnInstructionOfItsLength : Prop :=
  ∀ (t : Byte) (rest : List Byte),
    instrLength t = (if t.toNat ≤ 0x7F then 2 else if t.toNat = 0x80 then 1
      else if t.toNat ≤ 0xBF then 1 + t.toNat % 64 else if t.toNat ≤ 0xFD then 3
      else if t.toNat = 0xFE then 4 else 5) ∧
    (instrLength t ≤ rest.length + 1 →
      ∃ i, decode (t :: rest) = .ok (i, rest.drop (instrLength t - 1)) ∧ i.size = instrLength t ∧ i.wellFormed = true) ∧
    (rest.length + 1 < instrLength t → decode (t :: rest) = .error (.missingPayload t))

/-- 30_encoding.md R67, every row (with the wider operand ranges R70 allows): the bytes of each opcode, and that decoding
them returns the operands. -/
def Obligations.OpcodesAreBuiltFromTheirOperands : Prop :=
  ∀ (length offset count : Nat) (value : Byte) (data : List Byte),
    (3 ≤ length → length ≤ 10 → offset ≤ 4095 →
      encode (.scopy length offset) =
        [BitVec.ofNat 8 ((length - 3) * 16 + offset / 256), BitVec.ofNat 8 (offset % 256)] ∧
      decode (encode (.scopy length offset)) = .ok (.scopy length offset, [])) ∧
    (encode .endMarker = [0x80#8] ∧ decode (encode .endMarker) = .ok (.endMarker, [])) ∧
    (1 ≤ data.length → data.length ≤ 63 →
      encode (.lit data) = BitVec.ofNat 8 (128 + data.length) :: data ∧
      decode (encode (.lit data)) = .ok (.lit data, [])) ∧
    (count ≤ 65535 →
      encode (.fill count value) =
        [0xFE#8, BitVec.ofNat 8 (count % 256), BitVec.ofNat 8 (count / 256), value] ∧
      decode (encode (.fill count value)) = .ok (.fill count value, [])) ∧
    (3 ≤ length → length ≤ 64 → offset ≤ 65535 →
      encode (.mcopy length offset) =
        [BitVec.ofNat 8 (192 + (length - 3)), BitVec.ofNat 8 (offset % 256), BitVec.ofNat 8 (offset / 256)] ∧
      decode (encode (.mcopy length offset)) = .ok (.mcopy length offset, [])) ∧
    (count ≤ 65535 → offset ≤ 65535 →
      encode (.lcopy count offset) =
        [0xFF#8, BitVec.ofNat 8 (count % 256), BitVec.ofNat 8 (count / 256), BitVec.ofNat 8 (offset % 256),
          BitVec.ofNat 8 (offset / 256)] ∧
      decode (encode (.lcopy count offset)) = .ok (.lcopy count offset, []))

/-- Decoding is a left inverse of encoding, on every well-formed instruction, whatever follows it in the stream
(30_encoding.md R67: "Decoding the bytes of this table by rule R66 returns the operands"). -/
def Obligations.DecodeOfEncodeIsTheInstruction : Prop :=
  ∀ (i : Instr) (rest : List Byte), i.wellFormed = true → decode (encode i ++ rest) = .ok (i, rest)

/-- Each byte sequence has one meaning: what decodes is the encoding of a well-formed instruction, then the rest
(30_encoding.md R60, R64). -/
def Obligations.EncodeOfDecodeIsTheBytes : Prop :=
  ∀ (bs : List Byte) (i : Instr) (rest : List Byte),
    decode bs = .ok (i, rest) → i.wellFormed = true ∧ encode i ++ rest = bs ∧ (encode i).length = i.size

/-! ### The decoder's step (40_decoder.md R80, R81) -/

/-- When the bytes at the stream cursor are those of a well-formed instruction, all below `SRC_LEN`, a step of `DEC` is
`exec` of it, on the state with the agenda's entry taken and the step boundary kept (the model's own additions). -/
def Obligations.StepExecutesTheInstructionAtTheCursor : Prop :=
  ∀ (s : State) (i : Instr), decoderMoves s → s.dec.holdsInstr i → step s = exec i (beforeDecoder s)

/-- 60_exceptions.md R151: `TruncatedStream` in its two cases, with nothing written. -/
def Obligations.MissingBytesTruncateTheStream : Prop :=
  ∀ (s : State), decoderMoves s →
    (s.dec.srcLen.toNat ≤ s.dec.sp.toNat ∨
      s.dec.srcLen.toNat < s.dec.sp.toNat + instrLength (s.dec.dinByte s.dec.sp.toNat)) →
    step s = .next { beforeDecoder s with dec := { (beforeDecoder s).dec with errCode := 3, run := .err } }

/-- 60_exceptions.md R154: no step of `DEC` raises `InvalidOpcode` (code 1). -/
def Obligations.NoStreamRaisesInvalidOpcode : Prop :=
  ∀ (s t : State), decoderMoves s → s.dec.errCode ≠ 1 → step s = .next t → t.dec.errCode ≠ 1

/-- 10_state.md R12, R13, 40_decoder.md R90: a step of `DEC` that does not fault moves the stream cursor past exactly the
instruction at it and the write cursor past exactly the bytes produced, neither wrapping nor passing its bound. -/
def Obligations.CursorsAdvanceByLengthAndCount : Prop :=
  ∀ (s t : State), decoderMoves s → step s = .next t → t.dec.run ≠ .err →
    ∃ i, s.dec.holdsInstr i ∧
      t.dec.sp.toNat = s.dec.sp.toNat + i.size ∧ t.dec.sp.toNat ≤ s.dec.srcLen.toNat ∧
      t.dec.dp.toNat = s.dec.dp.toNat + producedCount i ∧
      (i ≠ .endMarker → t.dec.dp.toNat ≤ s.dec.dstCap.toNat)

/-- 70_reset_and_hazards.md R188: the only stop is `END`; a step of `DEC` ends the launch with `DONE` exactly when a tag
0x80 stands at the stream cursor below `SRC_LEN`, and leaves it `BUSY` exactly when any other instruction stands there that
does not fault, however full the destination is. -/
def Obligations.OnlyTheEndMarkerCompletesALaunch : Prop :=
  ∀ (s t : State), decoderMoves s → step s = .next t →
    (t.dec.run = .done ↔ s.dec.sp.toNat < s.dec.srcLen.toNat ∧ s.dec.dinByte s.dec.sp.toNat = 0x80#8) ∧
    (t.dec.run = .busy ↔ ∃ i, s.dec.holdsInstr i ∧ i ≠ .endMarker ∧ instrFault s.dec i = none)

/-! ### The opcodes (40_decoder.md R82 to R88) -/

/-- 40_decoder.md R82: the forward copy repeats the `dst - src` bytes before the cursor cyclically, and changes nothing
else. -/
def Obligations.CopyForwardRepeatsThePattern : Prop :=
  ∀ (unknown : Nat → Byte) (m : Memory) (src dst n : Nat), src < dst → ∀ a : Nat,
    (m.copyForward unknown src dst n).read unknown a =
      if dst ≤ a ∧ a < dst + n then m.read unknown (src + (a - dst) % (dst - src)) else m.read unknown a

/-- 40_decoder.md R83, the whole rule: the three faults in order, and the copy. -/
def Obligations.ShortCopyMeaning : Prop :=
  ∀ (length offset : Nat) (s : State),
    (s.dec.dp.toNat < offset → exec (.scopy length offset) s = .next (raise .dec .bufferOverrun s)) ∧
    (offset = 0 → exec (.scopy length offset) s = .next (raise .dec .unwrittenSource s)) ∧
    (1 ≤ offset → offset ≤ s.dec.dp.toNat → s.dec.dstCap.toNat < s.dec.dp.toNat + length →
      exec (.scopy length offset) s = .next (raise .dec .bufferOverrun s)) ∧
    (1 ≤ offset → offset ≤ s.dec.dp.toNat → s.dec.dp.toNat + length ≤ s.dec.dstCap.toNat →
      ∃ m : Memory,
        exec (.scopy length offset) s = .next { s with dec := { s.dec with
          dout := m, dp := s.dec.dp + BitVec.ofNat 32 length, sp := s.dec.sp + 2 } } ∧
        (∀ k < length, m.read s.dec.unknownDout (s.dec.dp.toNat + k) =
          s.dec.doutByte (s.dec.dp.toNat - offset + k % offset)) ∧
        (∀ a, a < s.dec.dp.toNat ∨ s.dec.dp.toNat + length ≤ a → m.read s.dec.unknownDout a = s.dec.doutByte a))

/-- 40_decoder.md R85, the whole rule. -/
def Obligations.LiteralRunMeaning : Prop :=
  ∀ (data : List Byte) (s : State),
    (s.dec.dstCap.toNat < s.dec.dp.toNat + data.length →
      exec (.lit data) s = .next (raise .dec .bufferOverrun s)) ∧
    (s.dec.dp.toNat + data.length ≤ s.dec.dstCap.toNat →
      ∃ m : Memory,
        exec (.lit data) s = .next { s with dec := { s.dec with
          dout := m, dp := s.dec.dp + BitVec.ofNat 32 data.length,
          sp := s.dec.sp + BitVec.ofNat 32 (1 + data.length) } } ∧
        (∀ (k : Nat) (h : k < data.length), m.read s.dec.unknownDout (s.dec.dp.toNat + k) = data[k]) ∧
        (∀ a, a < s.dec.dp.toNat ∨ s.dec.dp.toNat + data.length ≤ a →
          m.read s.dec.unknownDout a = s.dec.doutByte a))

/-- 40_decoder.md R86, the whole rule; a count of 0 writes nothing and completes. -/
def Obligations.FillRunMeaning : Prop :=
  ∀ (count : Nat) (value : Byte) (s : State),
    (s.dec.dstCap.toNat < s.dec.dp.toNat + count →
      exec (.fill count value) s = .next (raise .dec .bufferOverrun s)) ∧
    (s.dec.dp.toNat + count ≤ s.dec.dstCap.toNat →
      ∃ m : Memory,
        exec (.fill count value) s = .next { s with dec := { s.dec with
          dout := m, dp := s.dec.dp + BitVec.ofNat 32 count, sp := s.dec.sp + 4 } } ∧
        (∀ k < count, m.read s.dec.unknownDout (s.dec.dp.toNat + k) = value) ∧
        (∀ a, a < s.dec.dp.toNat ∨ s.dec.dp.toNat + count ≤ a → m.read s.dec.unknownDout a = s.dec.doutByte a) ∧
        (count = 0 → m = s.dec.dout))

/-- 40_decoder.md R87, the whole rule: an absolute source, whatever the write cursor is. -/
def Obligations.MediumCopyMeaning : Prop :=
  ∀ (length offset : Nat) (s : State),
    (s.dec.dp.toNat ≤ offset → exec (.mcopy length offset) s = .next (raise .dec .unwrittenSource s)) ∧
    (offset < s.dec.dp.toNat → s.dec.dstCap.toNat < s.dec.dp.toNat + length →
      exec (.mcopy length offset) s = .next (raise .dec .bufferOverrun s)) ∧
    (offset < s.dec.dp.toNat → s.dec.dp.toNat + length ≤ s.dec.dstCap.toNat →
      ∃ m : Memory,
        exec (.mcopy length offset) s = .next { s with dec := { s.dec with
          dout := m, dp := s.dec.dp + BitVec.ofNat 32 length, sp := s.dec.sp + 3 } } ∧
        (∀ k < length, m.read s.dec.unknownDout (s.dec.dp.toNat + k) =
          s.dec.doutByte (offset + k % (s.dec.dp.toNat - offset))) ∧
        (∀ a, a < s.dec.dp.toNat ∨ s.dec.dp.toNat + length ≤ a → m.read s.dec.unknownDout a = s.dec.doutByte a))

/-- 40_decoder.md R88, the whole rule: a count of 0 does not check its offset, copies nothing and completes. -/
def Obligations.LongCopyMeaning : Prop :=
  ∀ (count offset : Nat) (s : State),
    (1 ≤ count → s.dec.dp.toNat ≤ offset →
      exec (.lcopy count offset) s = .next (raise .dec .unwrittenSource s)) ∧
    (count = 0 ∨ offset < s.dec.dp.toNat → s.dec.dstCap.toNat < s.dec.dp.toNat + count →
      exec (.lcopy count offset) s = .next (raise .dec .bufferOverrun s)) ∧
    (count = 0 ∨ offset < s.dec.dp.toNat → s.dec.dp.toNat + count ≤ s.dec.dstCap.toNat →
      ∃ m : Memory,
        exec (.lcopy count offset) s = .next { s with dec := { s.dec with
          dout := m, dp := s.dec.dp + BitVec.ofNat 32 count, sp := s.dec.sp + 5 } } ∧
        (∀ k < count, m.read s.dec.unknownDout (s.dec.dp.toNat + k) =
          s.dec.doutByte (offset + k % (s.dec.dp.toNat - offset))) ∧
        (∀ a, a < s.dec.dp.toNat ∨ s.dec.dp.toNat + count ≤ a → m.read s.dec.unknownDout a = s.dec.doutByte a) ∧
        (count = 0 → m = s.dec.dout))

/-- 40_decoder.md R84, the whole rule: the end marker completes in every state, and where a tag 0x80 stands at the stream
cursor a step runs it; `STATUS.DONE` is then 1, `STATUS.BUSY` 0, and the result is the bytes below `DEC.DP`. -/
def Obligations.EndMarkerMeaning : Prop :=
  ∀ s : State,
    exec .endMarker s = .next { s with dec := { s.dec with sp := s.dec.sp + 1, run := .done } } ∧
    (decoderMoves s → s.dec.sp.toNat < s.dec.srcLen.toNat → s.dec.dinByte s.dec.sp.toNat = 0x80#8 →
      ∃ t, step s = exec .endMarker (beforeDecoder s) ∧ step s = .next t ∧
        (statusWord t.dec.run t.dec.errCode).getLsbD 0 = false ∧
        (statusWord t.dec.run t.dec.errCode).getLsbD 1 = true ∧
        t.dec.dp = s.dec.dp ∧ t.dec.result = some (s.dec.dout.readList s.dec.unknownDout 0 s.dec.dp.toNat))

/-- The frame of all six opcodes: the other engine, everything outside the engines, the stream, the host-written registers
and every output byte not produced stay; a fault moves no cursor and writes no byte; only `END` and a fault touch the
flags. -/
def Obligations.OpcodesChangeNothingElse : Prop :=
  ∀ (i : Instr) (s t : State), exec i s = .next t →
    t.enc = s.enc ∧ t.buffers = s.buffers ∧ t.agenda = s.agenda ∧ t.hostData = s.hostData ∧
    t.busyReads = s.busyReads ∧
    t.dec.din = s.dec.din ∧ t.dec.srcLen = s.dec.srcLen ∧ t.dec.dstCap = s.dec.dstCap ∧
    t.dec.doutLost = s.dec.doutLost ∧ t.dec.trail = s.dec.trail ∧
    (∀ a, a < s.dec.dp.toNat ∨ s.dec.dp.toNat + producedCount i ≤ a → t.dec.doutByte a = s.dec.doutByte a) ∧
    (i = .endMarker → t.dec.dout = s.dec.dout ∧ t.dec.dp = s.dec.dp ∧ t.dec.errCode = s.dec.errCode) ∧
    (i ≠ .endMarker →
      (t.dec.run = s.dec.run ∧ t.dec.errCode = s.dec.errCode) ∨
      (t.dec.run = .err ∧ t.dec.sp = s.dec.sp ∧ t.dec.dp = s.dec.dp ∧ t.dec.dout = s.dec.dout))

/-! ### Faults (60_exceptions.md) -/

/-- 60_exceptions.md R158: the fault reported is the first in the rule's order (`instrFault` is items 3 to 5), and a step
with no condition holding does not fault. -/
def Obligations.FaultsAreReportedInPriorityOrder : Prop :=
  ∀ s : State, decoderMoves s →
    (s.dec.srcLen.toNat ≤ s.dec.sp.toNat → step s = .next (raise .dec .truncatedStream (beforeDecoder s))) ∧
    (s.dec.sp.toNat < s.dec.srcLen.toNat →
      s.dec.srcLen.toNat < s.dec.sp.toNat + instrLength (s.dec.dinByte s.dec.sp.toNat) →
      step s = .next (raise .dec .truncatedStream (beforeDecoder s))) ∧
    (s.dec.sp.toNat + instrLength (s.dec.dinByte s.dec.sp.toNat) ≤ s.dec.srcLen.toNat →
      ∃ i, s.dec.holdsInstr i ∧
        (∀ c, instrFault s.dec i = some c → step s = .next (raise .dec c (beforeDecoder s))) ∧
        (instrFault s.dec i = none → ∃ t, step s = .next t ∧ t.dec.errCode = s.dec.errCode ∧
          t.dec.run = if i = .endMarker then .done else .busy))

/-- 60_exceptions.md R160: when an engine's step faults, its code and state are written and nothing else, neither cursors
nor memory nor the other engine (the kept step boundary is the model's own); and an engine in `ERR` takes no step. -/
def Obligations.FaultEntryChangesOnlyCodeAndState : Prop :=
  ∀ s t : State, step s = .next t →
    (decoderMoves s → t.dec.run = .err → ∃ c : Cause,
      t = { beforeDecoder s with dec := { (beforeDecoder s).dec with errCode := causeCode c, run := .err } }) ∧
    (encoderMoves s → t.enc.run = .err → ∃ c : Cause,
      t = { beforeEncoder s with enc := { (beforeEncoder s).enc with errCode := causeCode c, run := .err } }) ∧
    (t.dec.run = .err → ¬ decoderMoves t) ∧ (t.enc.run = .err → ¬ encoderMoves t)

/-! ### The encoder's search (41_encoder_search.md) -/

/-- 41_encoder_search.md R101: `RunLen(p)` is the largest such run. -/
def Obligations.RunLenIsTheMaximalRun : Prop :=
  ∀ (e : Encoder) (p : Nat), p < e.srcLen.toNat →
    1 ≤ e.runLen p ∧ e.runLen p ≤ e.srcLen.toNat - p ∧
    (∀ i < e.runLen p, e.einByte (p + i) = e.einByte p) ∧
    (p + e.runLen p < e.srcLen.toNat → e.einByte (p + e.runLen p) ≠ e.einByte p)

/-- 41_encoder_search.md R104, the whole rule, with the tie-break of R106: `Len` is the largest agreement up to `Cap`,
`EffLen` its clauses, and `BestMatch` the longest candidate, the lowest of equals. -/
def Obligations.BestMatchIsTheLongestThenLowest : Prop :=
  ∀ (e : Encoder) (p : Nat), p < e.srcLen.toNat →
    (∀ c < p,
      e.matchLen c p ≤ min (e.srcLen.toNat - p) 65535 ∧
      (∀ i < e.matchLen c p, e.einByte (c + i) = e.einByte (p + i)) ∧
      (e.matchLen c p < min (e.srcLen.toNat - p) 65535 →
        e.einByte (c + e.matchLen c p) ≠ e.einByte (p + e.matchLen c p)) ∧
      (c ≤ 65535 → e.effLen c p = e.matchLen c p) ∧
      (65535 < c → p - c ≤ 4095 → e.effLen c p = min (e.matchLen c p) 10) ∧
      (65535 < c → 4095 < p - c → e.effLen c p = 0)) ∧
    (p = 0 → e.bestMatch p = (0, 0)) ∧
    (0 < p → (e.bestMatch p).2 < p ∧ e.effLen (e.bestMatch p).2 p = (e.bestMatch p).1 ∧
      ∀ c < p, e.effLen c p ≤ (e.bestMatch p).1 ∧ (c < (e.bestMatch p).2 → e.effLen c p < (e.bestMatch p).1))

/-- 41_encoder_search.md R108, the whole rule: the tier of an accepted match is the first that qualifies, and an absolute
tier is reached only by a start that a 16-bit offset can name. -/
def Obligations.TierIsTheFirstThatQualifies : Prop :=
  ∀ (e : Encoder) (p L m : Nat), p < e.srcLen.toNat → e.bestMatch p = (L, m) → 3 ≤ L →
    1 ≤ p - m ∧ p - m ≤ p ∧
    (L ≤ 10 → p - m ≤ 4095 → tierFor L m p = .scopy L (p - m)) ∧
    (10 < L ∨ 4095 < p - m → m ≤ 65535 ∧
      (L ≤ 64 → tierFor L m p = .mcopy L m) ∧
      (64 < L → tierFor L m p = .lcopy L m ∧ L ≤ 65535))

/-- 41_encoder_search.md R111, 70_reset_and_hazards.md R185: whatever the tier, the decoder standing at the same position
resolves the offset the encoder writes to the start of the match. -/
def Obligations.OffsetConventionsMatchTheDecoder : Prop :=
  ∀ (L m p : Nat), 3 ≤ L → m < p →
    (∀ length offset, tierFor L m p = .scopy length offset → length = L ∧ relativeSource p offset = .ok m) ∧
    (∀ length offset, tierFor L m p = .mcopy length offset → length = L ∧ absoluteSource p offset = .ok m) ∧
    (∀ count offset, tierFor L m p = .lcopy count offset → count = L ∧ longSource p count offset = .ok m)

/-- 41_encoder_search.md sections 3 and 4 (R110): what the encoder decides to emit is always encodable: fills of 65 or more,
and copies of bytes that agree, from an earlier start, that end within the source. -/
def Obligations.EncoderDecidesOnlyEncodableOpcodes : Prop :=
  ∀ (e : Encoder), e.sp.toNat ≤ e.srcLen.toNat →
    (∀ count value, e.decision = .fill count value →
      65 ≤ count ∧ e.sp.toNat + count ≤ e.srcLen.toNat ∧ (Instr.fill count value).wellFormed = true) ∧
    (∀ length start, e.decision = .copy length start →
      start < e.sp.toNat ∧ e.sp.toNat + length ≤ e.srcLen.toNat ∧
      (tierFor length start e.sp.toNat).wellFormed = true ∧
      (∀ i < length, e.einByte (start + i) = e.einByte (e.sp.toNat + i)))

/-! ### The encoder's emissions (42_encoder_emit.md) -/

/-- 42_encoder_emit.md R121, reached as 41_encoder_search.md R102 and R103 say: a run of 65 or more is covered by one
fill of at most 65535 bytes. -/
def Obligations.LongRunEmitsAFill : Prop :=
  ∀ s : State, encoderMoves s → s.enc.sp ≠ s.enc.srcLen → 65 ≤ s.enc.runLen s.enc.sp.toNat →
    (s.enc.dstCap.toNat < s.enc.dp.toNat + 4 → step s = .next (raise .enc .outputExhausted (beforeEncoder s))) ∧
    (s.enc.dp.toNat + 4 ≤ s.enc.dstCap.toNat →
      ∃ m : Memory,
        step s = .next { beforeEncoder s with enc := { (beforeEncoder s).enc with
          eout := m, dp := s.enc.dp + 4, runCnt := 0,
          sp := s.enc.sp + BitVec.ofNat 32 (min (s.enc.runLen s.enc.sp.toNat) 65535) } } ∧
        m.read s.enc.unknownEout s.enc.dp.toNat = 0xFE#8 ∧
        (m.read s.enc.unknownEout (s.enc.dp.toNat + 1)).toNat = min (s.enc.runLen s.enc.sp.toNat) 65535 % 256 ∧
        (m.read s.enc.unknownEout (s.enc.dp.toNat + 2)).toNat = min (s.enc.runLen s.enc.sp.toNat) 65535 / 256 ∧
        m.read s.enc.unknownEout (s.enc.dp.toNat + 3) = s.enc.einByte s.enc.sp.toNat ∧
        (∀ a, a < s.enc.dp.toNat ∨ s.enc.dp.toNat + 4 ≤ a → m.read s.enc.unknownEout a = s.enc.eoutByte a))

/-- 42_encoder_emit.md R122, reached as 41_encoder_search.md R107 says: an accepted match writes the opcode of its tier,
closes the open run and consumes its bytes. -/
def Obligations.AcceptedMatchEmitsACopy : Prop :=
  ∀ (s : State) (L m size : Nat), encoderMoves s → s.enc.sp.toNat < s.enc.srcLen.toNat →
    s.enc.runLen s.enc.sp.toNat < 65 → s.enc.bestMatch s.enc.sp.toNat = (L, m) → 3 ≤ L →
    size = (if L ≤ 10 ∧ s.enc.sp.toNat - m ≤ 4095 then 2 else if L ≤ 64 then 3 else 5) →
    (s.enc.dstCap.toNat < s.enc.dp.toNat + size →
      step s = .next (raise .enc .outputExhausted (beforeEncoder s))) ∧
    (s.enc.dp.toNat + size ≤ s.enc.dstCap.toNat →
      ∃ mem : Memory,
        step s = .next { beforeEncoder s with enc := { (beforeEncoder s).enc with
          eout := mem, runCnt := 0, sp := s.enc.sp + BitVec.ofNat 32 L, dp := s.enc.dp + BitVec.ofNat 32 size } } ∧
        (∀ a, a < s.enc.dp.toNat ∨ s.enc.dp.toNat + size ≤ a → mem.read s.enc.unknownEout a = s.enc.eoutByte a) ∧
        mem.readList s.enc.unknownEout s.enc.dp.toNat size =
          if L ≤ 10 ∧ s.enc.sp.toNat - m ≤ 4095 then
            [BitVec.ofNat 8 ((L - 3) * 16 + (s.enc.sp.toNat - m) / 256), BitVec.ofNat 8 ((s.enc.sp.toNat - m) % 256)]
          else if L ≤ 64 then [BitVec.ofNat 8 (0xC0 + (L - 3)), BitVec.ofNat 8 (m % 256), BitVec.ofNat 8 (m / 256)]
          else [0xFF#8, BitVec.ofNat 8 (L % 256), BitVec.ofNat 8 (L / 256), BitVec.ofNat 8 (m % 256),
            BitVec.ofNat 8 (m / 256)])

/-- 42_encoder_emit.md R124, the whole rule: a literal opens a run when none is open or it is full, and otherwise extends
it and rewrites its tag. The write of the tag comes last. -/
def Obligations.LiteralOpensOrExtendsTheRun : Prop :=
  ∀ (s : State), encoderMoves s → s.enc.sp ≠ s.enc.srcLen →
    s.enc.runLen s.enc.sp.toNat < 65 → (s.enc.bestMatch s.enc.sp.toNat).1 < 3 →
    (s.enc.runCnt = 0 ∨ s.enc.runCnt = 63 →
      (s.enc.dstCap.toNat < s.enc.dp.toNat + 2 → step s = .next (raise .enc .outputExhausted (beforeEncoder s))) ∧
      (s.enc.dp.toNat + 2 ≤ s.enc.dstCap.toNat →
        ∃ m : Memory,
          step s = .next { beforeEncoder s with enc := { (beforeEncoder s).enc with
            eout := m, runIdx := s.enc.dp, dp := s.enc.dp + 2, runCnt := 1, sp := s.enc.sp + 1 } } ∧
          m.read s.enc.unknownEout s.enc.dp.toNat = 0x81#8 ∧
          m.read s.enc.unknownEout (s.enc.dp.toNat + 1) = s.enc.einByte s.enc.sp.toNat ∧
          (∀ a, a < s.enc.dp.toNat ∨ s.enc.dp.toNat + 2 ≤ a → m.read s.enc.unknownEout a = s.enc.eoutByte a))) ∧
    (s.enc.runCnt ≠ 0 → s.enc.runCnt ≠ 63 →
      (s.enc.dstCap.toNat < s.enc.dp.toNat + 1 → step s = .next (raise .enc .outputExhausted (beforeEncoder s))) ∧
      (s.enc.dp.toNat + 1 ≤ s.enc.dstCap.toNat →
        ∃ m : Memory,
          step s = .next { beforeEncoder s with enc := { (beforeEncoder s).enc with
            eout := m, dp := s.enc.dp + 1, runCnt := s.enc.runCnt + 1, sp := s.enc.sp + 1 } } ∧
          (∀ a, m.read s.enc.unknownEout a =
            if a = s.enc.runIdx.toNat then BitVec.ofNat 8 (0x80 + (s.enc.runCnt.toNat + 1))
            else if a = s.enc.dp.toNat then s.enc.einByte s.enc.sp.toNat
            else s.enc.eoutByte a)))

/-- 42_encoder_emit.md R128, the whole rule: at the end of the source the stream gets its end marker and the launch is
`DONE`. -/
def Obligations.ExhaustedSourceEmitsTheEnd : Prop :=
  ∀ (s : State), encoderMoves s → s.enc.sp = s.enc.srcLen →
    (s.enc.dstCap.toNat < s.enc.dp.toNat + 1 → step s = .next (raise .enc .outputExhausted (beforeEncoder s))) ∧
    (s.enc.dp.toNat + 1 ≤ s.enc.dstCap.toNat →
      ∃ m : Memory,
        step s = .next { beforeEncoder s with enc := { (beforeEncoder s).enc with
          eout := m, dp := s.enc.dp + 1, runCnt := 0, run := .done } } ∧
        m.read s.enc.unknownEout s.enc.dp.toNat = 0x80#8 ∧
        (∀ a ≠ s.enc.dp.toNat, m.read s.enc.unknownEout a = s.enc.eoutByte a))

/-- 42_encoder_emit.md R126, 60_exceptions.md R155: a step of `ENC` faults exactly when its emission would pass `DST_CAP`,
with `OutputExhausted`, leaving `EOUT`, the cursors and the run record as they were. -/
def Obligations.EncoderFaultsExactlyWhenOutputIsFull : Prop :=
  ∀ s t : State, encoderMoves s → step s = .next t →
    (t.enc.run = .err ↔ s.enc.dstCap.toNat < s.enc.dp.toNat + (match s.enc.decision with
      | .finish => 1
      | .fill _ _ => 4
      | .copy length start => (tierFor length start s.enc.sp.toNat).size
      | .literal _ => if s.enc.runCnt = 0 ∨ s.enc.runCnt = 63 then 2 else 1)) ∧
    (t.enc.run = .err → t.enc.errCode = 5 ∧ t.enc.eout = s.enc.eout ∧ t.enc.sp = s.enc.sp ∧ t.enc.dp = s.enc.dp ∧
      t.enc.runCnt = s.enc.runCnt ∧ t.enc.runIdx = s.enc.runIdx)

/-! ### Whole launches and the whole machine -/

/-- The machine's invariant holds after reset. -/
def Obligations.ResetMeetsTheInvariant : Prop := State.reset.Inv

/-- Every step, whoever's, from every state that meets the invariant, leads to one that meets it: the four spaces stay in
canonical form, the cursors within their bounds, the bytes below the write cursors written, the open literal run as
10_state.md R22 says, the codes as R25 and 60_exceptions.md R150 say, and `DEC`'s kept step boundaries (log entry 3)
hold no run record. -/
def Obligations.EveryStepKeepsTheInvariant : Prop :=
  ∀ s t : State, s.Inv → step s = .next t → t.Inv

/-- 40_decoder.md R90: a launch of `DEC` ends, within one step for each byte of stream that is left and one more, in `DONE`
or `ERR`. That the machine's steps are `DEC`'s until then is the model's choice (log entry 5): the agenda is empty, and
`DEC` then moves before a `BUSY` `ENC`. -/
def Obligations.DecoderLaunchTerminates : Prop :=
  ∀ s : State, s.agenda = [] → s.dec.run = .busy →
    ∃ (k : Nat) (t : State), k ≤ s.dec.srcLen.toNat - s.dec.sp.toNat + 1 ∧ core.run k s = .next t ∧
      ((t.dec.run = .done ∧ k ≤ s.dec.srcLen.toNat - s.dec.sp.toNat) ∨ t.dec.run = .err)

/-- 41_encoder_search.md R113: a launch of `ENC` ends, within one step for each source byte that is left and one more, in
`DONE`, or in `ERR` with `OutputExhausted`. That the machine's steps are `ENC`'s until then is the model's choice (log
entry 5): the agenda is empty and `DEC` is not `BUSY`. -/
def Obligations.EncoderLaunchTerminates : Prop :=
  ∀ s : State, s.agenda = [] → s.dec.run ≠ .busy → s.enc.run = .busy → s.enc.sp.toNat ≤ s.enc.srcLen.toNat →
    ∃ (k : Nat) (t : State), k ≤ s.enc.srcLen.toNat - s.enc.sp.toNat + 1 ∧ core.run k s = .next t ∧
      (t.enc.run = .done ∨ (t.enc.run = .err ∧ t.enc.errCode = 5))

/-- 41_encoder_search.md R114: for every source, if `ENC` ends in `DONE` with some stream, `DEC` launched on that stream,
with any capacity of at least the source's length and any other contents of the machine, ends in `DONE` with the source. Both launches run
with an empty agenda, the encoder's with `DEC` not `BUSY`, the decoder's with `DEC` moving first: that order is the
model's choice (log entry 5). -/
def Obligations.DecodingTheEncodedStreamGivesTheSource : Prop :=
  ∀ (s s' t : State) (k : Nat),
    s.agenda = [] → s.dec.run ≠ .busy → s.enc.fresh → core.run k s = .next s' → s'.enc.run = .done →
    t.agenda = [] → t.dec.fresh → some t.dec.stream = s'.enc.result →
    s.enc.srcLen.toNat ≤ t.dec.dstCap.toNat →
    ∃ (j : Nat) (t' : State), core.run j t = .next t' ∧ t'.dec.run = .done ∧
      t'.dec.dp = s.enc.srcLen ∧ t'.dec.result = some s.enc.source

/-- 41_encoder_search.md R115: what `ENC` has emitted when it ends in `DONE` is the encoding of a canonical stream and one
`END`. Only launches with an empty agenda and `DEC` not `BUSY` are covered, an order of moves that is the model's choice
(log entry 5). -/
def Obligations.EncodedStreamsAreCanonical : Prop :=
  ∀ (s s' : State) (k : Nat),
    s.agenda = [] → s.dec.run ≠ .busy → s.enc.fresh → core.run k s = .next s' → s'.enc.run = .done →
    ∃ is : List Instr, canonicalStream is ∧ s'.enc.result = some ((is ++ [Instr.endMarker]).flatMap encode) ∧
      producedBy is = s.enc.srcLen.toNat

/-- 42_encoder_emit.md R127: with `DST_CAP` at least `n + ceil(n/4) + 1` no launch of `ENC` exhausts its output. Only
launches with an empty agenda and `DEC` not `BUSY` are covered, an order of moves that is the model's choice (log entry
5). -/
def Obligations.SufficientCapacityNeverExhausts : Prop :=
  ∀ s : State, s.agenda = [] → s.dec.run ≠ .busy → s.enc.fresh →
    s.enc.srcLen.toNat + (s.enc.srcLen.toNat + 3) / 4 + 1 ≤ s.enc.dstCap.toNat →
    ∃ (k : Nat) (t : State), core.run k s = .next t ∧ t.enc.run = .done ∧
      t.enc.dp.toNat ≤ s.enc.srcLen.toNat + (s.enc.srcLen.toNat + 3) / 4 + 1

/-- 10_state.md R28, 40_decoder.md R91: what a step of `DEC` does depends on its registers, its stream and the bytes this
launch has produced, and not on the other contents of `DOUT` nor on anything else of the machine. -/
def Obligations.DecoderIgnoresPriorOutputContents : Prop :=
  ∀ s s' t : State, decoderMoves s → decoderMoves s' → s.dec.SameLaunch s'.dec → step s = .next t →
    ∃ t', step s' = .next t' ∧ t.dec.SameLaunch t'.dec ∧ t.dec.result = t'.dec.result

/-- 10_state.md R28, 41_encoder_search.md R113: the same of `ENC`; `EOUT` is never read. -/
def Obligations.EncoderIgnoresPriorOutputContents : Prop :=
  ∀ s s' t : State, encoderMoves s → encoderMoves s' → s.enc.SameLaunch s'.enc →
    s.enc.sp.toNat ≤ s.enc.srcLen.toNat → step s = .next t →
    ∃ t', step s' = .next t' ∧ t.enc.SameLaunch t'.enc ∧ t.enc.result = t'.enc.result

/-- 10_state.md R28, 70_reset_and_hazards.md R181: two launches with the same `SRC_LEN`, `DST_CAP` and input contents end,
after the same number of steps, in the same state, registers and result, whatever else the two machines hold and whatever
came before. That the number is the same rests on the model's choice of who moves when the agenda is empty (log entry 5). -/
def Obligations.ALaunchIsAFunctionOfItsInputs : Prop :=
  ∀ s s' : State, s.agenda = [] → s'.agenda = [] →
    (s.dec.fresh → s'.dec.fresh → s.dec.srcLen = s'.dec.srcLen → s.dec.dstCap = s'.dec.dstCap →
      s.dec.stream = s'.dec.stream →
      ∃ (k : Nat) (t t' : State), core.run k s = .next t ∧ core.run k s' = .next t' ∧
        t.dec.run ≠ .busy ∧ t.dec.run = t'.dec.run ∧ t.dec.errCode = t'.dec.errCode ∧ t.dec.sp = t'.dec.sp ∧
        t.dec.dp = t'.dec.dp ∧ t.dec.result = t'.dec.result) ∧
    (s.dec.run ≠ .busy → s'.dec.run ≠ .busy → s.enc.fresh → s'.enc.fresh → s.enc.srcLen = s'.enc.srcLen →
      s.enc.dstCap = s'.enc.dstCap → s.enc.source = s'.enc.source →
      ∃ (k : Nat) (t t' : State), core.run k s = .next t ∧ core.run k s' = .next t' ∧
        t.enc.run ≠ .busy ∧ t.enc.run = t'.enc.run ∧ t.enc.errCode = t'.enc.errCode ∧ t.enc.sp = t'.enc.sp ∧
        t.enc.dp = t'.enc.dp ∧ t.enc.runCnt = t'.enc.runCnt ∧ t.enc.result = t'.enc.result)

/-- 60_exceptions.md R164: every interleaving of the same turns of the two engines gives the same state. -/
def Obligations.EveryInterleavingGivesTheSameState : Prop :=
  ∀ (s : State) (turns turns' : List Engine) (later : List Action), turns.Perm turns' →
    ∃ t, core.run turns.length { s with agenda := turns.map Action.engine ++ later } = .next t ∧
      core.run turns'.length { s with agenda := turns'.map Action.engine ++ later } = .next t

/-- 10_state.md R24's transitions: "There is no other transition". -/
def Obligations.RunStatesChangeOnlyAsTheRuleSays : Prop :=
  ∀ (s t : State) (e : Engine), step s = .next t → t.runOf e ≠ s.runOf e →
    (s.runOf e ≠ .busy ∧ t.runOf e = .busy ∧
      ∃ v : Word, nextTurn s = .host (.writeReg e 0x00 v) ∧ v.getLsbD 0 = true) ∨
    (s.runOf e = .busy ∧ (t.runOf e = .done ∨ t.runOf e = .err) ∧
      nextTurn s = (match e with | .dec => Turn.decoder | .enc => Turn.encoder)) ∨
    (t.runOf e = .idle ∧ nextTurn s = .host .assertReset)

/-- 10_state.md R11: the input spaces and the two host-written registers are parameters of a launch; an engine never
writes them. (That it writes nothing of the other engine either is `AStepOfOneEngineLeavesTheOther`.) -/
def Obligations.EnginesNeverWriteTheirParameters : Prop :=
  ∀ s t : State, step s = .next t →
    (decoderMoves s → t.dec.din = s.dec.din ∧ t.dec.srcLen = s.dec.srcLen ∧ t.dec.dstCap = s.dec.dstCap) ∧
    (encoderMoves s → t.enc.ein = s.enc.ein ∧ t.enc.srcLen = s.enc.srcLen ∧ t.enc.dstCap = s.enc.dstCap)

/-- 60_exceptions.md R164, 10_state.md R10, 70_reset_and_hazards.md R180: a step of one engine leaves the other as it is;
an engine that is not `BUSY` is changed by a move of the host or the platform at most; and where nobody can move (an agenda
entry that names an engine which is not `BUSY`, or an empty agenda and no engine `BUSY`; log entry 5) the step completes and
leaves everything but the agenda as it is. That the other engine's spaces are as they were also where they share storage is
the model's choice (log entry 15). -/
def Obligations.AStepOfOneEngineLeavesTheOther : Prop :=
  ∀ s : State,
    (∀ t : State, step s = .next t → (decoderMoves s → t.enc = s.enc) ∧ (encoderMoves s → t.dec = s.dec) ∧
      ((∀ m, nextTurn s ≠ .host m) → (∀ b, nextTurn s ≠ .platform b) →
        (s.dec.run ≠ .busy → t.dec = s.dec) ∧ (s.enc.run ≠ .busy → t.enc = s.enc))) ∧
    (∀ (e : Engine) (later : List Action), s.agenda = .engine e :: later → s.runOf e ≠ .busy →
      step s = .next { s with agenda := later }) ∧
    (s.agenda = [] → s.dec.run ≠ .busy → s.enc.run ≠ .busy → step s = .next s)

/-! ### The host (10_state.md R26, 43_host_interface.md, 70_reset_and_hazards.md) -/

/-- 43_host_interface.md R141, with the map of 10_state.md R26: a register read answers the register's current value, bit by
bit for `STATUS`, except that a cursor of a `BUSY` engine answers its value at this or an earlier step boundary of the launch
(a free choice); it changes nothing of the engines. `RUN_IDX` and `RUN_CNT` read 0 in the `DEC` block, also while it is
`BUSY`, in every state that meets the invariant of `DEC`. -/
def Obligations.RegisterReadsFollowTheMap : Prop :=
  ∀ (s : State) (e : Engine) (offset : Nat), nextTurn s = .host (.readReg e offset) →
    ∃ (t : State) (c : Cursors), step s = .next t ∧ c ∈ s.cursorsOf e :: s.trailOf e ∧
      (s.runOf e ≠ .busy → c = s.cursorsOf e) ∧
      t.dec = s.dec ∧ t.enc = s.enc ∧ t.buffers = s.buffers ∧ t.agenda = s.agenda.tail ∧
      (offset = 0x04 → t.hostData.toNat = (if s.runOf e = .busy then 1 else 0) + (if s.runOf e = .done then 2 else 0) +
        (if s.runOf e = .err then 4 else 0) + 16 * (s.errCodeOf e).toNat) ∧
      (offset = 0x08 → t.hostData = s.srcLenOf e) ∧
      (offset = 0x0C → t.hostData = s.dstCapOf e) ∧
      (offset = 0x10 → t.hostData = c.sp) ∧
      (offset = 0x14 → t.hostData = c.dp) ∧
      (offset = 0x18 → t.hostData = c.runIdx) ∧
      (offset = 0x1C → t.hostData.toNat = c.runCnt.toNat) ∧
      (s.dec.Inv → e = .dec → offset = 0x18 ∨ offset = 0x1C → t.hostData = 0) ∧
      (offset ∉ [0x04, 0x08, 0x0C, 0x10, 0x14, 0x18, 0x1C] → t.hostData = 0)

/-- 43_host_interface.md R142: what `START` writes and leaves (the emptied trail is the model's own), where the launch
premises of R146 hold. -/
def Obligations.StartBeginsALaunch : Prop :=
  ∀ (s : State) (v : Word), v.getLsbD 0 = true →
    (nextTurn s = .host (.writeReg .dec 0x00 v) → s.dec.run ≠ .busy → launchPremises s .dec = true →
      step s = .next { takeEntry s with dec := { s.dec with sp := 0, dp := 0, errCode := 0, run := .busy, trail := [] } }) ∧
    (nextTurn s = .host (.writeReg .enc 0x00 v) → s.enc.run ≠ .busy → launchPremises s .enc = true →
      step s = .next { takeEntry s with enc := { s.enc with
        sp := 0, dp := 0, errCode := 0, runCnt := 0, run := .busy, trail := [] } })

/-- 43_host_interface.md R143: register writes while `BUSY`, and writes to read-only registers and unlisted offsets in
every state, change nothing and raise nothing. -/
def Obligations.IgnoredWritesChangeNothing : Prop :=
  ∀ (s : State) (e : Engine) (offset : Nat) (v : Word), nextTurn s = .host (.writeReg e offset v) →
    (s.runOf e = .busy ∨ offset ∉ [0x00, 0x08, 0x0C] ∨ (offset = 0x00 ∧ v.getLsbD 0 = false)) →
    step s = .next (takeEntry s)

/-- 43_host_interface.md R144: `SRC_LEN` and `DST_CAP` take the written value while the engine is not `BUSY`, and nothing
else changes. -/
def Obligations.LengthAndCapacityWritesAreStored : Prop :=
  ∀ (s : State) (v : Word),
    (s.dec.run ≠ .busy →
      (nextTurn s = .host (.writeReg .dec 0x08 v) → step s = .next { takeEntry s with dec := { s.dec with srcLen := v } }) ∧
      (nextTurn s = .host (.writeReg .dec 0x0C v) → step s = .next { takeEntry s with dec := { s.dec with dstCap := v } })) ∧
    (s.enc.run ≠ .busy →
      (nextTurn s = .host (.writeReg .enc 0x08 v) → step s = .next { takeEntry s with enc := { s.enc with srcLen := v } }) ∧
      (nextTurn s = .host (.writeReg .enc 0x0C v) → step s = .next { takeEntry s with enc := { s.enc with dstCap := v } }))

/-- 43_host_interface.md R140: a byte the host writes to a space whose engine is not `BUSY` is there afterwards and every
other byte of every space is as before. That this holds at every index below 2^32 and whatever storage the spaces share is
the model's choice (log entries 6 and 15). -/
def Obligations.HostByteWritesReachTheirSpace : Prop :=
  ∀ (s : State) (space : Space) (a : Nat) (v : Byte), nextTurn s = .host (.writeByte space a v) → a < 4294967296 →
    s.runOf (spaceEngine space) ≠ .busy →
    ∃ t, step s = .next t ∧ t.byteOf space a = v ∧
      (∀ (space' : Space) (a' : Nat), space' ≠ space ∨ a' ≠ a → t.byteOf space' a' = s.byteOf space' a') ∧
      (∀ e : Engine, t.cursorsOf e = s.cursorsOf e ∧ t.runOf e = s.runOf e ∧ t.srcLenOf e = s.srcLenOf e ∧
        t.dstCapOf e = s.dstCapOf e ∧ t.errCodeOf e = s.errCodeOf e)

/-- 43_host_interface.md R140 and R145: a byte the host reads of a space whose engine is not `BUSY` is that byte, and the read
changes nothing but the host's answer (log entry 4); read of an output space below `DP` after `DONE` it is that byte of the
launch's result, whose length is `DP`, and in `ERR` there is no result. That every index below 2^32 can be read, whatever
storage stands behind it, is the model's choice (log entry 6). -/
def Obligations.HostByteReadsAnswerTheByte : Prop :=
  ∀ (s : State) (space : Space) (a : Nat), nextTurn s = .host (.readByte space a) → a < 4294967296 →
    s.runOf (spaceEngine space) ≠ .busy →
    ∃ b : Byte, b = s.byteOf space a ∧ step s = .next { takeEntry s with hostData := b.setWidth 32 } ∧
      (space = .dout → s.dec.run = .done → ∃ r, s.dec.result = some r ∧ r.length = s.dec.dp.toNat ∧
        (a < s.dec.dp.toNat → r[a]? = some b)) ∧
      (space = .eout → s.enc.run = .done → ∃ r, s.enc.result = some r ∧ r.length = s.enc.dp.toNat ∧
        (a < s.enc.dp.toNat → r[a]? = some b)) ∧
      (space = .dout → s.dec.run = .err → s.dec.result = none) ∧
      (space = .eout → s.enc.run = .err → s.enc.result = none)

/-- 10_state.md R21, 20_memory.md R50, 93_implementation_defined.md U6 and U8: where the model stops, and with which
name: a launch whose premises are broken, a host access to an owned space, an index no space has, buffers moved under a
`BUSY` engine. The names of the stops are the model's. -/
def Obligations.BrokenPremisesStopByName : Prop :=
  ∀ s : State,
    (∀ (e : Engine) (v : Word), nextTurn s = .host (.writeReg e 0x00 v) → v.getLsbD 0 = true → s.runOf e ≠ .busy →
      launchPremises s e = false → step s = .refused (.launchPremiseBroken e)) ∧
    (∀ (space : Space) (a : Nat) (v : Byte), s.runOf (spaceEngine space) = .busy → a < 4294967296 →
      (nextTurn s = .host (.readByte space a) ∨ nextTurn s = .host (.writeByte space a v)) →
      step s = .refused (.spaceOwnedByEngine space)) ∧
    (∀ (space : Space) (a : Nat) (v : Byte), 4294967296 ≤ a →
      (nextTurn s = .host (.readByte space a) ∨ nextTurn s = .host (.writeByte space a v)) →
      step s = .fault (.indexOutsideSpace space a)) ∧
    (∀ b : Buffers, nextTurn s = .platform b → s.dec.run = .busy ∨ s.enc.run = .busy →
      step s = .refused .buffersMovedWhileBusy)

/-- 70_reset_and_hazards.md R180, with 93_implementation_defined.md U9: reset gives every register of both engines its
value of R29 and touches no memory, except that an abandoned launch's output space is unknown below its `DST_CAP` (nothing
is claimed of those bytes). -/
def Obligations.AssertedResetSetsEveryRegister : Prop :=
  ∀ s : State, nextTurn s = .host .assertReset → s.dec.dout.wf = true → s.enc.eout.wf = true →
    ∃ t, step s = .next t ∧
      (∀ e : Engine, t.runOf e = .idle ∧ t.errCodeOf e = 0 ∧ t.srcLenOf e = 0 ∧ t.dstCapOf e = 0 ∧
        t.cursorsOf e = ⟨0, 0, 0, 0⟩) ∧
      (∀ a, t.dec.dinByte a = s.dec.dinByte a ∧ t.enc.einByte a = s.enc.einByte a) ∧
      (∀ a, s.dec.run ≠ .busy ∨ s.dec.dstCap.toNat ≤ a → t.dec.doutByte a = s.dec.doutByte a) ∧
      (∀ a, s.enc.run ≠ .busy ∨ s.enc.dstCap.toNat ≤ a → t.enc.eoutByte a = s.enc.eoutByte a)

/-- 10_state.md R29: the state after reset; and every register of both blocks then reads 0 (95_test_vectors.md V-H1). -/
def Obligations.ResetLeavesEveryRegisterZero : Prop :=
  (∀ e : Engine, State.reset.runOf e = .idle ∧ State.reset.errCodeOf e = 0 ∧ State.reset.srcLenOf e = 0 ∧
    State.reset.dstCapOf e = 0 ∧ State.reset.cursorsOf e = ⟨0, 0, 0, 0⟩) ∧
  ∀ (e : Engine) (offset : Nat), (hostReadReg e offset State.reset).hostData = 0

/-- 70_reset_and_hazards.md sections 1 and 2 (R181): what `START` leaves depends on nothing of the engine but `SRC_LEN`,
`DST_CAP` and the input contents. -/
def Obligations.LaunchesForgetThePast : Prop :=
  ∀ s s' : State,
    (s.dec.srcLen = s'.dec.srcLen → s.dec.dstCap = s'.dec.dstCap → s.dec.stream = s'.dec.stream →
      (launch .dec s).dec.SameLaunch (launch .dec s').dec) ∧
    (s.enc.srcLen = s'.enc.srcLen → s.enc.dstCap = s'.enc.dstCap → s.enc.source = s'.enc.source →
      (launch .enc s).enc.SameLaunch (launch .enc s').enc)

/-- The host's view of one opcode-table word (log entry 7): placed where the next step fetches, the word runs at once. -/
def Obligations.APlacedWordRunsAtTheNextStep : Prop :=
  ∀ (s : State) (nbits w : Nat) (i : Instr), decodeTableWord nbits w = some i →
    decoderMoves (s.withFetchWord nbits w) ∧
      step (s.withFetchWord nbits w) = exec i (beforeDecoder (s.withFetchWord nbits w)) ∧
      (beforeDecoder (s.withFetchWord nbits w)).agenda = s.agenda
end

