-- ==== Sys2Proof/Laws/Decode.lean ====
section
/-! SUPPORT. The bit-field helpers of the decoder and encoder as arithmetic, and the families of tag bytes by range. -/

namespace Sys2Proof

theorem low6_eq (t : Byte) : low6 t = t.toNat % 64 := Nat.and_two_pow_sub_one_eq_mod t.toNat 6

theorem low6_lt (t : Byte) : low6 t < 64 := by rw [low6_eq]; omega

theorem or_shift_eq_add (a b : Nat) (h : a < 256) : a ||| (b <<< 8) = a + 256 * b := by
  rw [Nat.or_comm, ← Nat.shiftLeft_add_eq_or_of_lt h, Nat.shiftLeft_eq]; omega

theorem le16_eq (lo hi : Byte) : le16 lo hi = lo.toNat + 256 * hi.toNat := or_shift_eq_add _ _ lo.isLt

theorem le16_lt (lo hi : Byte) : le16 lo hi < 65536 := by rw [le16_eq]; omega

theorem shortOffset_eq (t b : Byte) : shortOffset t b = b.toNat + 256 * (t.toNat % 16) := by
  rw [shortOffset, Nat.or_comm, show t.toNat &&& 0x0F = t.toNat % 16 from Nat.and_two_pow_sub_one_eq_mod _ 4,
    or_shift_eq_add _ _ b.isLt]

theorem toNat_loByte (v : Nat) : (loByte v).toNat = v % 256 := by
  rw [loByte, show v &&& 0xFF = v % 256 from Nat.and_two_pow_sub_one_eq_mod _ 8]; simp

theorem toNat_hiByte (v : Nat) : (hiByte v).toNat = v / 256 % 256 := by
  simp [hiByte, Nat.shiftRight_eq_div_pow]

/-- The tag ranges of 30_encoding.md R63 and R64. -/
theorem familyOf_eq (t : Byte) : familyOf t =
    if t.toNat < 0x80 then .scopy else if t.toNat = 0x80 then .endMarker else if t.toNat < 0xC0 then .lit
    else if t.toNat < 0xFE then .mcopy else if t.toNat = 0xFE then .fill else .lcopy := by
  revert t; decide

/-- The instruction length by tag range (30_encoding.md R63). -/
theorem instrLength_pos (t : Byte) : 1 ≤ instrLength t := by
  unfold instrLength; split <;> omega

theorem instrLength_le (t : Byte) : instrLength t ≤ Config.longestInstr := by
  have := low6_lt t
  unfold instrLength
  split <;> simp; omega

/-! ### The operand ranges of 30_encoding.md R66 as propositions -/

@[simp] theorem wellFormed_scopy (length offset : Nat) :
    (Instr.scopy length offset).wellFormed = true ↔ 3 ≤ length ∧ length ≤ 10 ∧ offset ≤ 4095 := by
  simp [Instr.wellFormed, and_assoc]

@[simp] theorem wellFormed_endMarker : Instr.endMarker.wellFormed = true := rfl

@[simp] theorem wellFormed_lit (data : List Byte) :
    (Instr.lit data).wellFormed = true ↔ 1 ≤ data.length ∧ data.length ≤ 63 := by
  simp only [Instr.wellFormed, Bool.and_eq_true, decide_eq_true_eq]

@[simp] theorem wellFormed_fill (count : Nat) (value : Byte) :
    (Instr.fill count value).wellFormed = true ↔ count ≤ 65535 := by
  simp [Instr.wellFormed]

@[simp] theorem wellFormed_mcopy (length offset : Nat) :
    (Instr.mcopy length offset).wellFormed = true ↔ 3 ≤ length ∧ length ≤ 64 ∧ offset ≤ 65535 := by
  simp [Instr.wellFormed, and_assoc]

@[simp] theorem wellFormed_lcopy (count offset : Nat) :
    (Instr.lcopy count offset).wellFormed = true ↔ count ≤ 65535 ∧ offset ≤ 65535 := by
  simp [Instr.wellFormed]

/-! ### The bytes of each tag -/

theorem toNat_tag_scopy {length offset : Nat} (h₁ : 3 ≤ length) (h₂ : length ≤ 10) (h₃ : offset ≤ 4095) :
    (BitVec.ofNat 8 (((length - 3) <<< 4) ||| (offset >>> 8))).toNat = 16 * (length - 3) + offset / 256 := by
  have h : offset >>> 8 = offset / 256 := Nat.shiftRight_eq_div_pow offset 8
  rw [h, ← Nat.shiftLeft_add_eq_or_of_lt (by omega : offset / 256 < 2 ^ 4), Nat.shiftLeft_eq]
  simp; omega

theorem toNat_tag_lit {n : Nat} (h : n ≤ 63) : (BitVec.ofNat 8 (0x80 ||| n)).toNat = 128 + n := by
  rw [show (0x80 : Nat) = 1 <<< 7 from rfl, ← Nat.shiftLeft_add_eq_or_of_lt (by omega : n < 2 ^ 7)]
  simp; omega

theorem toNat_tag_mcopy {n : Nat} (h : n ≤ 61) : (BitVec.ofNat 8 (0xC0 ||| n)).toNat = 192 + n := by
  rw [show (0xC0 : Nat) = 3 <<< 6 from rfl, ← Nat.shiftLeft_add_eq_or_of_lt (by omega : n < 2 ^ 6)]
  simp; omega

/-- The encoder writes as many bytes as the instruction occupies (30_encoding.md R63). -/
theorem encode_length (i : Instr) : (encode i).length = i.size := by
  cases i <;> simp [encode, Instr.size]; omega

/-- The decoder refuses nothing but bytes that are not there (30_encoding.md R65). -/
theorem decode_ok (t : Byte) (rest : List Byte) (h : instrLength t ≤ rest.length + 1) :
    ∃ i r, decode (t :: rest) = .ok (i, r) := by
  unfold decode instrLength at *
  cases hf : familyOf t <;> simp only [hf] at h ⊢
  · obtain _ | ⟨b1, r⟩ := rest <;> simp at h ⊢
  · exact ⟨_, _, rfl⟩
  · rw [if_pos (by omega)]; exact ⟨_, _, rfl⟩
  · obtain _ | ⟨b1, _ | ⟨b2, _ | ⟨b3, r⟩⟩⟩ := rest <;> simp at h ⊢
  · obtain _ | ⟨b1, _ | ⟨b2, _ | ⟨b3, _ | ⟨b4, r⟩⟩⟩⟩ := rest <;> simp at h ⊢
  · obtain _ | ⟨b1, _ | ⟨b2, r⟩⟩ := rest <;> simp at h ⊢

end Sys2Proof
end

