-- ==== Sys2Proof/Laws/Memory.lean ====
section
/-! SUPPORT. The laws of one space: what a read sees after each kind of write, and that every operation keeps the
canonical form. -/

namespace Sys2Proof.Machine

@[simp] theorem Memory.lookup_nil (a : Nat) : Memory.lookup [] a = none := rfl

@[simp] theorem Memory.lookup_write_same (m : Memory) (a : Nat) (v : Byte) : (m.write a v).lookup a = some v := by
  induction m with
  | nil => simp [Memory.write, Memory.lookup]
  | cons c rest ih =>
    obtain ⟨b, w⟩ := c
    simp only [Memory.write]
    split_ifs with h₁ h₂
    · simp [Memory.lookup]
    · simp [Memory.lookup]
    · simp [Memory.lookup, h₁, h₂, ih]

theorem Memory.lookup_write_other (m : Memory) {a c : Nat} (v : Byte) (h : c ≠ a) :
    (m.write a v).lookup c = m.lookup c := by
  induction m with
  | nil => simp [Memory.write, Memory.lookup, h]
  | cons d rest ih =>
    obtain ⟨b, w⟩ := d
    simp only [Memory.write]
    split_ifs with h₁ h₂
    · simp only [Memory.lookup, h, if_false]
      split_ifs <;> first | rfl | omega
    · subst h₂; simp [Memory.lookup, h]
    · simp only [Memory.lookup, ih]

theorem Memory.lookup_write (m : Memory) (a c : Nat) (v : Byte) :
    (m.write a v).lookup c = if c = a then some v else m.lookup c := by
  split_ifs with h
  · subst h; simp
  · exact m.lookup_write_other v h

theorem Memory.lookup_writeList (m : Memory) (a : Nat) (vs : List Byte) (c : Nat) :
    (m.writeList a vs).lookup c = if a ≤ c ∧ c < a + vs.length then vs[c - a]? else m.lookup c := by
  induction vs generalizing m a with
  | nil => simp [Memory.writeList]
  | cons v vs ih =>
    simp only [Memory.writeList, ih, Memory.lookup_write, List.length_cons]
    rcases Nat.lt_trichotomy c a with h | h | h
    · rw [if_neg (by omega), if_neg (by omega), if_neg (by omega)]
    · subst h
      rw [if_neg (by omega), if_pos rfl, if_pos (by omega)]
      simp
    · by_cases h₂ : c < a + (vs.length + 1)
      · rw [if_pos (by omega), if_pos (by omega)]
        rw [show c - a = (c - (a + 1)) + 1 by omega]
        simp
      · rw [if_neg (by omega), if_neg (by omega), if_neg (by omega)]

/-- A copy changes only the `n` indices from `dst` on. -/
theorem Memory.lookup_copyForward_outside (unknown : Nat → Byte) (m : Memory) (src dst n c : Nat)
    (h : c < dst ∨ dst + n ≤ c) : (m.copyForward unknown src dst n).lookup c = m.lookup c := by
  induction n generalizing m src dst with
  | zero => rfl
  | succ k ih =>
    rw [Memory.copyForward, ih _ _ _ (by omega), Memory.lookup_write_other]
    omega

/-- Every index a copy writes is known after it. -/
theorem Memory.lookup_copyForward_inside (unknown : Nat → Byte) (m : Memory) (src dst n c : Nat)
    (h : dst ≤ c) (h' : c < dst + n) : ∃ v, (m.copyForward unknown src dst n).lookup c = some v := by
  induction n generalizing m src dst with
  | zero => omega
  | succ k ih =>
    rw [Memory.copyForward]
    rcases Nat.eq_or_lt_of_le h with rfl | h
    · exact ⟨_, by rw [Memory.lookup_copyForward_outside _ _ _ _ _ _ (by omega), Memory.lookup_write_same]⟩
    · exact ih _ _ _ h (by omega)

@[simp] theorem Memory.read_write_same (unknown : Nat → Byte) (m : Memory) (a : Nat) (v : Byte) :
    (m.write a v).read unknown a = v := by simp [Memory.read]

theorem Memory.read_write_other (unknown : Nat → Byte) (m : Memory) {a c : Nat} (v : Byte) (h : c ≠ a) :
    (m.write a v).read unknown c = m.read unknown c := by simp [Memory.read, m.lookup_write_other v h]

theorem Memory.read_of_lookup (unknown : Nat → Byte) {m : Memory} {a : Nat} {v : Byte} (h : m.lookup a = some v) :
    m.read unknown a = v := by simp [Memory.read, h]

theorem Memory.read_writeList (unknown : Nat → Byte) (m : Memory) (a : Nat) (vs : List Byte) (c : Nat) :
    (m.writeList a vs).read unknown c =
      if h : a ≤ c ∧ c < a + vs.length then vs[c - a]'(by omega) else m.read unknown c := by
  simp only [Memory.read, Memory.lookup_writeList]
  split_ifs with h
  · rw [List.getElem?_eq_getElem (by omega)]; rfl
  · rfl

@[simp] theorem Memory.length_readList (unknown : Nat → Byte) (m : Memory) (a n : Nat) :
    (m.readList unknown a n).length = n := by
  induction n generalizing a with
  | zero => rfl
  | succ k ih => simp [Memory.readList, ih]

theorem Memory.getElem_readList (unknown : Nat → Byte) (m : Memory) (a n i : Nat)
    (h : i < (m.readList unknown a n).length) : (m.readList unknown a n)[i] = m.read unknown (a + i) := by
  induction n generalizing a i with
  | zero => simp [Memory.readList] at h
  | succ k ih =>
    cases i with
    | zero => rfl
    | succ i =>
      simp only [Memory.readList, List.getElem_cons_succ]
      rw [ih]; congr 1; omega

/-- Two equal byte lists read from two memories mean equal reads. -/
theorem Memory.getElem?_readList (unknown : Nat → Byte) (m : Memory) {a n i : Nat} (h : i < n) :
    (m.readList unknown a n)[i]? = some (m.read unknown (a + i)) := by
  rw [List.getElem?_eq_getElem (by simpa using h), Memory.getElem_readList]

theorem Memory.readList_congr {unknown unknown' : Nat → Byte} {m m' : Memory} {a n : Nat}
    (h : ∀ i < n, m.read unknown (a + i) = m'.read unknown' (a + i)) :
    m.readList unknown a n = m'.readList unknown' a n := by
  apply List.ext_getElem (by simp)
  intro i h₁ h₂
  rw [Memory.getElem_readList, Memory.getElem_readList]
  exact h i (by simpa using h₁)

/-! ### The canonical form -/

theorem Memory.wf_iff (m : Memory) :
    m.wf = true ↔ m.Pairwise (fun c d => c.1 < d.1) ∧ ∀ c ∈ m, c.1 < Config.indexLimit := by
  simp only [Memory.wf, Bool.and_eq_true, decide_eq_true_eq, List.all_eq_true]

theorem Memory.mem_write {m : Memory} {a : Nat} {v : Byte} {c : Host.Cell} (h : c ∈ m.write a v) :
    c = (a, v) ∨ c ∈ m := by
  induction m with
  | nil => simpa [Memory.write] using h
  | cons d rest ih =>
    obtain ⟨b, w⟩ := d
    simp only [Memory.write] at h
    split_ifs at h with h₁ h₂
    · simpa using h
    · rcases List.mem_cons.1 h with h | h
      · exact .inl h
      · exact .inr (List.mem_cons_of_mem _ h)
    · rcases List.mem_cons.1 h with h | h
      · exact .inr (by simp [h])
      · rcases ih h with h | h
        · exact .inl h
        · exact .inr (List.mem_cons_of_mem _ h)

theorem Memory.wf_nil : Memory.wf [] = true := rfl

theorem Memory.wf_write {m : Memory} {a : Nat} (v : Byte) (h : m.wf = true) (ha : a < Config.indexLimit) :
    (m.write a v).wf = true := by
  rw [Memory.wf_iff] at h ⊢
  refine ⟨?_, fun c hc => ?_⟩
  · obtain ⟨h, -⟩ := h
    induction m with
    | nil => simp [Memory.write]
    | cons d rest ih =>
      obtain ⟨b, w⟩ := d
      rw [List.pairwise_cons] at h
      simp only [Memory.write]
      split_ifs with h₁ h₂
      · refine List.pairwise_cons.2 ⟨fun c hc => ?_, List.pairwise_cons.2 h⟩
        rcases List.mem_cons.1 hc with rfl | hc
        · exact h₁
        · exact lt_trans h₁ (h.1 c hc)
      · subst h₂; exact List.pairwise_cons.2 h
      · refine List.pairwise_cons.2 ⟨fun c hc => ?_, ih h.2⟩
        rcases Memory.mem_write hc with rfl | hc
        · show b < a; omega
        · exact h.1 c hc
  · rcases Memory.mem_write hc with rfl | hc
    · exact ha
    · exact h.2 c hc

theorem Memory.wf_writeList {m : Memory} {a : Nat} (vs : List Byte) (h : m.wf = true)
    (ha : a + vs.length ≤ Config.indexLimit) : (m.writeList a vs).wf = true := by
  induction vs generalizing m a with
  | nil => exact h
  | cons v vs ih =>
    simp only [List.length_cons] at ha
    exact ih (Memory.wf_write v h (by omega)) (by omega)

theorem Memory.wf_copyForward (unknown : Nat → Byte) {m : Memory} (src : Nat) {dst n : Nat} (h : m.wf = true)
    (hn : dst + n ≤ Config.indexLimit) : (m.copyForward unknown src dst n).wf = true := by
  induction n generalizing m src dst with
  | zero => exact h
  | succ k ih => exact ih _ (Memory.wf_write _ h (by omega)) (by omega)

theorem Memory.wf_forgetBelow {m : Memory} (cap : Nat) (h : m.wf = true) : (m.forgetBelow cap).wf = true := by
  rw [Memory.wf_iff] at h ⊢
  exact ⟨h.1.filter _, fun c hc => h.2 c (List.mem_of_mem_filter hc)⟩

/-- In a canonical memory forgetting below `cap` is felt below `cap` only. -/
theorem Memory.lookup_forgetBelow {m : Memory} (cap : Nat) (h : m.wf = true) (a : Nat) :
    (m.forgetBelow cap).lookup a = if cap ≤ a then m.lookup a else none := by
  rw [Memory.wf_iff] at h
  obtain ⟨h, -⟩ := h
  induction m with
  | nil => simp [Memory.forgetBelow, Memory.lookup]
  | cons d rest ih =>
    obtain ⟨b, w⟩ := d
    rw [List.pairwise_cons] at h
    have ih := ih h.2
    rw [Memory.forgetBelow] at ih ⊢
    rw [List.filter_cons]
    by_cases hb : cap ≤ b
    · simp only [hb, decide_true, if_true, Memory.lookup, ih]
      split_ifs <;> first | rfl | omega
    · simp only [hb, decide_false, Bool.false_eq_true, if_false, Memory.lookup, ih]
      split_ifs with h₁ h₂ h₃ <;> first | rfl | omega

end Sys2Proof.Machine
end

