-- ==== Sys2Proof/Laws/State.lean ====
section
/-! SUPPORT. One lemma per field per update of the state, each true by unfolding, so that no later proof unfolds a record
update. -/

namespace Sys2Proof.Machine

variable (s : State) (c : Cause) (d : Decoder) (e : Encoder)

/-! ### Fault entry -/

@[simp] theorem raise_dec_run : (raise .dec c s).dec.run = .err := rfl
@[simp] theorem raise_dec_errCode : (raise .dec c s).dec.errCode = causeCode c := rfl
@[simp] theorem raise_dec_srcLen : (raise .dec c s).dec.srcLen = s.dec.srcLen := rfl
@[simp] theorem raise_dec_dstCap : (raise .dec c s).dec.dstCap = s.dec.dstCap := rfl
@[simp] theorem raise_dec_sp : (raise .dec c s).dec.sp = s.dec.sp := rfl
@[simp] theorem raise_dec_dp : (raise .dec c s).dec.dp = s.dec.dp := rfl
@[simp] theorem raise_dec_din : (raise .dec c s).dec.din = s.dec.din := rfl
@[simp] theorem raise_dec_dout : (raise .dec c s).dec.dout = s.dec.dout := rfl
@[simp] theorem raise_dec_doutLost : (raise .dec c s).dec.doutLost = s.dec.doutLost := rfl
@[simp] theorem raise_dec_trail : (raise .dec c s).dec.trail = s.dec.trail := rfl
@[simp] theorem raise_dec_enc_kept : (raise .dec c s).enc = s.enc := rfl
@[simp] theorem raise_dec_buffers : (raise .dec c s).buffers = s.buffers := rfl
@[simp] theorem raise_dec_agenda : (raise .dec c s).agenda = s.agenda := rfl
@[simp] theorem raise_dec_hostData : (raise .dec c s).hostData = s.hostData := rfl
@[simp] theorem raise_dec_busyReads : (raise .dec c s).busyReads = s.busyReads := rfl
@[simp] theorem raise_enc_run : (raise .enc c s).enc.run = .err := rfl
@[simp] theorem raise_enc_errCode : (raise .enc c s).enc.errCode = causeCode c := rfl
@[simp] theorem raise_enc_srcLen : (raise .enc c s).enc.srcLen = s.enc.srcLen := rfl
@[simp] theorem raise_enc_dstCap : (raise .enc c s).enc.dstCap = s.enc.dstCap := rfl
@[simp] theorem raise_enc_sp : (raise .enc c s).enc.sp = s.enc.sp := rfl
@[simp] theorem raise_enc_dp : (raise .enc c s).enc.dp = s.enc.dp := rfl
@[simp] theorem raise_enc_runIdx : (raise .enc c s).enc.runIdx = s.enc.runIdx := rfl
@[simp] theorem raise_enc_runCnt : (raise .enc c s).enc.runCnt = s.enc.runCnt := rfl
@[simp] theorem raise_enc_ein : (raise .enc c s).enc.ein = s.enc.ein := rfl
@[simp] theorem raise_enc_eout : (raise .enc c s).enc.eout = s.enc.eout := rfl
@[simp] theorem raise_enc_eoutLost : (raise .enc c s).enc.eoutLost = s.enc.eoutLost := rfl
@[simp] theorem raise_enc_trail : (raise .enc c s).enc.trail = s.enc.trail := rfl
@[simp] theorem raise_enc_dec_kept : (raise .enc c s).dec = s.dec := rfl
@[simp] theorem raise_enc_buffers : (raise .enc c s).buffers = s.buffers := rfl
@[simp] theorem raise_enc_agenda : (raise .enc c s).agenda = s.agenda := rfl
@[simp] theorem raise_enc_hostData : (raise .enc c s).hostData = s.hostData := rfl
@[simp] theorem raise_enc_busyReads : (raise .enc c s).busyReads = s.busyReads := rfl

/-! ### A new launch -/

@[simp] theorem launch_dec_run : (launch .dec s).dec.run = .busy := rfl
@[simp] theorem launch_dec_errCode : (launch .dec s).dec.errCode = 0 := rfl
@[simp] theorem launch_dec_srcLen : (launch .dec s).dec.srcLen = s.dec.srcLen := rfl
@[simp] theorem launch_dec_dstCap : (launch .dec s).dec.dstCap = s.dec.dstCap := rfl
@[simp] theorem launch_dec_sp : (launch .dec s).dec.sp = 0 := rfl
@[simp] theorem launch_dec_dp : (launch .dec s).dec.dp = 0 := rfl
@[simp] theorem launch_dec_din : (launch .dec s).dec.din = s.dec.din := rfl
@[simp] theorem launch_dec_dout : (launch .dec s).dec.dout = s.dec.dout := rfl
@[simp] theorem launch_dec_doutLost : (launch .dec s).dec.doutLost = s.dec.doutLost := rfl
@[simp] theorem launch_dec_trail : (launch .dec s).dec.trail = [] := rfl
@[simp] theorem launch_dec_enc_kept : (launch .dec s).enc = s.enc := rfl
@[simp] theorem launch_dec_buffers : (launch .dec s).buffers = s.buffers := rfl
@[simp] theorem launch_dec_agenda : (launch .dec s).agenda = s.agenda := rfl
@[simp] theorem launch_dec_hostData : (launch .dec s).hostData = s.hostData := rfl
@[simp] theorem launch_dec_busyReads : (launch .dec s).busyReads = s.busyReads := rfl
@[simp] theorem launch_enc_run : (launch .enc s).enc.run = .busy := rfl
@[simp] theorem launch_enc_errCode : (launch .enc s).enc.errCode = 0 := rfl
@[simp] theorem launch_enc_srcLen : (launch .enc s).enc.srcLen = s.enc.srcLen := rfl
@[simp] theorem launch_enc_dstCap : (launch .enc s).enc.dstCap = s.enc.dstCap := rfl
@[simp] theorem launch_enc_sp : (launch .enc s).enc.sp = 0 := rfl
@[simp] theorem launch_enc_dp : (launch .enc s).enc.dp = 0 := rfl
@[simp] theorem launch_enc_runIdx : (launch .enc s).enc.runIdx = s.enc.runIdx := rfl
@[simp] theorem launch_enc_runCnt : (launch .enc s).enc.runCnt = 0 := rfl
@[simp] theorem launch_enc_ein : (launch .enc s).enc.ein = s.enc.ein := rfl
@[simp] theorem launch_enc_eout : (launch .enc s).enc.eout = s.enc.eout := rfl
@[simp] theorem launch_enc_eoutLost : (launch .enc s).enc.eoutLost = s.enc.eoutLost := rfl
@[simp] theorem launch_enc_trail : (launch .enc s).enc.trail = [] := rfl
@[simp] theorem launch_enc_dec_kept : (launch .enc s).dec = s.dec := rfl
@[simp] theorem launch_enc_buffers : (launch .enc s).buffers = s.buffers := rfl
@[simp] theorem launch_enc_agenda : (launch .enc s).agenda = s.agenda := rfl
@[simp] theorem launch_enc_hostData : (launch .enc s).hostData = s.hostData := rfl
@[simp] theorem launch_enc_busyReads : (launch .enc s).busyReads = s.busyReads := rfl

/-! ### Keeping a step boundary -/

@[simp] theorem recordBoundary_dec_run : (recordBoundary .dec s).dec.run = s.dec.run := rfl
@[simp] theorem recordBoundary_dec_errCode : (recordBoundary .dec s).dec.errCode = s.dec.errCode := rfl
@[simp] theorem recordBoundary_dec_srcLen : (recordBoundary .dec s).dec.srcLen = s.dec.srcLen := rfl
@[simp] theorem recordBoundary_dec_dstCap : (recordBoundary .dec s).dec.dstCap = s.dec.dstCap := rfl
@[simp] theorem recordBoundary_dec_sp : (recordBoundary .dec s).dec.sp = s.dec.sp := rfl
@[simp] theorem recordBoundary_dec_dp : (recordBoundary .dec s).dec.dp = s.dec.dp := rfl
@[simp] theorem recordBoundary_dec_din : (recordBoundary .dec s).dec.din = s.dec.din := rfl
@[simp] theorem recordBoundary_dec_dout : (recordBoundary .dec s).dec.dout = s.dec.dout := rfl
@[simp] theorem recordBoundary_dec_doutLost : (recordBoundary .dec s).dec.doutLost = s.dec.doutLost := rfl
@[simp] theorem recordBoundary_dec_trail : (recordBoundary .dec s).dec.trail = s.cursorsOf .dec :: s.dec.trail := rfl
@[simp] theorem recordBoundary_dec_enc_kept : (recordBoundary .dec s).enc = s.enc := rfl
@[simp] theorem recordBoundary_dec_buffers : (recordBoundary .dec s).buffers = s.buffers := rfl
@[simp] theorem recordBoundary_dec_agenda : (recordBoundary .dec s).agenda = s.agenda := rfl
@[simp] theorem recordBoundary_dec_hostData : (recordBoundary .dec s).hostData = s.hostData := rfl
@[simp] theorem recordBoundary_dec_busyReads : (recordBoundary .dec s).busyReads = s.busyReads := rfl
@[simp] theorem recordBoundary_enc_run : (recordBoundary .enc s).enc.run = s.enc.run := rfl
@[simp] theorem recordBoundary_enc_errCode : (recordBoundary .enc s).enc.errCode = s.enc.errCode := rfl
@[simp] theorem recordBoundary_enc_srcLen : (recordBoundary .enc s).enc.srcLen = s.enc.srcLen := rfl
@[simp] theorem recordBoundary_enc_dstCap : (recordBoundary .enc s).enc.dstCap = s.enc.dstCap := rfl
@[simp] theorem recordBoundary_enc_sp : (recordBoundary .enc s).enc.sp = s.enc.sp := rfl
@[simp] theorem recordBoundary_enc_dp : (recordBoundary .enc s).enc.dp = s.enc.dp := rfl
@[simp] theorem recordBoundary_enc_runIdx : (recordBoundary .enc s).enc.runIdx = s.enc.runIdx := rfl
@[simp] theorem recordBoundary_enc_runCnt : (recordBoundary .enc s).enc.runCnt = s.enc.runCnt := rfl
@[simp] theorem recordBoundary_enc_ein : (recordBoundary .enc s).enc.ein = s.enc.ein := rfl
@[simp] theorem recordBoundary_enc_eout : (recordBoundary .enc s).enc.eout = s.enc.eout := rfl
@[simp] theorem recordBoundary_enc_eoutLost : (recordBoundary .enc s).enc.eoutLost = s.enc.eoutLost := rfl
@[simp] theorem recordBoundary_enc_trail : (recordBoundary .enc s).enc.trail = s.cursorsOf .enc :: s.enc.trail := rfl
@[simp] theorem recordBoundary_enc_dec_kept : (recordBoundary .enc s).dec = s.dec := rfl
@[simp] theorem recordBoundary_enc_buffers : (recordBoundary .enc s).buffers = s.buffers := rfl
@[simp] theorem recordBoundary_enc_agenda : (recordBoundary .enc s).agenda = s.agenda := rfl
@[simp] theorem recordBoundary_enc_hostData : (recordBoundary .enc s).hostData = s.hostData := rfl
@[simp] theorem recordBoundary_enc_busyReads : (recordBoundary .enc s).busyReads = s.busyReads := rfl

/-! ### Taking the agenda's entry -/

@[simp] theorem takeEntry_dec : (takeEntry s).dec = s.dec := rfl
@[simp] theorem takeEntry_enc : (takeEntry s).enc = s.enc := rfl
@[simp] theorem takeEntry_buffers : (takeEntry s).buffers = s.buffers := rfl
@[simp] theorem takeEntry_agenda : (takeEntry s).agenda = s.agenda.tail := rfl
@[simp] theorem takeEntry_hostData : (takeEntry s).hostData = s.hostData := rfl
@[simp] theorem takeEntry_busyReads : (takeEntry s).busyReads = s.busyReads := rfl

/-! ### Advancing the decoder, and the encoder's source position -/

variable (m : Memory) (count size : Nat)

@[simp] theorem advance_run : (d.advance m count size).run = d.run := rfl
@[simp] theorem advance_errCode : (d.advance m count size).errCode = d.errCode := rfl
@[simp] theorem advance_srcLen : (d.advance m count size).srcLen = d.srcLen := rfl
@[simp] theorem advance_dstCap : (d.advance m count size).dstCap = d.dstCap := rfl
@[simp] theorem advance_sp : (d.advance m count size).sp = d.sp + BitVec.ofNat 32 size := rfl
@[simp] theorem advance_dp : (d.advance m count size).dp = d.dp + BitVec.ofNat 32 count := rfl
@[simp] theorem advance_din : (d.advance m count size).din = d.din := rfl
@[simp] theorem advance_dout : (d.advance m count size).dout = m := rfl
@[simp] theorem advance_doutLost : (d.advance m count size).doutLost = d.doutLost := rfl
@[simp] theorem advance_trail : (d.advance m count size).trail = d.trail := rfl
@[simp] theorem advance_unknownDout : (d.advance m count size).unknownDout = d.unknownDout := rfl
@[simp] theorem advance_dinByte : (d.advance m count size).dinByte = d.dinByte := rfl
@[simp] theorem consume_run : (e.consume count).run = e.run := rfl
@[simp] theorem consume_errCode : (e.consume count).errCode = e.errCode := rfl
@[simp] theorem consume_srcLen : (e.consume count).srcLen = e.srcLen := rfl
@[simp] theorem consume_dstCap : (e.consume count).dstCap = e.dstCap := rfl
@[simp] theorem consume_sp : (e.consume count).sp = e.sp + BitVec.ofNat 32 count := rfl
@[simp] theorem consume_dp : (e.consume count).dp = e.dp := rfl
@[simp] theorem consume_runIdx : (e.consume count).runIdx = e.runIdx := rfl
@[simp] theorem consume_runCnt : (e.consume count).runCnt = e.runCnt := rfl
@[simp] theorem consume_ein : (e.consume count).ein = e.ein := rfl
@[simp] theorem consume_eout : (e.consume count).eout = e.eout := rfl
@[simp] theorem consume_eoutLost : (e.consume count).eoutLost = e.eoutLost := rfl
@[simp] theorem consume_trail : (e.consume count).trail = e.trail := rfl
@[simp] theorem consume_unknownEout : (e.consume count).unknownEout = e.unknownEout := rfl
@[simp] theorem consume_einByte : (e.consume count).einByte = e.einByte := rfl

end Sys2Proof.Machine
end

