-- ==== Sys2Proof/Laws/Emit.lean ====
section
/-! SUPPORT. What each emission of the encoder can do, and each iteration of its loop: it fails and leaves nothing, or it
writes. -/

namespace Sys2Proof.Machine

theorem fitsStream_iff (e : Encoder) (size : Nat) :
    fitsStream e size = true ↔ e.dp.toNat + size ≤ e.dstCap.toNat := by simp [fitsStream]

theorem emit_fits {e : Encoder} {i : Instr} (h : e.dp.toNat + i.size ≤ e.dstCap.toNat) : e.emit i = .ok { e with
    eout := e.eout.writeList e.dp.toNat (encode i)
    dp := e.dp + BitVec.ofNat 32 i.size
    runCnt := 0 } := by
  rw [Encoder.emit, if_pos ((fitsStream_iff _ _).2 (by rw [encode_length]; exact h)), encode_length]

theorem emit_full {e : Encoder} {i : Instr} (h : e.dstCap.toNat < e.dp.toNat + i.size) :
    e.emit i = .error .outputExhausted := by
  rw [Encoder.emit, if_neg (by rw [fitsStream_iff, encode_length]; omega)]

theorem appendLiteral_opens {e : Encoder} {b : Byte} (hr : e.runCnt = 0 ∨ e.runCnt = 63)
    (h : e.dp.toNat + 2 ≤ e.dstCap.toNat) : e.appendLiteral b = .ok { e with
      runIdx := e.dp
      eout := e.eout.writeList e.dp.toNat [0x81#8, b]
      dp := e.dp + 2
      runCnt := 1 } := by
  rw [Encoder.appendLiteral, if_pos hr, if_pos ((fitsStream_iff _ _).2 h)]

theorem appendLiteral_opens_full {e : Encoder} {b : Byte} (hr : e.runCnt = 0 ∨ e.runCnt = 63)
    (h : e.dstCap.toNat < e.dp.toNat + 2) : e.appendLiteral b = .error .outputExhausted := by
  rw [Encoder.appendLiteral, if_pos hr, if_neg (by rw [fitsStream_iff]; omega)]

theorem appendLiteral_extends {e : Encoder} {b : Byte} (hr : ¬(e.runCnt = 0 ∨ e.runCnt = 63))
    (h : e.dp.toNat + 1 ≤ e.dstCap.toNat) : e.appendLiteral b = .ok { e with
      eout := (e.eout.write e.dp.toNat b).write e.runIdx.toNat (runTag (e.runCnt + 1))
      dp := e.dp + 1
      runCnt := e.runCnt + 1 } := by
  rw [Encoder.appendLiteral, if_neg hr, if_pos ((fitsStream_iff _ _).2 h)]

theorem appendLiteral_extends_full {e : Encoder} {b : Byte} (hr : ¬(e.runCnt = 0 ∨ e.runCnt = 63))
    (h : e.dstCap.toNat < e.dp.toNat + 1) : e.appendLiteral b = .error .outputExhausted := by
  rw [Encoder.appendLiteral, if_neg hr, if_neg (by rw [fitsStream_iff]; omega)]

/-- Everything an iteration can do at the end of the source. -/
theorem iterate_finish {e : Encoder} (hd : e.decision = .finish) : e.iterate =
    if e.dp.toNat + 1 ≤ e.dstCap.toNat then
      .ok { e with eout := e.eout.writeList e.dp.toNat (encode .endMarker), dp := e.dp + 1, runCnt := 0, run := .done }
    else .error .outputExhausted := by
  rw [Encoder.iterate, hd]
  split_ifs with h
  · simp only [Encoder.emitEnd]; rw [emit_fits (by exact h)]; rfl
  · simp only [Encoder.emitEnd]; rw [emit_full (by exact Nat.not_le.1 h)]

/-- Everything an iteration can do when it decides on a fill. -/
theorem iterate_fill {e : Encoder} {count : Nat} {value : Byte} (hd : e.decision = .fill count value) : e.iterate =
    if e.dp.toNat + 4 ≤ e.dstCap.toNat then
      .ok (Encoder.consume { e with
        eout := e.eout.writeList e.dp.toNat (encode (.fill count value))
        dp := e.dp + 4
        runCnt := 0 } count)
    else .error .outputExhausted := by
  rw [Encoder.iterate, hd]
  split_ifs with h
  · simp only [Encoder.emitFill]; rw [emit_fits (by exact h)]; rfl
  · simp only [Encoder.emitFill]; rw [emit_full (by exact Nat.not_le.1 h)]; rfl

/-- Everything an iteration can do when it decides on a copy. -/
theorem iterate_copy {e : Encoder} {length start : Nat} (hd : e.decision = .copy length start) : e.iterate =
    if e.dp.toNat + (tierFor length start e.sp.toNat).size ≤ e.dstCap.toNat then
      .ok (Encoder.consume { e with
        eout := e.eout.writeList e.dp.toNat (encode (tierFor length start e.sp.toNat))
        dp := e.dp + BitVec.ofNat 32 (tierFor length start e.sp.toNat).size
        runCnt := 0 } length)
    else .error .outputExhausted := by
  rw [Encoder.iterate, hd]
  split_ifs with h
  · simp only [Encoder.emitCopy]; rw [emit_fits (by exact h)]; rfl
  · simp only [Encoder.emitCopy]; rw [emit_full (by exact Nat.not_le.1 h)]; rfl

/-- An iteration that decides on a literal is `appendLiteral` and one byte consumed. -/
theorem iterate_literal {e : Encoder} {b : Byte} (hd : e.decision = .literal b) :
    e.iterate = (e.appendLiteral b).map (·.consume 1) := by rw [Encoder.iterate, hd]

/-- An iteration that fails has found the output full (60_exceptions.md R155). -/
theorem iterate_error {e : Encoder} {c : Cause} (h : e.iterate = .error c) : c = .outputExhausted := by
  cases hd : e.decision with
  | finish => rw [iterate_finish hd] at h; split_ifs at h; cases h; rfl
  | fill count value => rw [iterate_fill hd] at h; split_ifs at h; cases h; rfl
  | copy length start => rw [iterate_copy hd] at h; split_ifs at h; cases h; rfl
  | literal b =>
    rw [iterate_literal hd, Encoder.appendLiteral] at h
    split_ifs at h <;> cases h <;> rfl

end Sys2Proof.Machine
end

