-- ==== Sys2Proof/Laws/Fetch.lean ====
section
/-! SUPPORT. Everything the fetch can answer (40_decoder.md R81). -/

namespace Sys2Proof.Machine

theorem fetch_truncated {d : Decoder} (h : d.srcLen.toNat ≤ d.sp.toNat ∨
    d.srcLen.toNat < d.sp.toNat + instrLength (d.dinByte d.sp.toNat)) : fetch d = .error .truncatedStream := by
  unfold fetch
  rcases h with h | h
  · rw [if_pos h]
  · split_ifs <;> rfl

/-- When the tag and its payload lie below `SRC_LEN` the fetch answers what their bytes decode to. -/
theorem fetch_present {d : Decoder} (h : d.sp.toNat + instrLength (d.dinByte d.sp.toNat) ≤ d.srcLen.toNat) :
    ∃ i r, decode (d.din.readList unknownDin d.sp.toNat (instrLength (d.dinByte d.sp.toNat))) = .ok (i, r) ∧
      fetch d = .ok i := by
  have hpos := instrLength_pos (d.dinByte d.sp.toNat)
  obtain ⟨n, hn⟩ : ∃ n, instrLength (d.dinByte d.sp.toNat) = n + 1 := ⟨_, (Nat.succ_pred_eq_of_pos hpos).symm⟩
  obtain ⟨i, r, hd⟩ := decode_ok (d.dinByte d.sp.toNat) (d.din.readList unknownDin (d.sp.toNat + 1) n) (by simp; omega)
  have hb : d.din.readList unknownDin d.sp.toNat (instrLength (d.dinByte d.sp.toNat)) =
      d.dinByte d.sp.toNat :: d.din.readList unknownDin (d.sp.toNat + 1) n := by rw [hn]; rfl
  refine ⟨i, r, hb ▸ hd, ?_⟩
  unfold fetch
  rw [if_neg (by omega), if_neg (by omega), hb, hd]

/-- No fetch raises `InvalidOpcode` (60_exceptions.md R154). -/
theorem fetch_ne_invalidOpcode (d : Decoder) : fetch d ≠ .error .invalidOpcode := by
  by_cases h : d.sp.toNat + instrLength (d.dinByte d.sp.toNat) ≤ d.srcLen.toNat
  · obtain ⟨i, r, -, hf⟩ := fetch_present h
    rw [hf]; simp
  · rw [fetch_truncated (.inr (by omega))]; simp

end Sys2Proof.Machine
end

