-- ==== Sys2Proof/Laws/HostPort.lean ====
section
/-! SUPPORT. What the host's moves can do, said once each. -/

namespace Sys2Proof.Machine

/-- `STATUS` as a number (10_state.md R26). -/
theorem statusWord_toNat (r : RunState) (code : BitVec 4) : (statusWord r code).toNat =
    (if r = .busy then 1 else 0) + (if r = .done then 2 else 0) + (if r = .err then 4 else 0) + 16 * code.toNat := by
  cases r <;> revert code <;> decide

theorem regAt_unlisted {offset : Nat} (h : offset ∉ [0x00, 0x04, 0x08, 0x0C, 0x10, 0x14, 0x18, 0x1C]) :
    regAt offset = none := by
  unfold regAt; split <;> first | (simp at h; done) | rfl

theorem hostReadReg_unlisted {e : Engine} {offset : Nat} {s : State} (h : regAt offset = none) :
    hostReadReg e offset s = { s with hostData := 0 } := by rw [hostReadReg, h]

theorem hostReadReg_present {e : Engine} {offset : Nat} {s : State} {r : Reg} (h : regAt offset = some r)
    (hb : s.runOf e ≠ .busy ∨ r.isCursor = false) :
    hostReadReg e offset s = { s with hostData := regValue s e (s.cursorsOf e) r } := by
  rw [hostReadReg, h]
  simp only
  rw [if_neg]
  rintro ⟨h₁, h₂⟩
  rcases hb with hb | hb
  · exact hb h₁
  · rw [hb] at h₂; cases h₂

theorem hostReadReg_busy {e : Engine} {offset : Nat} {s : State} {r : Reg} (h : regAt offset = some r)
    (hb : s.runOf e = .busy) (hc : r.isCursor = true) : hostReadReg e offset s =
      { s with hostData := regValue s e (boundaryRead s e) r, busyReads := s.busyReads + 1 } := by
  rw [hostReadReg, h]
  simp only
  rw [if_pos ⟨hb, hc⟩]

theorem boundaryRead_mem (s : State) (e : Engine) : boundaryRead s e ∈ s.cursorsOf e :: s.trailOf e := by
  have h : Config.busyReadChoice s.busyReads % ((s.trailOf e).length + 1) < (s.cursorsOf e :: s.trailOf e).length :=
    Nat.mod_lt _ (Nat.succ_pos _)
  rw [boundaryRead, List.getElem?_eq_getElem h]
  exact List.getElem_mem h

theorem hostWriteReg_busy {e : Engine} {offset : Nat} {v : Word} {s : State} (h : s.runOf e = .busy) :
    hostWriteReg e offset v s = .next s := by rw [hostWriteReg, if_pos h]

/-- A byte access of the host that is its to make goes through (43_host_interface.md R140). -/
theorem hostByteAccess_free {space : Space} {index : Nat} {s k : State} (h : index < Config.indexLimit)
    (hb : s.runOf (spaceEngine space) ≠ .busy) : hostByteAccess space index s k = .next k := by
  rw [hostByteAccess, if_neg (by omega), if_neg hb]

/-- Reset of `DEC`, whatever its state was: every register as in 10_state.md R29, `DIN` as it was. -/
theorem afterReset_dec (d : Decoder) : ∃ dout lost, d.afterReset =
    { Decoder.reset with din := d.din, dout := dout, doutLost := lost } := by
  unfold Decoder.afterReset; split <;> exact ⟨_, _, rfl⟩

/-- Reset of `ENC`, whatever its state was: every register as in 10_state.md R29, `EIN` as it was. -/
theorem afterReset_enc (e : Encoder) : ∃ eout lost, e.afterReset =
    { Encoder.reset with ein := e.ein, eout := eout, eoutLost := lost } := by
  unfold Encoder.afterReset; split <;> exact ⟨_, _, rfl⟩

/-- Abandoning a launch makes no index at or above its `DST_CAP` less known. -/
theorem lossesAt_cons {cap : Word} {lost : List Word} {a : Nat} (h : cap.toNat ≤ a) :
    lossesAt (cap :: lost) a = lossesAt lost a := by
  unfold lossesAt; rw [List.countP_cons, if_neg (by simp; omega)]; rfl

/-- The four spaces after reset are in canonical form. -/
theorem reset_spaces_wf : State.reset.dec.din.wf = true ∧ State.reset.dec.dout.wf = true ∧
    State.reset.enc.ein.wf = true ∧ State.reset.enc.eout.wf = true := ⟨rfl, rfl, rfl, rfl⟩

end Sys2Proof.Machine
end

