-- ==== Sys2Proof/Laws/PerInstr.lean ====
section
/-! SUPPORT. A statement made once per instruction: the first byte of its encoding gives its length (30_encoding.md R63,
R67). -/

namespace Sys2Proof.Laws.TagGivesLength

/-- A well-formed instruction is encoded in `i.size` bytes, and the tag it begins with says so. -/
def Statement (i : Instr) : Prop :=
  i.wellFormed = true → ∃ (t : Byte) (rest : List Byte),
    encode i = t :: rest ∧ instrLength t = i.size ∧ rest.length + 1 = i.size

theorem scopy (length offset : Nat) : Statement (.scopy length offset) := by
  intro h
  rw [wellFormed_scopy] at h
  refine ⟨_, _, rfl, ?_, rfl⟩
  rw [instrLength, familyOf_eq, toNat_tag_scopy h.1 h.2.1 h.2.2, if_pos (by omega)]; rfl

theorem endMarker : Statement .endMarker := fun _ => ⟨_, _, rfl, rfl, rfl⟩

theorem lit (data : List Byte) : Statement (.lit data) := by
  intro h
  rw [wellFormed_lit] at h
  refine ⟨_, _, rfl, ?_, Nat.add_comm _ _⟩
  have ht := toNat_tag_lit h.2
  rw [instrLength, familyOf_eq, low6_eq, ht, if_neg (by omega), if_neg (by omega), if_pos (by omega)]
  show 1 + (128 + data.length) % 64 = 1 + data.length
  omega

theorem fill (count : Nat) (value : Byte) : Statement (.fill count value) := fun _ => ⟨_, _, rfl, rfl, rfl⟩

theorem mcopy (length offset : Nat) : Statement (.mcopy length offset) := by
  intro h
  rw [wellFormed_mcopy] at h
  refine ⟨_, _, rfl, ?_, rfl⟩
  have ht := toNat_tag_mcopy (n := length - 3) (by omega)
  rw [instrLength, familyOf_eq, ht, if_neg (by omega), if_neg (by omega), if_neg (by omega), if_pos (by omega)]; rfl

theorem lcopy (count offset : Nat) : Statement (.lcopy count offset) := fun _ => ⟨_, _, rfl, rfl, rfl⟩

end Sys2Proof.Laws.TagGivesLength
end

