-- ==== Sys2Proof/Laws/Produce.lean ====
section
/-! SUPPORT. What the producing opcodes can do, said once: they fault and change nothing else, or they append. -/

namespace Sys2Proof.Machine

theorem fitsOutput_iff (d : Decoder) (count : Nat) :
    fitsOutput d count = true ↔ d.dp.toNat + count ≤ d.dstCap.toNat := by simp [fitsOutput]

theorem appendBytes_fits {data : List Byte} {size : Nat} {s : State}
    (h : s.dec.dp.toNat + data.length ≤ s.dec.dstCap.toNat) : appendBytes data size s =
      { s with dec := s.dec.advance (s.dec.dout.writeList s.dec.dp.toNat data) data.length size } := by
  simp [appendBytes, fitsOutput, h]

theorem appendBytes_overrun {data : List Byte} {size : Nat} {s : State}
    (h : s.dec.dstCap.toNat < s.dec.dp.toNat + data.length) : appendBytes data size s = raise .dec .bufferOverrun s := by
  simp [appendBytes, fitsOutput, h]

theorem appendCopy_error (c : Cause) (count size : Nat) (s : State) :
    appendCopy (.error c) count size s = raise .dec c s := rfl

theorem appendCopy_fits {src count size : Nat} {s : State} (h : s.dec.dp.toNat + count ≤ s.dec.dstCap.toNat) :
    appendCopy (.ok src) count size s = { s with
      dec := s.dec.advance (s.dec.dout.copyForward s.dec.unknownDout src s.dec.dp.toNat count) count size } := by
  simp [appendCopy, fitsOutput, h]

theorem appendCopy_overrun {src count size : Nat} {s : State} (h : s.dec.dstCap.toNat < s.dec.dp.toNat + count) :
    appendCopy (.ok src) count size s = raise .dec .bufferOverrun s := by
  simp [appendCopy, fitsOutput, h]

/-- What `exec` has written when an instruction completes: the output space after it. -/
def completedDout (i : Instr) (d : Decoder) : Memory :=
  match i with
  | .scopy length offset => d.dout.copyForward d.unknownDout (d.dp.toNat - offset) d.dp.toNat length
  | .endMarker => d.dout
  | .lit data => d.dout.writeList d.dp.toNat data
  | .fill count value => d.dout.writeList d.dp.toNat (List.replicate count value)
  | .mcopy length offset => d.dout.copyForward d.unknownDout offset d.dp.toNat length
  | .lcopy count offset => d.dout.copyForward d.unknownDout offset d.dp.toNat count

/-! ### When each instruction faults, as one chain of checks (40_decoder.md R83, R85 to R88) -/

theorem instrFault_scopy (d : Decoder) (length offset : Nat) : instrFault d (.scopy length offset) =
    if d.dp.toNat < offset then some .bufferOverrun else if offset = 0 then some .unwrittenSource
    else if d.dstCap.toNat < d.dp.toNat + length then some .bufferOverrun else none := by
  unfold instrFault sourceBeforeStart sourceUnwritten overCapacity producedCount
  congr 1
  · simp
  · congr 1
    · simp
    · congr 1; simp

theorem instrFault_endMarker (d : Decoder) : instrFault d .endMarker = none := rfl

theorem instrFault_lit (d : Decoder) (data : List Byte) : instrFault d (.lit data) =
    if d.dstCap.toNat < d.dp.toNat + data.length then some .bufferOverrun else none := by
  unfold instrFault sourceBeforeStart sourceUnwritten overCapacity producedCount
  simp only [Bool.false_eq_true, if_false]
  congr 1; simp

theorem instrFault_fill (d : Decoder) (count : Nat) (value : Byte) : instrFault d (.fill count value) =
    if d.dstCap.toNat < d.dp.toNat + count then some .bufferOverrun else none := by
  unfold instrFault sourceBeforeStart sourceUnwritten overCapacity producedCount
  simp only [Bool.false_eq_true, if_false]
  congr 1; simp

theorem instrFault_mcopy (d : Decoder) (length offset : Nat) : instrFault d (.mcopy length offset) =
    if d.dp.toNat ≤ offset then some .unwrittenSource
    else if d.dstCap.toNat < d.dp.toNat + length then some .bufferOverrun else none := by
  unfold instrFault sourceBeforeStart sourceUnwritten overCapacity producedCount
  simp only [Bool.false_eq_true, if_false]
  congr 1
  · simp
  · congr 1; simp

theorem instrFault_lcopy (d : Decoder) (count offset : Nat) : instrFault d (.lcopy count offset) =
    if 1 ≤ count ∧ d.dp.toNat ≤ offset then some .unwrittenSource
    else if d.dstCap.toNat < d.dp.toNat + count then some .bufferOverrun else none := by
  unfold instrFault sourceBeforeStart sourceUnwritten overCapacity producedCount
  simp only [Bool.false_eq_true, if_false]
  congr 1
  · simp
  · congr 1; simp

/-- `exec` faults exactly as 60_exceptions.md R158 orders it. -/
theorem exec_fault {i : Instr} {s : State} {c : Cause} (h : instrFault s.dec i = some c) :
    exec i s = .next (raise .dec c s) := by
  cases i with
  | endMarker => cases h
  | scopy length offset =>
    rw [instrFault_scopy] at h
    rw [exec, execScopy, relativeSource]
    split_ifs at h ⊢ with h₁ h₂ h₃ <;> cases h
    · rfl
    · rfl
    · rw [appendCopy_overrun h₃]
  | lit data =>
    rw [instrFault_lit] at h
    split_ifs at h with h₁; cases h
    rw [exec, execLit, appendBytes_overrun h₁]
  | fill count value =>
    rw [instrFault_fill] at h
    split_ifs at h with h₁; cases h
    rw [exec, execFill, appendBytes_overrun (by simpa using h₁)]
  | mcopy length offset =>
    rw [instrFault_mcopy] at h
    rw [exec, execMcopy, absoluteSource]
    split_ifs at h ⊢ with h₁ h₂ <;> cases h
    · rfl
    · rw [appendCopy_overrun h₂]
  | lcopy count offset =>
    rw [instrFault_lcopy] at h
    have hs : longSource s.dec.dp.toNat count offset =
        if 1 ≤ count ∧ s.dec.dp.toNat ≤ offset then .error .unwrittenSource else .ok offset := by
      unfold longSource absoluteSource; split_ifs <;> first | rfl | omega
    rw [exec, execLcopy, hs]
    split_ifs at h ⊢ with h₁ h₂ <;> cases h
    · rfl
    · rw [appendCopy_overrun h₂]

theorem instrFault_none {d : Decoder} {i : Instr} (h : instrFault d i = none) :
    sourceBeforeStart d.dp.toNat i = false ∧ sourceUnwritten d.dp.toNat i = false ∧
      (i ≠ .endMarker → d.dp.toNat + producedCount i ≤ d.dstCap.toNat) := by
  unfold instrFault at h
  split at h
  · cases h
  · split at h
    · cases h
    · split at h
      · cases h
      · rename_i h₁ h₂ h₃
        refine ⟨by simpa using h₁, by simpa using h₂, fun hi => ?_⟩
        cases i <;> simp_all [overCapacity]

theorem instrFault_cause {d : Decoder} {i : Instr} {c : Cause} (h : instrFault d i = some c) :
    c = .bufferOverrun ∨ c = .unwrittenSource := by
  unfold instrFault at h
  split at h
  · simp_all
  · split at h
    · simp_all
    · split at h <;> simp_all

/-- `exec` of an instruction that does not fault: the bytes are appended and both cursors advance. -/
theorem exec_completes {i : Instr} {s : State} (hi : i ≠ .endMarker) (h : instrFault s.dec i = none) :
    exec i s = .next { s with dec := s.dec.advance (completedDout i s.dec) (producedCount i) i.size } := by
  obtain ⟨hb, hu, hf⟩ := instrFault_none h
  have hf := hf hi
  cases i with
  | endMarker => exact absurd rfl hi
  | scopy length offset =>
    simp only [sourceBeforeStart, sourceUnwritten, decide_eq_false_iff_not] at hb hu
    simp only [exec, execScopy, relativeSource, hb, hu, if_false]
    rw [appendCopy_fits (by exact hf)]; rfl
  | lit data => rw [exec, execLit, appendBytes_fits hf]; rfl
  | fill count value =>
    rw [exec, execFill, appendBytes_fits (by simpa [producedCount] using hf)]
    simp [completedDout, producedCount, Instr.size]
  | mcopy length offset =>
    simp only [sourceUnwritten, decide_eq_false_iff_not] at hu
    simp only [exec, execMcopy, absoluteSource, hu, if_false]
    rw [appendCopy_fits (by exact hf)]; rfl
  | lcopy count offset =>
    have : longSource s.dec.dp.toNat count offset = .ok offset := by
      simp only [sourceUnwritten, Bool.and_eq_false_iff, decide_eq_false_iff_not] at hu
      unfold longSource absoluteSource
      split_ifs <;> first | rfl | omega
    rw [exec, execLcopy, this, appendCopy_fits (by exact hf)]; rfl

/-- The end marker never faults (40_decoder.md R84). -/
theorem exec_endMarker (s : State) :
    exec .endMarker s = .next { s with dec := { s.dec with sp := s.dec.sp + 1, run := .done } } := rfl

/-- Everything `exec` can do. -/
theorem exec_cases (i : Instr) (s : State) :
    (∃ c, instrFault s.dec i = some c ∧ exec i s = .next (raise .dec c s)) ∨
    (instrFault s.dec i = none ∧ i ≠ .endMarker ∧
      exec i s = .next { s with dec := s.dec.advance (completedDout i s.dec) (producedCount i) i.size }) ∨
    (i = .endMarker ∧ exec i s = .next { s with dec := { s.dec with sp := s.dec.sp + 1, run := .done } }) := by
  by_cases hi : i = .endMarker
  · exact .inr (.inr ⟨hi, hi ▸ exec_endMarker s⟩)
  · cases h : instrFault s.dec i with
    | some c => exact .inl ⟨c, rfl, exec_fault h⟩
    | none => exact .inr (.inl ⟨rfl, hi, exec_completes hi h⟩)

/-- A completed instruction changes only the bytes it produced. -/
theorem lookup_completedDout_outside (i : Instr) (d : Decoder) (a : Nat)
    (h : a < d.dp.toNat ∨ d.dp.toNat + producedCount i ≤ a) : (completedDout i d).lookup a = d.dout.lookup a := by
  cases i with
  | endMarker => rfl
  | scopy length offset => exact Memory.lookup_copyForward_outside _ _ _ _ _ _ h
  | mcopy length offset => exact Memory.lookup_copyForward_outside _ _ _ _ _ _ h
  | lcopy count offset => exact Memory.lookup_copyForward_outside _ _ _ _ _ _ h
  | lit data =>
    simp only [producedCount] at h
    rw [completedDout, Memory.lookup_writeList, if_neg (by omega)]
  | fill count value =>
    simp only [producedCount] at h
    rw [completedDout, Memory.lookup_writeList, if_neg (by simp; omega)]

/-- Every byte a completed instruction produced is known. -/
theorem lookup_completedDout_inside (i : Instr) (d : Decoder) (a : Nat) (h : d.dp.toNat ≤ a)
    (h' : a < d.dp.toNat + producedCount i) : ∃ v, (completedDout i d).lookup a = some v := by
  cases i with
  | endMarker => simp only [producedCount] at h'; omega
  | scopy length offset => exact Memory.lookup_copyForward_inside _ _ _ _ _ _ h h'
  | mcopy length offset => exact Memory.lookup_copyForward_inside _ _ _ _ _ _ h h'
  | lcopy count offset => exact Memory.lookup_copyForward_inside _ _ _ _ _ _ h h'
  | lit data =>
    simp only [producedCount] at h'
    exact ⟨_, by rw [completedDout, Memory.lookup_writeList, if_pos ⟨h, h'⟩, List.getElem?_eq_getElem (by omega)]⟩
  | fill count value =>
    simp only [producedCount] at h'
    exact ⟨_, by
      rw [completedDout, Memory.lookup_writeList, if_pos ⟨h, by simpa using h'⟩,
        List.getElem?_eq_getElem (by simp; omega)]⟩

/-- A completed instruction keeps `DOUT`'s canonical form. -/
theorem wf_completedDout {i : Instr} {d : Decoder} (h : d.dout.wf = true)
    (hfit : d.dp.toNat + producedCount i ≤ d.dstCap.toNat) : (completedDout i d).wf = true := by
  have hcap : d.dstCap.toNat < Config.indexLimit := d.dstCap.isLt
  cases i with
  | endMarker => exact h
  | scopy length offset => exact Memory.wf_copyForward _ _ h (by simp only [producedCount] at hfit; omega)
  | mcopy length offset => exact Memory.wf_copyForward _ _ h (by simp only [producedCount] at hfit; omega)
  | lcopy count offset => exact Memory.wf_copyForward _ _ h (by simp only [producedCount] at hfit; omega)
  | lit data => exact Memory.wf_writeList _ h (by simp only [producedCount] at hfit; omega)
  | fill count value => exact Memory.wf_writeList _ h (by simp only [producedCount] at hfit; simp at hcap ⊢; omega)

end Sys2Proof.Machine
end

