-- ==== Sys2Proof/Laws/Search.lean ====
section
/-! SUPPORT. What the scans of the encoder's search answer, and the four decisions it can come to. -/

namespace Sys2Proof.Machine

/-- The bytes counted equal `v`, and the count stops only at its bound or at a different byte. -/
theorem sameFrom_spec (src : Nat → Byte) (v : Byte) (a k : Nat) : sameFrom src v a k ≤ k ∧
    (∀ i < sameFrom src v a k, src (a + i) = v) ∧
    (sameFrom src v a k < k → src (a + sameFrom src v a k) ≠ v) := by
  induction k generalizing a with
  | zero => simp [sameFrom]
  | succ k ih =>
    rw [sameFrom]
    split_ifs with h
    · obtain ⟨h₁, h₂, h₃⟩ := ih (a + 1)
      refine ⟨by omega, fun i hi => ?_, fun hlt => ?_⟩
      · cases i with
        | zero => exact h
        | succ i => rw [show a + (i + 1) = a + 1 + i by omega]; exact h₂ i (by omega)
      · have := h₃ (by omega)
        rwa [show a + 1 + sameFrom src v (a + 1) k = a + (sameFrom src v (a + 1) k + 1) by omega] at this
    · exact ⟨by omega, by omega, fun _ => h⟩

/-- The pairs counted agree, and the count stops only at its bound or at a pair that differs. -/
theorem agreeFrom_spec (src : Nat → Byte) (c p k : Nat) : agreeFrom src c p k ≤ k ∧
    (∀ i < agreeFrom src c p k, src (c + i) = src (p + i)) ∧
    (agreeFrom src c p k < k → src (c + agreeFrom src c p k) ≠ src (p + agreeFrom src c p k)) := by
  induction k generalizing c p with
  | zero => simp [agreeFrom]
  | succ k ih =>
    rw [agreeFrom]
    split_ifs with h
    · obtain ⟨h₁, h₂, h₃⟩ := ih (c + 1) (p + 1)
      refine ⟨by omega, fun i hi => ?_, fun hlt => ?_⟩
      · cases i with
        | zero => exact h
        | succ i =>
          rw [show c + (i + 1) = c + 1 + i by omega, show p + (i + 1) = p + 1 + i by omega]
          exact h₂ i (by omega)
      · have := h₃ (by omega)
        generalize agreeFrom src (c + 1) (p + 1) k = x at *
        rwa [show c + 1 + x = c + (x + 1) by omega, show p + 1 + x = p + (x + 1) by omega] at this
    · exact ⟨by omega, by omega, fun _ => h⟩

/-- A scan over at least one candidate answers the greatest effective length, and its lowest candidate. -/
theorem scanBelow_spec (src : Nat → Byte) (n p k : Nat) (hk : 0 < k) : (scanBelow src n p k).2 < k ∧
    effectiveLen src n (scanBelow src n p k).2 p = (scanBelow src n p k).1 ∧
    ∀ c < k, effectiveLen src n c p ≤ (scanBelow src n p k).1 ∧
      (c < (scanBelow src n p k).2 → effectiveLen src n c p < (scanBelow src n p k).1) := by
  induction k with
  | zero => omega
  | succ k ih =>
    rw [scanBelow]
    rcases Nat.eq_zero_or_pos k with rfl | hk
    · rw [show scanBelow src n p 0 = (0, 0) from rfl]
      split_ifs with h
      · refine ⟨by simp, rfl, fun c hc => ?_⟩
        obtain rfl : c = 0 := by omega
        exact ⟨le_refl _, by simp⟩
      · refine ⟨by simp, by simpa using h, fun c hc => ?_⟩
        obtain rfl : c = 0 := by omega
        exact ⟨by simpa using h, by simp⟩
    · obtain ⟨h₁, h₂, h₃⟩ := ih hk
      split_ifs with h
      · refine ⟨by simp, rfl, fun c hc => ?_⟩
        by_cases hck : c = k
        · subst hck; exact ⟨le_refl _, by simp⟩
        · have := (h₃ c (by omega)).1
          exact ⟨by simp; omega, fun _ => by simp; omega⟩
      · refine ⟨by omega, h₂, fun c hc => ?_⟩
        by_cases hck : c = k
        · subst hck; exact ⟨by omega, by omega⟩
        · exact h₃ c (by omega)

/-- The four decisions, each with the condition it is taken under (41_encoder_search.md R100). -/
theorem decision_cases (e : Encoder) :
    (e.sp = e.srcLen ∧ e.decision = .finish) ∨
    (e.sp ≠ e.srcLen ∧ 65 ≤ e.runLen e.sp.toNat ∧
      e.decision = .fill (min (e.runLen e.sp.toNat) 65535) (e.einByte e.sp.toNat)) ∨
    (e.sp ≠ e.srcLen ∧ e.runLen e.sp.toNat < 65 ∧ 3 ≤ (e.bestMatch e.sp.toNat).1 ∧
      e.decision = .copy (e.bestMatch e.sp.toNat).1 (e.bestMatch e.sp.toNat).2) ∨
    (e.sp ≠ e.srcLen ∧ e.runLen e.sp.toNat < 65 ∧ (e.bestMatch e.sp.toNat).1 < 3 ∧
      e.decision = .literal (e.einByte e.sp.toNat)) := by
  unfold Encoder.decision
  split_ifs with h₁ h₂ h₃
  · exact .inl ⟨h₁, rfl⟩
  · exact .inr (.inl ⟨h₁, h₂, rfl⟩)
  · exact .inr (.inr (.inl ⟨h₁, by simpa using h₂, h₃, rfl⟩))
  · exact .inr (.inr (.inr ⟨h₁, by simpa using h₂, by simpa using h₃, rfl⟩))

end Sys2Proof.Machine
end

