-- ==== Sys2Proof/Laws/Step.lean ====
section
/-! SUPPORT. A step of the machine by whose turn it is, and a step of `DEC` by what it can do. -/

namespace Sys2Proof.Machine

theorem step_decoder {s : State} (h : decoderMoves s) : step s = decoderStep (beforeDecoder s) := by
  unfold step; rw [show nextTurn s = .decoder from h]; rfl

theorem step_encoder {s : State} (h : encoderMoves s) : step s = .next (encoderStep (beforeEncoder s)) := by
  unfold step; rw [show nextTurn s = .encoder from h]; rfl

theorem step_host {s : State} {m : HostMove} (h : nextTurn s = .host m) : step s = hostMove m (takeEntry s) := by
  unfold step; rw [h]; rfl

theorem step_platform {s : State} {b : Buffers} (h : nextTurn s = .platform b) :
    step s = platformMove b (takeEntry s) := by
  unfold step; rw [h]; rfl

theorem step_rest {s : State} (h : nextTurn s = .rest) : step s = .next (takeEntry s) := by
  unfold step; rw [h]; rfl

theorem busy_of_decoderMoves {s : State} (h : decoderMoves s) : s.dec.run = .busy := by
  unfold decoderMoves nextTurn engineTurn at h
  split at h
  · rename_i e _ _; cases e <;> simp only at h <;> split_ifs at h; assumption
  · cases h
  · cases h
  · split_ifs at h; assumption

theorem busy_of_encoderMoves {s : State} (h : encoderMoves s) : s.enc.run = .busy := by
  unfold encoderMoves nextTurn engineTurn at h
  split at h
  · rename_i e _ _; cases e <;> simp only at h <;> split_ifs at h; assumption
  · cases h
  · cases h
  · split_ifs at h; assumption

theorem decoderMoves_of_busy {s : State} (ha : s.agenda = []) (h : s.dec.run = .busy) : decoderMoves s := by
  unfold decoderMoves nextTurn; rw [ha]; simp [h]

theorem encoderMoves_of_busy {s : State} (ha : s.agenda = []) (hd : s.dec.run ≠ .busy) (h : s.enc.run = .busy) :
    encoderMoves s := by
  unfold encoderMoves nextTurn engineTurn; rw [ha]; simp [hd, h]

theorem rest_of_not_busy {s : State} (ha : s.agenda = []) (hd : s.dec.run ≠ .busy) (he : s.enc.run ≠ .busy) :
    nextTurn s = .rest := by
  unfold nextTurn engineTurn; rw [ha]; simp [hd, he]

theorem rest_of_idle_entry {s : State} {e : Engine} {later : List Action} (ha : s.agenda = .engine e :: later)
    (h : s.runOf e ≠ .busy) : nextTurn s = .rest := by
  unfold nextTurn engineTurn; rw [ha]; cases e <;> exact if_neg h

@[simp] theorem beforeDecoder_fetch (s : State) : fetch (beforeDecoder s).dec = fetch s.dec := rfl

@[simp] theorem beforeDecoder_instrFault (s : State) (i : Instr) :
    instrFault (beforeDecoder s).dec i = instrFault s.dec i := rfl

/-- Everything a step of `DEC` can do: the fetch fails, or it is `exec` of the fetched instruction. -/
theorem step_decoder_cases {s : State} (h : decoderMoves s) :
    (fetch s.dec = .error .truncatedStream ∧ step s = .next (raise .dec .truncatedStream (beforeDecoder s))) ∨
    ∃ i, fetch s.dec = .ok i ∧ step s = exec i (beforeDecoder s) := by
  rw [step_decoder h, decoderStep, beforeDecoder_fetch]
  by_cases hf : s.dec.sp.toNat + instrLength (s.dec.dinByte s.dec.sp.toNat) ≤ s.dec.srcLen.toNat
  · obtain ⟨i, r, -, hf⟩ := fetch_present hf
    exact .inr ⟨i, hf, by rw [hf]⟩
  · have := fetch_truncated (d := s.dec) (.inr (by omega))
    exact .inl ⟨this, by rw [this]⟩

/-- A run of one step more. -/
theorem run_succ {k : Nat} {s t : State} (h : step s = .next t) : core.run (k + 1) s = core.run k t := by
  have run_succ' : ∀ (M : Host.Core) (s t : M.State), M.step s = .next t → M.run (k + 1) s = M.run k t := by
    intro M s t h
    simp only [Host.Core.run]; rw [h]
  exact run_succ' core s t h

end Sys2Proof.Machine
end

