-- ==== Sys2Proof/Tests/Slice0.lean ====
section
/-! SUPPORT. Our own tests: ill-formed terms that WellFormed refuses, words written out from 30_encoding.md, single steps
against 95_test_vectors.md, and for every statement with hypotheses a state and operands that meet them. -/

namespace Sys2Proof.Tests

open Sys2Proof Sys2Proof.Machine

/-! ### Helpers -/

/-- A space holding `bytes` from index 0 on. -/
def spaceOf (bytes : List Byte) : Memory := bytes.zipIdx.map fun b => (b.2, b.1)

/-- `DEC` amid a launch: the rest of its stream, what it has produced, and its capacity. -/
def decoding (stream output : List Byte) (cap : Nat) : State :=
  { State.reset with dec := { Decoder.reset with
      run := .busy
      din := spaceOf stream
      srcLen := BitVec.ofNat 32 stream.length
      dout := spaceOf output
      dp := BitVec.ofNat 32 output.length
      dstCap := BitVec.ofNat 32 cap } }

/-- `ENC` amid a launch: its source, what it has emitted, its position, its open run and its capacity. -/
def encoding (source stream : List Byte) (sp runIdx runCnt cap : Nat) : State :=
  { State.reset with enc := { Encoder.reset with
      run := .busy
      ein := spaceOf source
      srcLen := BitVec.ofNat 32 source.length
      sp := BitVec.ofNat 32 sp
      eout := spaceOf stream
      dp := BitVec.ofNat 32 stream.length
      runIdx := BitVec.ofNat 32 runIdx
      runCnt := BitVec.ofNat 6 runCnt
      dstCap := BitVec.ofNat 32 cap } }

/-- The host's move is next. -/
def asked (s : State) (m : HostMove) : State := { s with agenda := [.host m] }

/-- The state that an outcome leads to, for one that is a next state. -/
def reached (o : Host.Outcome State Fault Refusal) : State :=
  match o with
  | .next t => t
  | _ => State.reset

/-- The bytes `DEC` has produced. -/
def produced (s : State) : List Byte := s.dec.dout.readList s.dec.unknownDout 0 s.dec.dp.toNat

/-- The bytes `ENC` has emitted. -/
def emitted (s : State) : List Byte := s.enc.eout.readList s.enc.unknownEout 0 s.enc.dp.toNat

/-! ### WellFormed refuses one ill-formed term for each of its checks (30_encoding.md R66) -/

theorem test_wellFormed_scopy_short : (Instr.scopy 2 0).wellFormed = false := by decide
theorem test_wellFormed_scopy_long : (Instr.scopy 11 0).wellFormed = false := by decide
theorem test_wellFormed_scopy_offset : (Instr.scopy 3 4096).wellFormed = false := by decide
theorem test_wellFormed_lit_empty : (Instr.lit []).wellFormed = false := by decide
theorem test_wellFormed_lit_long : (Instr.lit (List.replicate 64 0)).wellFormed = false := by decide
theorem test_wellFormed_fill_count : (Instr.fill 65536 0).wellFormed = false := by decide
theorem test_wellFormed_mcopy_short : (Instr.mcopy 2 0).wellFormed = false := by decide
theorem test_wellFormed_mcopy_long : (Instr.mcopy 65 0).wellFormed = false := by decide
theorem test_wellFormed_mcopy_offset : (Instr.mcopy 3 65536).wellFormed = false := by decide
theorem test_wellFormed_lcopy_count : (Instr.lcopy 65536 0).wellFormed = false := by decide
theorem test_wellFormed_lcopy_offset : (Instr.lcopy 0 65536).wellFormed = false := by decide
theorem test_wellFormed_accepts : (Instr.scopy 10 4095).wellFormed = true ∧ (Instr.mcopy 64 65535).wellFormed = true ∧
    (Instr.lcopy 65535 65535).wellFormed = true ∧ (Instr.fill 0 0).wellFormed = true ∧ Instr.endMarker.wellFormed = true ∧
    (Instr.lit (List.replicate 63 0)).wellFormed = true := by decide

/-! ### Words written out bit by bit from the layouts of 30_encoding.md R62 -/

/-- `0LLLOOOO OOOOOOOO`: length 6 is `LLL` = 3, offset 1447 is 0101 10100111. -/
theorem test_word_scopy : decode [0b00110101#8, 0b10100111#8] = .ok (.scopy 6 1447, []) := by decide

/-- `10000000`, and nothing of what follows. -/
theorem test_word_endMarker : decode [0b10000000#8, 0b11111111#8] = .ok (.endMarker, [0xFF#8]) := by decide

/-- `10NNNNNN` with a count of 2, then the data. -/
theorem test_word_lit : decode [0b10000010#8, 0x48#8, 0x49#8, 0x80#8] = .ok (.lit [0x48#8, 0x49#8], [0x80#8]) := by decide

/-- `11111110`, the count's low byte, its high byte, the value. -/
theorem test_word_fill : decode [0b11111110#8, 0b00110100#8, 0b00010010#8, 0xAA#8] = .ok (.fill 4660 0xAA#8, []) := by
  decide

/-- `11LLLLLL`: length 12 is `LLLLLL` = 9; then the offset's low byte and its high byte. -/
theorem test_word_mcopy : decode [0b11001001#8, 0b00000001#8, 0b00000010#8] = .ok (.mcopy 12 513, []) := by decide

/-- `11111111`, count low, count high, offset low, offset high. -/
theorem test_word_lcopy : decode [0b11111111#8, 0b00110100#8, 0b00010010#8, 0b01111000#8, 0b01010110#8] =
    .ok (.lcopy 4660 22136, []) := by decide

/-- The words of the table: the tag in bits 7:0, later bytes above it. -/
theorem test_table_words : decodeTableWord 16 0xA735 = some (.scopy 6 1447) ∧ decodeTableWord 8 0x80 = some .endMarker ∧
    decodeTableWord 24 0x123482 = some (.lit [0x34#8, 0x12#8]) ∧ decodeTableWord 32 0xAA1234FE = some (.fill 4660 0xAA#8) ∧
    decodeTableWord 24 0x1234C0 = some (.mcopy 3 4660) ∧ decodeTableWord 40 0x56781234FF = some (.lcopy 4660 22136) := by
  decide

/-- 60_exceptions.md R151's other half: a payload that is not there is refused by name. -/
theorem test_decode_missing : decode [] = .error .missingTag ∧ decode [0xFE#8, 5#8, 0#8] = .error (.missingPayload 0xFE#8) := by
  decide

/-! ### One step of each opcode (95_test_vectors.md) -/

/-- V-D3, P1 step 2. -/
theorem test_scopy_overlaps : produced (reached (step (decoding [0x60#8, 3#8] [0x41#8, 0x42#8, 0x43#8] 12))) =
    [0x41#8, 0x42#8, 0x43#8, 0x41#8, 0x42#8, 0x43#8, 0x41#8, 0x42#8, 0x43#8, 0x41#8, 0x42#8, 0x43#8] := by decide

/-- V-F9: offset 0 is the cursor; the cursors and the code after the fault. -/
theorem test_scopy_of_cursor : let t := reached (step (decoding [0#8, 0#8] [0x41#8] 8))
    t.dec.run = .err ∧ t.dec.errCode = 4 ∧ t.dec.sp = 0 ∧ t.dec.dp = 1 := by decide

/-- V-D1. -/
theorem test_endMarker_alone : let t := reached (step (decoding [0x80#8] [] 0))
    t.dec.run = .done ∧ t.dec.sp = 1 ∧ t.dec.dp = 0 ∧ t.dec.result = some [] := by decide

/-- V-D13: the bytes after the marker change nothing. -/
theorem test_endMarker_before_others : let t := reached (step (decoding [0x80#8, 0xFF#8, 0xFF#8] [0x41#8] 1))
    t.dec.run = .done ∧ t.dec.sp = 1 ∧ t.dec.result = some [0x41#8] := by decide

/-- V-D12: data that looks like tags is data. -/
theorem test_lit_of_tags : let t := reached (step (decoding [0x83#8, 0x80#8, 0xFE#8, 0xFF#8, 0x80#8] [] 3))
    t.dec.run = .busy ∧ t.dec.sp = 4 ∧ produced t = [0x80#8, 0xFE#8, 0xFF#8] := by decide

/-- V-F12: neither byte is written. -/
theorem test_lit_over_capacity : let t := reached (step (decoding [0x82#8, 0x41#8, 0x42#8, 0x80#8] [] 1))
    t.dec.run = .err ∧ t.dec.errCode = 2 ∧ t.dec.dp = 0 ∧ t.dec.dout = [] := by decide

/-- V-D8. -/
theorem test_fill : let t := reached (step (decoding [0xFE#8, 5#8, 0#8, 0x5A#8, 0x80#8] [] 5))
    t.dec.sp = 4 ∧ produced t = [0x5A#8, 0x5A#8, 0x5A#8, 0x5A#8, 0x5A#8] := by decide

/-- V-D9: a count of 0 completes and writes nothing. -/
theorem test_fill_of_nothing : let t := reached (step (decoding [0xFE#8, 0#8, 0#8, 0x5A#8, 0x80#8] [] 0))
    t.dec.run = .busy ∧ t.dec.sp = 4 ∧ t.dec.dp = 0 ∧ t.dec.dout = [] := by decide

/-- V-D14's last copy: the offset counts from the start of the output. -/
theorem test_mcopy_absolute : let t := reached (step (decoding [0xC0#8, 1#8, 0#8] [0x57#8, 0x58#8, 0x59#8, 0x5A#8] 7))
    t.dec.sp = 3 ∧ produced t = [0x57#8, 0x58#8, 0x59#8, 0x5A#8, 0x58#8, 0x59#8, 0x5A#8] := by decide

/-- V-F15: an unwritten source outranks the capacity. -/
theorem test_mcopy_unwritten_first : let t := reached (step (decoding [0xC0#8, 5#8, 0#8] [] 0))
    t.dec.run = .err ∧ t.dec.errCode = 4 := by decide

/-- P2 step 5's shape: count and offset little-endian, absolute. -/
theorem test_lcopy : let t := reached (step (decoding [0xFF#8, 4#8, 0#8, 1#8, 0#8] [0x41#8, 0x42#8, 0x43#8] 7))
    t.dec.sp = 5 ∧ produced t = [0x41#8, 0x42#8, 0x43#8, 0x42#8, 0x43#8, 0x42#8, 0x43#8] := by decide

/-- V-D17: with a count of 0 the offset is not checked. -/
theorem test_lcopy_of_nothing : let t := reached (step (decoding [0xFF#8, 0#8, 0#8, 9#8, 0#8] [0x41#8] 8))
    t.dec.run = .busy ∧ t.dec.sp = 5 ∧ t.dec.dp = 1 := by decide

/-- V-F1 and V-F5: no tag, and a payload cut short. -/
theorem test_truncated : (reached (step (decoding [] [] 0))).dec.errCode = 3 ∧
    (reached (step (decoding [0xFE#8, 5#8, 0#8] [] 8))).dec.errCode = 3 := by decide

/-! ### One iteration of the encoder (95_test_vectors.md) -/

/-- V-E2's first step. -/
theorem test_encoder_opens : let t := reached (step (encoding [0x41#8] [] 0 0 0 3))
    emitted t = [0x81#8, 0x41#8] ∧ t.enc.sp = 1 ∧ t.enc.runCnt = 1 ∧ t.enc.runIdx = 0 := by decide

/-- V-E3's second step: the tag is rewritten. -/
theorem test_encoder_extends : let t := reached (step (encoding [0x41#8, 0x42#8] [0x81#8, 0x41#8] 1 0 1 5))
    emitted t = [0x82#8, 0x41#8, 0x42#8] ∧ t.enc.runCnt = 2 := by decide

/-- V-E5's second step: a match that overlaps the cursor. -/
theorem test_encoder_copies : let t := reached (step (encoding [0x41#8, 0x41#8, 0x41#8, 0x41#8] [0x81#8, 0x41#8] 1 0 1 9))
    emitted t = [0x81#8, 0x41#8, 0#8, 1#8] ∧ t.enc.sp = 4 ∧ t.enc.runCnt = 0 := by decide

/-- V-E11's step at position 8: of equal matches at 0 and 4 the lower wins. -/
theorem test_encoder_prefers_lowest : (encoding [0x41#8, 0x42#8, 0x43#8, 0x78#8, 0x41#8, 0x42#8, 0x43#8, 0x79#8, 0x41#8,
    0x42#8, 0x43#8] [] 8 0 0 20).enc.decision = .copy 3 0 := by decide

/-- V-E9a: a run of 64 is a literal. -/
theorem test_encoder_below_threshold : (encoding (List.replicate 64 0x41#8) [] 0 0 0 99).enc.decision = .literal 0x41#8 := by
  decide +kernel

/-- V-E9b: a run of 65 is a fill. -/
theorem test_encoder_at_threshold :
    emitted (reached (step (encoding (List.replicate 65 0x41#8) [] 0 0 0 99))) = [0xFE#8, 0x41#8, 0#8, 0x41#8] := by
  decide +kernel

/-- V-E23's second step. -/
theorem test_encoder_exhausted : let t := reached (step (encoding [0x41#8] [0x81#8, 0x41#8] 1 0 1 2))
    t.enc.run = .err ∧ t.enc.errCode = 5 ∧ t.enc.sp = 1 ∧ t.enc.dp = 2 ∧ t.enc.runCnt = 1 := by decide

/-- V-E25's second step. -/
theorem test_encoder_end : let t := reached (step (encoding [0x41#8] [0x81#8, 0x41#8] 1 0 1 3))
    t.enc.run = .done ∧ t.enc.result = some [0x81#8, 0x41#8, 0x80#8] := by decide

/-! ### The host (95_test_vectors.md section 2.4) -/

/-- V-H1, for one register of each block. -/
theorem test_reset_reads_zero : (reached (step (asked State.reset (.readReg .dec 0x04)))).hostData = 0 ∧
    (reached (step (asked State.reset (.readReg .enc 0x1C)))).hostData = 0 := by decide

/-- V-H2: `STATUS` while `BUSY`. -/
theorem test_status_busy : (reached (step (asked (decoding [0x80#8] [] 0) (.readReg .dec 0x04)))).hostData = 0x01 := by
  decide

/-- V-H3: `STATUS` after `UnwrittenSource`. -/
theorem test_status_err : (reached (step (asked (raise .dec .unwrittenSource State.reset) (.readReg .dec 0x04)))).hostData =
    0x44 := by decide

/-- V-H4: `START` clears the code and starts over. -/
theorem test_start_after_fault : let t := reached (step (asked (raise .dec .unwrittenSource State.reset) (.writeReg .dec 0 1)))
    t.dec.run = .busy ∧ t.dec.errCode = 0 ∧ t.dec.sp = 0 ∧ t.dec.dp = 0 := by decide

/-- V-H6 and V-H7: ignored writes. -/
theorem test_ignored_writes :
    (reached (step (asked (decoding [0x80#8] [] 0) (.writeReg .dec 0x08 7)))).dec.srcLen = 1 ∧
    (reached (step (asked State.reset (.writeReg .dec 0 0xFFFFFFFE)))).dec.run = .idle := by decide

/-- 70_reset_and_hazards.md R180: a reset abandons the launch and keeps `DIN`. -/
theorem test_reset_abandons : let t := reached (step (asked (decoding [0x80#8] [] 0) .assertReset))
    t.dec.run = .idle ∧ t.dec.srcLen = 0 ∧ t.dec.dinByte 0 = 0x80#8 := by decide

/-- Log entry 7: a word placed after reset runs at the next step. -/
theorem test_placed_word : let t := reached (step (State.reset.withFetchWord 32 0x5A0000FE))
    t.dec.run = .busy ∧ t.dec.sp = 4 ∧ (reached (step (State.reset.withFetchWord 16 0x0A70))).dec.errCode = 2 := by decide

/-- `DEC` `DONE` with the result "A". -/
def decDone : State := { State.reset with dec := { Decoder.reset with run := .done, dp := 1, dout := [(0, 0x41#8)] } }

/-- `ENC` `DONE` with the stream of an empty source. -/
def encDone : State := { State.reset with enc := { Encoder.reset with run := .done, dp := 1, eout := [(0, 0x80#8)] } }

/-- 43_host_interface.md R145: the host reads a result byte. -/
theorem test_host_reads_result : (reached (step (asked decDone (.readByte .dout 0)))).hostData = 0x41 ∧
    (reached (step (asked encDone (.readByte .eout 0)))).hostData = 0x80 := by decide

/-- 70_reset_and_hazards.md R180: an engine does nothing until `START`. -/
theorem test_rest : step State.reset = .next State.reset ∧
    (reached (step { decDone with agenda := [.engine .dec] })).dec = decDone.dec := ⟨rfl, rfl⟩

/-! ### Witnesses: for each statement with hypotheses, a state and operands that meet them, clause by clause -/

/-- `DEC` at the end marker of `80`, nothing produced, no capacity. -/
def atEnd : State := decoding [0x80#8] [] 0

/-- `ENC` at the start of the source "A", with room. -/
def atStart : State := encoding [0x41#8] [] 0 0 0 3

/-- `ENC` at the end of the source "A", its literal emitted, with room. -/
def atSourceEnd : State := encoding [0x41#8] [0x81#8, 0x41#8] 1 0 1 3

theorem atEnd_moves : decoderMoves atEnd := rfl
theorem atStart_moves : encoderMoves atStart := rfl
theorem atSourceEnd_moves : encoderMoves atSourceEnd := rfl

theorem witness_OperandsAreAssembledFromTheBytes :
    (0x00#8).toNat < 0x80 ∧ (0x7F#8).toNat < 0x80 ∧
    (0x80 < (0x81#8).toNat ∧ (0x81#8).toNat < 0xC0 ∧ [0x41#8].length = (0x81#8).toNat % 64) ∧
    (0x80 < (0xBF#8).toNat ∧ (0xBF#8).toNat < 0xC0 ∧ (List.replicate 63 0x41#8).length = (0xBF#8).toNat % 64) ∧
    (0xFE#8).toNat = 0xFE ∧ (0xC0 ≤ (0xC0#8).toNat ∧ (0xC0#8).toNat < 0xFE) ∧
    (0xC0 ≤ (0xFD#8).toNat ∧ (0xFD#8).toNat < 0xFE) ∧ (0xFF#8).toNat = 0xFF := by decide

theorem witness_EveryTagBeginsAnInstructionOfItsLength :
    instrLength 0x80#8 ≤ ([] : List Byte).length + 1 ∧ instrLength 0xFF#8 ≤ [1#8, 2#8, 3#8, 4#8].length + 1 ∧
    [1#8, 2#8, 3#8].length + 1 < instrLength 0xFF#8 ∧ ([] : List Byte).length + 1 < instrLength 0x00#8 := by decide

theorem witness_OpcodesAreBuiltFromTheirOperands :
    (3 ≤ 3 ∧ 3 ≤ 10 ∧ 0 ≤ 4095) ∧ (3 ≤ 10 ∧ 10 ≤ 10 ∧ 4095 ≤ 4095) ∧
    (1 ≤ [0x41#8].length ∧ [0x41#8].length ≤ 63) ∧
    (1 ≤ (List.replicate 63 0x41#8).length ∧ (List.replicate 63 0x41#8).length ≤ 63) ∧
    65535 ≤ 65535 ∧ (3 ≤ 64 ∧ 64 ≤ 64 ∧ 65535 ≤ 65535) := by decide

theorem witness_DecodeOfEncodeIsTheInstruction : (Instr.mcopy 64 65535).wellFormed = true := by decide

theorem witness_EncodeOfDecodeIsTheBytes : decode [0x7F#8, 0xFF#8, 0x80#8] = .ok (.scopy 10 4095, [0x80#8]) := by decide

theorem atEnd_holds : atEnd.dec.holdsInstr .endMarker := by unfold Decoder.holdsInstr; decide

theorem witness_StepExecutesTheInstructionAtTheCursor : decoderMoves atEnd ∧ atEnd.dec.holdsInstr .endMarker :=
  ⟨atEnd_moves, atEnd_holds⟩

theorem witness_MissingBytesTruncateTheStream :
    (decoderMoves (decoding [] [] 0) ∧ (decoding [] [] 0).dec.srcLen.toNat ≤ (decoding [] [] 0).dec.sp.toNat) ∧
    (decoderMoves (decoding [0xFE#8, 5#8, 0#8] [] 8) ∧
      (decoding [0xFE#8, 5#8, 0#8] [] 8).dec.srcLen.toNat < (decoding [0xFE#8, 5#8, 0#8] [] 8).dec.sp.toNat +
        instrLength ((decoding [0xFE#8, 5#8, 0#8] [] 8).dec.dinByte 0)) :=
  ⟨⟨rfl, by decide⟩, rfl, by decide⟩

theorem witness_NoStreamRaisesInvalidOpcode :
    decoderMoves atEnd ∧ atEnd.dec.errCode ≠ 1 ∧ step atEnd = .next (reached (step atEnd)) :=
  ⟨atEnd_moves, by decide, rfl⟩

theorem witness_CursorsAdvanceByLengthAndCount :
    decoderMoves (decoding [0x81#8, 0x41#8] [] 1) ∧
    step (decoding [0x81#8, 0x41#8] [] 1) = .next (reached (step (decoding [0x81#8, 0x41#8] [] 1))) ∧
    (reached (step (decoding [0x81#8, 0x41#8] [] 1))).dec.run ≠ .err := ⟨rfl, rfl, by decide⟩

theorem witness_OnlyTheEndMarkerCompletesALaunch : decoderMoves atEnd ∧ step atEnd = .next (reached (step atEnd)) :=
  ⟨atEnd_moves, rfl⟩

theorem witness_CopyForwardRepeatsThePattern : 0 < 1 ∧ 0 < 4294967295 := by decide

/-- Offset 2 at `DP` 1, then offset 1 at `DP` 1 with one byte too few and with exactly enough. -/
theorem witness_ShortCopyMeaning :
    (decoding [] [0x41#8] 8).dec.dp.toNat < 2 ∧
    (1 ≤ 1 ∧ 1 ≤ (decoding [] [0x41#8] 3).dec.dp.toNat ∧
      (decoding [] [0x41#8] 3).dec.dstCap.toNat < (decoding [] [0x41#8] 3).dec.dp.toNat + 3) ∧
    (1 ≤ 1 ∧ 1 ≤ (decoding [] [0x41#8] 4).dec.dp.toNat ∧
      (decoding [] [0x41#8] 4).dec.dp.toNat + 3 ≤ (decoding [] [0x41#8] 4).dec.dstCap.toNat) := by decide

theorem witness_LiteralRunMeaning :
    (decoding [] [] 1).dec.dstCap.toNat < (decoding [] [] 1).dec.dp.toNat + [0x41#8, 0x42#8].length ∧
    (decoding [] [] 2).dec.dp.toNat + [0x41#8, 0x42#8].length ≤ (decoding [] [] 2).dec.dstCap.toNat := by decide

theorem witness_FillRunMeaning :
    (decoding [] [] 5).dec.dstCap.toNat < (decoding [] [] 5).dec.dp.toNat + 6 ∧
    (decoding [] [] 5).dec.dp.toNat + 5 ≤ (decoding [] [] 5).dec.dstCap.toNat ∧
    (decoding [] [] 0).dec.dp.toNat + 0 ≤ (decoding [] [] 0).dec.dstCap.toNat := by decide

theorem witness_MediumCopyMeaning :
    (decoding [] [0x41#8] 8).dec.dp.toNat ≤ 1 ∧
    (0 < (decoding [] [0x41#8] 3).dec.dp.toNat ∧
      (decoding [] [0x41#8] 3).dec.dstCap.toNat < (decoding [] [0x41#8] 3).dec.dp.toNat + 3) ∧
    (0 < (decoding [] [0x41#8] 4).dec.dp.toNat ∧
      (decoding [] [0x41#8] 4).dec.dp.toNat + 3 ≤ (decoding [] [0x41#8] 4).dec.dstCap.toNat) := by decide

theorem witness_LongCopyMeaning :
    (1 ≤ 1 ∧ (decoding [] [0x41#8] 8).dec.dp.toNat ≤ 1) ∧
    ((9 = 0 ∨ 0 < (decoding [] [0x41#8] 9).dec.dp.toNat) ∧
      (decoding [] [0x41#8] 9).dec.dstCap.toNat < (decoding [] [0x41#8] 9).dec.dp.toNat + 9) ∧
    ((9 = 0 ∨ 0 < (decoding [] [0x41#8] 10).dec.dp.toNat) ∧
      (decoding [] [0x41#8] 10).dec.dp.toNat + 9 ≤ (decoding [] [0x41#8] 10).dec.dstCap.toNat) ∧
    ((0 = 0 ∨ 9 < (decoding [] [0x41#8] 1).dec.dp.toNat) ∧
      (decoding [] [0x41#8] 1).dec.dp.toNat + 0 ≤ (decoding [] [0x41#8] 1).dec.dstCap.toNat) := by decide

theorem witness_EndMarkerMeaning :
    decoderMoves atEnd ∧ atEnd.dec.sp.toNat < atEnd.dec.srcLen.toNat ∧ atEnd.dec.dinByte atEnd.dec.sp.toNat = 0x80#8 :=
  ⟨rfl, by decide, by decide⟩

/-- A step that completes, one that faults, and `END`. -/
theorem witness_OpcodesChangeNothingElse :
    exec (.fill 1 0#8) (decoding [] [] 1) = .next (reached (exec (.fill 1 0#8) (decoding [] [] 1))) ∧
    exec (.fill 2 0#8) (decoding [] [] 1) = .next (raise .dec .bufferOverrun (decoding [] [] 1)) ∧
    exec .endMarker atEnd = .next (reached (exec .endMarker atEnd)) := ⟨rfl, rfl, rfl⟩

theorem witness_FaultsAreReportedInPriorityOrder :
    (decoderMoves (decoding [] [] 0) ∧ (decoding [] [] 0).dec.srcLen.toNat ≤ (decoding [] [] 0).dec.sp.toNat) ∧
    (decoderMoves (decoding [0x00#8] [] 8) ∧
      (decoding [0x00#8] [] 8).dec.sp.toNat < (decoding [0x00#8] [] 8).dec.srcLen.toNat ∧
      (decoding [0x00#8] [] 8).dec.srcLen.toNat <
        (decoding [0x00#8] [] 8).dec.sp.toNat + instrLength ((decoding [0x00#8] [] 8).dec.dinByte 0)) ∧
    (decoderMoves atEnd ∧ atEnd.dec.sp.toNat + instrLength (atEnd.dec.dinByte 0) ≤ atEnd.dec.srcLen.toNat) :=
  ⟨⟨rfl, by decide⟩, ⟨rfl, by decide, by decide⟩, rfl, by decide⟩

theorem witness_FaultEntryChangesOnlyCodeAndState :
    (step (decoding [] [] 0) = .next (reached (step (decoding [] [] 0))) ∧ decoderMoves (decoding [] [] 0) ∧
      (reached (step (decoding [] [] 0))).dec.run = .err) ∧
    (step (encoding [] [] 0 0 0 0) = .next (reached (step (encoding [] [] 0 0 0 0))) ∧
      encoderMoves (encoding [] [] 0 0 0 0) ∧ (reached (step (encoding [] [] 0 0 0 0))).enc.run = .err) :=
  ⟨⟨rfl, rfl, by decide⟩, rfl, rfl, by decide⟩

theorem witness_RunLenIsTheMaximalRun : 0 < atStart.enc.srcLen.toNat ∧
    0 + (encoding [0x41#8, 0x42#8] [] 0 0 0 9).enc.runLen 0 < (encoding [0x41#8, 0x42#8] [] 0 0 0 9).enc.srcLen.toNat := by
  decide

/-- Position 0 has no candidate, position 2 has a candidate that agrees for one byte of two; with a longer source, a
candidate at 65536 and one more than 4095 behind. -/
theorem witness_BestMatchIsTheLongestThenLowest :
    (0 < (encoding [0x41#8, 0x42#8, 0x41#8, 0x43#8] [] 0 0 0 9).enc.srcLen.toNat) ∧
    (2 < (encoding [0x41#8, 0x42#8, 0x41#8, 0x43#8] [] 0 0 0 9).enc.srcLen.toNat ∧ 0 < 2 ∧
      (encoding [0x41#8, 0x42#8, 0x41#8, 0x43#8] [] 0 0 0 9).enc.matchLen 0 2 < min (4 - 2) 65535) ∧
    (70000 < ({ Encoder.reset with srcLen := 80000 } : Encoder).srcLen.toNat ∧ 65535 < 65536 ∧ 65536 < 70000 ∧
      70000 - 65905 ≤ 4095 ∧ 4095 < 70000 - 65904) := by decide

/-- "AAAA" at position 1: a short copy; a match of 11 a medium one. A long one asks for 65 bytes of agreement. -/
theorem witness_TierIsTheFirstThatQualifies :
    (1 < (encoding (List.replicate 4 0x41#8) [] 1 0 0 9).enc.srcLen.toNat ∧
      (encoding (List.replicate 4 0x41#8) [] 1 0 0 9).enc.bestMatch 1 = (3, 0) ∧ 3 ≤ 3 ∧ 3 ≤ 10 ∧ 1 - 0 ≤ 4095) ∧
    (1 < (encoding (List.replicate 12 0x41#8) [] 1 0 0 9).enc.srcLen.toNat ∧
      (encoding (List.replicate 12 0x41#8) [] 1 0 0 9).enc.bestMatch 1 = (11, 0) ∧ 3 ≤ 11 ∧ 10 < 11 ∧ 11 ≤ 64) ∧
    (1 < (encoding (List.replicate 66 0x41#8) [] 1 0 0 9).enc.srcLen.toNat ∧
      (encoding (List.replicate 66 0x41#8) [] 1 0 0 9).enc.bestMatch 1 = (65, 0) ∧ 3 ≤ 65 ∧ 64 < 65) := by decide +kernel

theorem witness_OffsetConventionsMatchTheDecoder : (3 ≤ 10 ∧ 0 < 4095 ∧ tierFor 10 0 4095 = .scopy 10 4095) ∧
    (3 ≤ 11 ∧ 0 < 4095 ∧ tierFor 11 0 4095 = .mcopy 11 0) ∧ (3 ≤ 65 ∧ 0 < 1 ∧ tierFor 65 0 1 = .lcopy 65 0) := by decide

theorem witness_EncoderDecidesOnlyEncodableOpcodes :
    ((encoding (List.replicate 65 0x41#8) [] 0 0 0 9).enc.sp.toNat ≤
        (encoding (List.replicate 65 0x41#8) [] 0 0 0 9).enc.srcLen.toNat ∧
      (encoding (List.replicate 65 0x41#8) [] 0 0 0 9).enc.decision = .fill 65 0x41#8) ∧
    ((encoding (List.replicate 4 0x41#8) [] 1 0 0 9).enc.sp.toNat ≤
        (encoding (List.replicate 4 0x41#8) [] 1 0 0 9).enc.srcLen.toNat ∧
      (encoding (List.replicate 4 0x41#8) [] 1 0 0 9).enc.decision = .copy 3 0) := by decide +kernel

/-- A run of 65 with room for its fill, and with one byte too few. -/
theorem witness_LongRunEmitsAFill : encoderMoves (encoding (List.replicate 65 0x41#8) [] 0 0 0 4) ∧
    (encoding (List.replicate 65 0x41#8) [] 0 0 0 4).enc.sp ≠ (encoding (List.replicate 65 0x41#8) [] 0 0 0 4).enc.srcLen ∧
    65 ≤ (encoding (List.replicate 65 0x41#8) [] 0 0 0 4).enc.runLen 0 ∧
    (encoding (List.replicate 65 0x41#8) [] 0 0 0 4).enc.dp.toNat + 4 ≤
      (encoding (List.replicate 65 0x41#8) [] 0 0 0 4).enc.dstCap.toNat ∧
    (encoding (List.replicate 65 0x41#8) [] 0 0 0 3).enc.dstCap.toNat <
      (encoding (List.replicate 65 0x41#8) [] 0 0 0 3).enc.dp.toNat + 4 :=
  ⟨rfl, by decide, by decide +kernel, by decide, by decide⟩

/-- "AAAA" at its second byte, with room for the short copy, and with one byte too few. -/
theorem witness_AcceptedMatchEmitsACopy : encoderMoves (encoding (List.replicate 4 0x41#8) [0x81#8, 0x41#8] 1 0 1 4) ∧
    (encoding (List.replicate 4 0x41#8) [0x81#8, 0x41#8] 1 0 1 4).enc.sp.toNat <
      (encoding (List.replicate 4 0x41#8) [0x81#8, 0x41#8] 1 0 1 4).enc.srcLen.toNat ∧
    (encoding (List.replicate 4 0x41#8) [0x81#8, 0x41#8] 1 0 1 4).enc.runLen 1 < 65 ∧
    (encoding (List.replicate 4 0x41#8) [0x81#8, 0x41#8] 1 0 1 4).enc.bestMatch 1 = (3, 0) ∧ 3 ≤ 3 ∧
    2 = (if 3 ≤ 10 ∧ 1 - 0 ≤ 4095 then 2 else if 3 ≤ 64 then 3 else 5) ∧
    (encoding (List.replicate 4 0x41#8) [0x81#8, 0x41#8] 1 0 1 4).enc.dp.toNat + 2 ≤
      (encoding (List.replicate 4 0x41#8) [0x81#8, 0x41#8] 1 0 1 4).enc.dstCap.toNat ∧
    (encoding (List.replicate 4 0x41#8) [0x81#8, 0x41#8] 1 0 1 3).enc.dstCap.toNat <
      (encoding (List.replicate 4 0x41#8) [0x81#8, 0x41#8] 1 0 1 3).enc.dp.toNat + 2 :=
  ⟨rfl, by decide, by decide, by decide, by decide, by decide, by decide, by decide⟩

/-- "AB" at its start, with room and without; and at its second byte with a run of one open, with room and without. -/
theorem witness_LiteralOpensOrExtendsTheRun :
    (encoderMoves (encoding [0x41#8, 0x42#8] [] 0 0 0 2) ∧
      (encoding [0x41#8, 0x42#8] [] 0 0 0 2).enc.sp ≠ (encoding [0x41#8, 0x42#8] [] 0 0 0 2).enc.srcLen ∧
      (encoding [0x41#8, 0x42#8] [] 0 0 0 2).enc.runLen 0 < 65 ∧
      ((encoding [0x41#8, 0x42#8] [] 0 0 0 2).enc.bestMatch 0).1 < 3 ∧
      (encoding [0x41#8, 0x42#8] [] 0 0 0 2).enc.runCnt = 0 ∧
      (encoding [0x41#8, 0x42#8] [] 0 0 0 2).enc.dp.toNat + 2 ≤ (encoding [0x41#8, 0x42#8] [] 0 0 0 2).enc.dstCap.toNat ∧
      (encoding [0x41#8, 0x42#8] [] 0 0 0 1).enc.dstCap.toNat < (encoding [0x41#8, 0x42#8] [] 0 0 0 1).enc.dp.toNat + 2) ∧
    (encoderMoves (encoding [0x41#8, 0x42#8] [0x81#8, 0x41#8] 1 0 1 3) ∧
      (encoding [0x41#8, 0x42#8] [0x81#8, 0x41#8] 1 0 1 3).enc.sp ≠
        (encoding [0x41#8, 0x42#8] [0x81#8, 0x41#8] 1 0 1 3).enc.srcLen ∧
      (encoding [0x41#8, 0x42#8] [0x81#8, 0x41#8] 1 0 1 3).enc.runLen 1 < 65 ∧
      ((encoding [0x41#8, 0x42#8] [0x81#8, 0x41#8] 1 0 1 3).enc.bestMatch 1).1 < 3 ∧
      (encoding [0x41#8, 0x42#8] [0x81#8, 0x41#8] 1 0 1 3).enc.runCnt ≠ 0 ∧
      (encoding [0x41#8, 0x42#8] [0x81#8, 0x41#8] 1 0 1 3).enc.runCnt ≠ 63 ∧
      (encoding [0x41#8, 0x42#8] [0x81#8, 0x41#8] 1 0 1 3).enc.dp.toNat + 1 ≤
        (encoding [0x41#8, 0x42#8] [0x81#8, 0x41#8] 1 0 1 3).enc.dstCap.toNat ∧
      (encoding [0x41#8, 0x42#8] [0x81#8, 0x41#8] 1 0 1 2).enc.dstCap.toNat <
        (encoding [0x41#8, 0x42#8] [0x81#8, 0x41#8] 1 0 1 2).enc.dp.toNat + 1) :=
  ⟨⟨rfl, by decide⟩, rfl, by decide⟩

theorem witness_ExhaustedSourceEmitsTheEnd :
    (encoderMoves atSourceEnd ∧ atSourceEnd.enc.sp = atSourceEnd.enc.srcLen ∧
      atSourceEnd.enc.dp.toNat + 1 ≤ atSourceEnd.enc.dstCap.toNat) ∧
    (encoderMoves (encoding [] [] 0 0 0 0) ∧ (encoding [] [] 0 0 0 0).enc.sp = (encoding [] [] 0 0 0 0).enc.srcLen ∧
      (encoding [] [] 0 0 0 0).enc.dstCap.toNat < (encoding [] [] 0 0 0 0).enc.dp.toNat + 1) :=
  ⟨⟨rfl, by decide⟩, rfl, by decide⟩

theorem witness_EncoderFaultsExactlyWhenOutputIsFull :
    (encoderMoves atSourceEnd ∧ step atSourceEnd = .next (reached (step atSourceEnd))) ∧
    (encoderMoves (encoding [] [] 0 0 0 0) ∧
      step (encoding [] [] 0 0 0 0) = .next (raise .enc .outputExhausted (beforeEncoder (encoding [] [] 0 0 0 0)))) :=
  ⟨⟨rfl, rfl⟩, rfl, rfl⟩

/-- A state that meets the invariant and from which a launch steps: `DEC` started on an empty stream. -/
theorem witness_EveryStepKeepsTheInvariant : (launch .dec State.reset).Inv ∧
    step (launch .dec State.reset) = .next (reached (step (launch .dec State.reset))) := by
  refine ⟨⟨⟨rfl, rfl, fun _ => Nat.zero_le _, fun _ => Nat.zero_le _, fun _ a h => absurd h (Nat.not_lt_zero a),
    fun _ => rfl, by decide, fun _ _ h => (nomatch h), fun _ h => nomatch h⟩, ?_⟩, rfl⟩
  constructor <;> first | rfl | (intro h; first | cases h | rfl)

theorem witness_DecoderLaunchTerminates : atEnd.agenda = [] ∧ atEnd.dec.run = .busy := by decide

theorem witness_EncoderLaunchTerminates : atStart.agenda = [] ∧ atStart.dec.run ≠ .busy ∧ atStart.enc.run = .busy ∧
    atStart.enc.sp.toNat ≤ atStart.enc.srcLen.toNat := by decide

/-- "A" encodes to `81 41 80` in two steps, and a decoder stands ready for that stream. -/
theorem witness_DecodingTheEncodedStreamGivesTheSource :
    atStart.agenda = [] ∧ atStart.dec.run ≠ .busy ∧ atStart.enc.fresh ∧
    core.run 2 atStart = .next (reached (core.run 2 atStart)) ∧ (reached (core.run 2 atStart)).enc.run = .done ∧
    (decoding [0x81#8, 0x41#8, 0x80#8] [] 1).agenda = [] ∧ (decoding [0x81#8, 0x41#8, 0x80#8] [] 1).dec.fresh ∧
    some (decoding [0x81#8, 0x41#8, 0x80#8] [] 1).dec.stream = (reached (core.run 2 atStart)).enc.result ∧
    atStart.enc.srcLen.toNat ≤ (decoding [0x81#8, 0x41#8, 0x80#8] [] 1).dec.dstCap.toNat :=
  ⟨rfl, by decide, by unfold Encoder.fresh; decide, rfl, by decide, rfl, by unfold Decoder.fresh; decide, by decide,
    by decide⟩

theorem witness_EncodedStreamsAreCanonical : atStart.agenda = [] ∧ atStart.dec.run ≠ .busy ∧ atStart.enc.fresh ∧
    core.run 2 atStart = .next (reached (core.run 2 atStart)) ∧ (reached (core.run 2 atStart)).enc.run = .done :=
  ⟨rfl, by decide, by unfold Encoder.fresh; decide, rfl, by decide⟩

theorem witness_SufficientCapacityNeverExhausts : atStart.agenda = [] ∧ atStart.dec.run ≠ .busy ∧ atStart.enc.fresh ∧
    atStart.enc.srcLen.toNat + (atStart.enc.srcLen.toNat + 3) / 4 + 1 ≤ atStart.enc.dstCap.toNat :=
  ⟨rfl, by decide, by unfold Encoder.fresh; decide, by decide⟩

/-- Two decoders whose output spaces differ above the write cursor. -/
theorem witness_DecoderIgnoresPriorOutputContents :
    decoderMoves (decoding [0xC0#8, 0#8, 0#8] [0x41#8] 4) ∧
    decoderMoves ((decoding [0xC0#8, 0#8, 0#8] [0x41#8] 4).writeByteOf .dout 1 0x5A#8) ∧
    (decoding [0xC0#8, 0#8, 0#8] [0x41#8] 4).dec.SameLaunch
      ((decoding [0xC0#8, 0#8, 0#8] [0x41#8] 4).writeByteOf .dout 1 0x5A#8).dec ∧
    step (decoding [0xC0#8, 0#8, 0#8] [0x41#8] 4) = .next (reached (step (decoding [0xC0#8, 0#8, 0#8] [0x41#8] 4))) :=
  ⟨rfl, rfl, ⟨rfl, rfl, rfl, rfl, rfl, rfl, by decide, by decide⟩, rfl⟩

/-- Two encoders whose output spaces differ above the output cursor. -/
theorem witness_EncoderIgnoresPriorOutputContents :
    encoderMoves atSourceEnd ∧ encoderMoves (atSourceEnd.writeByteOf .eout 2 0x5A#8) ∧
    atSourceEnd.enc.SameLaunch (atSourceEnd.writeByteOf .eout 2 0x5A#8).enc ∧
    atSourceEnd.enc.sp.toNat ≤ atSourceEnd.enc.srcLen.toNat ∧ step atSourceEnd = .next (reached (step atSourceEnd)) :=
  ⟨rfl, rfl, ⟨rfl, rfl, rfl, rfl, rfl, rfl, rfl, fun _ => rfl, by decide, by decide⟩, by decide, rfl⟩

/-- Two machines at the start of the same launch, whose output spaces and other engines differ. -/
theorem witness_ALaunchIsAFunctionOfItsInputs :
    (atEnd.agenda = [] ∧ (atEnd.writeByteOf .dout 1 0x5A#8).agenda = [] ∧ atEnd.dec.fresh ∧
      (atEnd.writeByteOf .dout 1 0x5A#8).dec.fresh ∧
      atEnd.dec.stream = (atEnd.writeByteOf .dout 1 0x5A#8).dec.stream) ∧
    (atStart.agenda = [] ∧ (raise .dec .truncatedStream atStart).agenda = [] ∧ atStart.dec.run ≠ .busy ∧
      (raise .dec .truncatedStream atStart).dec.run ≠ .busy ∧ atStart.enc.fresh ∧
      (raise .dec .truncatedStream atStart).enc.fresh ∧
      atStart.enc.source = (raise .dec .truncatedStream atStart).enc.source) := by
  unfold Decoder.fresh Encoder.fresh; decide

theorem witness_EveryInterleavingGivesTheSameState :
    [Engine.dec, Engine.enc, Engine.dec].Perm [Engine.enc, Engine.dec, Engine.dec] := by decide

/-- One transition of each kind. -/
theorem witness_RunStatesChangeOnlyAsTheRuleSays :
    (step (asked State.reset (.writeReg .dec 0 1)) = .next (reached (step (asked State.reset (.writeReg .dec 0 1)))) ∧
      (reached (step (asked State.reset (.writeReg .dec 0 1)))).runOf .dec ≠ State.reset.runOf .dec) ∧
    (step atEnd = .next (reached (step atEnd)) ∧ (reached (step atEnd)).runOf .dec ≠ atEnd.runOf .dec) ∧
    (step (asked atEnd .assertReset) = .next (reached (step (asked atEnd .assertReset))) ∧
      (reached (step (asked atEnd .assertReset))).runOf .dec ≠ atEnd.runOf .dec) :=
  ⟨⟨rfl, by decide⟩, ⟨rfl, by decide⟩, rfl, by decide⟩

theorem witness_EnginesNeverWriteTheirParameters :
    (step atEnd = .next (reached (step atEnd)) ∧ decoderMoves atEnd) ∧
    (step atStart = .next (reached (step atStart)) ∧ encoderMoves atStart) := ⟨⟨rfl, rfl⟩, rfl, rfl⟩

/-- Each engine's turn; an engine that rests while the other moves; an entry for an engine that is not `BUSY`; nobody. -/
theorem witness_AStepOfOneEngineLeavesTheOther :
    (step atEnd = .next (reached (step atEnd)) ∧ decoderMoves atEnd ∧ atEnd.enc.run ≠ .busy) ∧
    (step atStart = .next (reached (step atStart)) ∧ encoderMoves atStart ∧ atStart.dec.run ≠ .busy) ∧
    (∀ m, nextTurn atEnd ≠ .host m) ∧ (∀ b, nextTurn atEnd ≠ .platform b) ∧
    ({ atEnd with agenda := [.engine .enc] } : State).runOf .enc ≠ .busy ∧
    State.reset.agenda = [] ∧ State.reset.dec.run ≠ .busy ∧ State.reset.enc.run ≠ .busy :=
  ⟨⟨rfl, rfl, by decide⟩, ⟨rfl, rfl, by decide⟩, fun _ h => (nomatch h), fun _ h => (nomatch h), by decide⟩

/-- A `BUSY` `DEC` with a kept boundary, which meets its invariant, and the host asking for the run record. -/
theorem witness_RegisterReadsFollowTheMap_runRecord :
    let s : State := { State.reset with
      dec := { Decoder.reset with run := .busy, trail := [⟨0, 0, 0, 0⟩] }
      agenda := [.host (.readReg .dec 0x18), .host (.readReg .dec 0x1C)] }
    nextTurn s = .host (.readReg .dec 0x18) ∧ nextTurn (takeEntry s) = .host (.readReg .dec 0x1C) ∧
      s.runOf .dec = .busy ∧ s.dec.Inv :=
  ⟨rfl, rfl, rfl, rfl, rfl, fun _ => Nat.zero_le _, fun _ => Nat.zero_le _, fun _ a h => absurd h (Nat.not_lt_zero a),
    fun _ => rfl, fun h => (nomatch h), by unfold cursorsBehind; intro _ c h; cases List.mem_singleton.1 h; decide,
    by intro c h; cases List.mem_singleton.1 h; decide⟩

/-- A register of an engine that rests, one of a `BUSY` engine, and offsets of no readable register. -/
theorem witness_RegisterReadsFollowTheMap :
    (nextTurn (asked State.reset (.readReg .enc 0x1C)) = .host (.readReg .enc 0x1C) ∧
      (asked State.reset (.readReg .enc 0x1C)).runOf .enc ≠ .busy) ∧
    nextTurn (asked atEnd (.readReg .dec 0x10)) = .host (.readReg .dec 0x10) ∧
    (nextTurn (asked State.reset (.readReg .dec 0x00)) = .host (.readReg .dec 0x00) ∧
      0x00 ∉ [0x04, 0x08, 0x0C, 0x10, 0x14, 0x18, 0x1C]) ∧
    (nextTurn (asked atEnd (.readReg .dec 0x20)) = .host (.readReg .dec 0x20) ∧
      0x20 ∉ [0x04, 0x08, 0x0C, 0x10, 0x14, 0x18, 0x1C]) := by decide

theorem witness_StartBeginsALaunch :
    (1 : Word).getLsbD 0 = true ∧
    (nextTurn (asked State.reset (.writeReg .dec 0x00 1)) = .host (.writeReg .dec 0x00 1) ∧
      (asked State.reset (.writeReg .dec 0x00 1)).dec.run ≠ .busy ∧
      launchPremises (asked State.reset (.writeReg .dec 0x00 1)) .dec = true) ∧
    (nextTurn (asked State.reset (.writeReg .enc 0x00 1)) = .host (.writeReg .enc 0x00 1) ∧
      (asked State.reset (.writeReg .enc 0x00 1)).enc.run ≠ .busy ∧
      launchPremises (asked State.reset (.writeReg .enc 0x00 1)) .enc = true) := by decide

theorem witness_IgnoredWritesChangeNothing :
    (nextTurn (asked atEnd (.writeReg .dec 0x08 7)) = .host (.writeReg .dec 0x08 7) ∧
      (asked atEnd (.writeReg .dec 0x08 7)).runOf .dec = .busy) ∧
    (nextTurn (asked State.reset (.writeReg .dec 0x04 7)) = .host (.writeReg .dec 0x04 7) ∧ 0x04 ∉ [0x00, 0x08, 0x0C]) ∧
    (nextTurn (asked State.reset (.writeReg .dec 0x00 6)) = .host (.writeReg .dec 0x00 6) ∧
      (6 : Word).getLsbD 0 = false) := by decide

theorem witness_LengthAndCapacityWritesAreStored :
    ((asked State.reset (.writeReg .dec 0x08 7)).dec.run ≠ .busy ∧
      nextTurn (asked State.reset (.writeReg .dec 0x08 7)) = .host (.writeReg .dec 0x08 7)) ∧
    nextTurn (asked State.reset (.writeReg .dec 0x0C 7)) = .host (.writeReg .dec 0x0C 7) ∧
    ((asked State.reset (.writeReg .enc 0x08 7)).enc.run ≠ .busy ∧
      nextTurn (asked State.reset (.writeReg .enc 0x08 7)) = .host (.writeReg .enc 0x08 7)) ∧
    nextTurn (asked State.reset (.writeReg .enc 0x0C 7)) = .host (.writeReg .enc 0x0C 7) := by decide

theorem witness_HostByteWritesReachTheirSpace :
    nextTurn (asked State.reset (.writeByte .eout 4294967295 7)) = .host (.writeByte .eout 4294967295 7) ∧
    4294967295 < 4294967296 ∧
    (asked State.reset (.writeByte .eout 4294967295 7)).runOf (spaceEngine .eout) ≠ .busy := by decide

/-- Byte 0 of a result of one byte, the first index past it, and no result; in each output space. -/
theorem witness_HostByteReadsAnswerTheByte :
    (nextTurn (asked decDone (.readByte .dout 0)) = .host (.readByte .dout 0) ∧ 0 < 4294967296 ∧
      decDone.runOf (spaceEngine .dout) ≠ .busy ∧ decDone.dec.run = .done ∧ 0 < decDone.dec.dp.toNat) ∧
    (nextTurn (asked encDone (.readByte .eout 1)) = .host (.readByte .eout 1) ∧
      encDone.runOf (spaceEngine .eout) ≠ .busy ∧ encDone.enc.run = .done ∧ 0 < encDone.enc.dp.toNat) ∧
    (raise .dec .bufferOverrun State.reset).dec.run = .err ∧ (raise .enc .outputExhausted State.reset).enc.run = .err := by
  decide

/-- Each of the four stops. -/
theorem witness_BrokenPremisesStopByName :
    (nextTurn (asked { State.reset with buffers := ⟨[(.din, .dout)], 0, 0⟩ } (.writeReg .dec 0x00 1)) =
        .host (.writeReg .dec 0x00 1) ∧ (1 : Word).getLsbD 0 = true ∧
      launchPremises (asked { State.reset with buffers := ⟨[(.din, .dout)], 0, 0⟩ } (.writeReg .dec 0x00 1)) .dec = false) ∧
    ((asked atEnd (.readByte .dout 0)).runOf (spaceEngine .dout) = .busy ∧ 0 < 4294967296 ∧
      nextTurn (asked atEnd (.readByte .dout 0)) = .host (.readByte .dout 0) ∧
      nextTurn (asked atEnd (.writeByte .dout 0 1)) = .host (.writeByte .dout 0 1)) ∧
    (nextTurn (asked State.reset (.readByte .din 4294967296)) = .host (.readByte .din 4294967296) ∧
      4294967296 ≤ 4294967296) ∧
    (nextTurn { atEnd with agenda := [.platform Buffers.reset] } = .platform Buffers.reset ∧ atEnd.dec.run = .busy) := by
  decide

/-- A reset while `DEC` is `BUSY` with a capacity of 2: index 2 is outside what the launch may have written. -/
theorem witness_AssertedResetSetsEveryRegister :
    nextTurn (asked (decoding [0x80#8] [0x41#8] 2) .assertReset) = .host .assertReset ∧
    (asked (decoding [0x80#8] [0x41#8] 2) .assertReset).dec.dout.wf = true ∧
    (asked (decoding [0x80#8] [0x41#8] 2) .assertReset).enc.eout.wf = true ∧
    (asked (decoding [0x80#8] [0x41#8] 2) .assertReset).dec.dstCap.toNat ≤ 2 ∧
    State.reset.dec.run ≠ .busy := by decide

/-- The same stream after a fault and after reset. -/
theorem witness_LaunchesForgetThePast :
    (atEnd.dec.srcLen = (raise .dec .bufferOverrun atEnd).dec.srcLen ∧
      atEnd.dec.dstCap = (raise .dec .bufferOverrun atEnd).dec.dstCap ∧
      atEnd.dec.stream = (raise .dec .bufferOverrun atEnd).dec.stream) ∧
    (atStart.enc.srcLen = (raise .enc .outputExhausted atStart).enc.srcLen ∧
      atStart.enc.dstCap = (raise .enc .outputExhausted atStart).enc.dstCap ∧
      atStart.enc.source = (raise .enc .outputExhausted atStart).enc.source) := by decide

theorem witness_APlacedWordRunsAtTheNextStep : decodeTableWord 8 0x80 = some .endMarker := by decide

end Sys2Proof.Tests
end

section
/-! The proofs for 10_state.md: an engine keeps its launch parameters (R11), and what reset leaves (R29). -/

namespace Sys2Proof.Machine

/-! ### The launch parameters of an engine (10_state.md R11)

Each operation an engine's step is made of keeps them; the step then does by the case lemmas of its turn. -/

/-- `d'` has the launch parameters of `d`: the contents of `DIN`, `SRC_LEN` and `DST_CAP` (R11). -/
def Decoder.SameParameters (d d' : Decoder) : Prop :=
  d'.din = d.din ∧ d'.srcLen = d.srcLen ∧ d'.dstCap = d.dstCap

/-- `e'` has the launch parameters of `e`: the contents of `EIN`, `SRC_LEN` and `DST_CAP` (R11). -/
def Encoder.SameParameters (e e' : Encoder) : Prop :=
  e'.ein = e.ein ∧ e'.srcLen = e.srcLen ∧ e'.dstCap = e.dstCap

theorem raise_dec_sameParameters (c : Cause) (s : State) : s.dec.SameParameters (raise .dec c s).dec :=
  ⟨raise_dec_din s c, raise_dec_srcLen s c, raise_dec_dstCap s c⟩

theorem raise_enc_sameParameters (c : Cause) (s : State) : s.enc.SameParameters (raise .enc c s).enc :=
  ⟨raise_enc_ein s c, raise_enc_srcLen s c, raise_enc_dstCap s c⟩

theorem advance_sameParameters (d : Decoder) (dout' : Memory) (count size : Nat) :
    d.SameParameters (d.advance dout' count size) :=
  ⟨advance_din d dout' count size, advance_srcLen d dout' count size, advance_dstCap d dout' count size⟩

theorem exec_sameParameters {i : Instr} {s t : State} (h : exec i s = .next t) : s.dec.SameParameters t.dec := by
  obtain ⟨c, -, hx⟩ | ⟨-, -, hx⟩ | ⟨-, hx⟩ := exec_cases i s <;> rw [hx] at h <;> cases h
  · exact raise_dec_sameParameters c s
  · exact advance_sameParameters _ _ _ _
  · exact ⟨rfl, rfl, rfl⟩

theorem step_decoder_sameParameters {s t : State} (hm : decoderMoves s) (h : step s = .next t) :
    s.dec.SameParameters t.dec := by
  obtain ⟨-, hs⟩ | ⟨i, -, hs⟩ := step_decoder_cases hm <;> rw [hs] at h
  · cases h
    exact raise_dec_sameParameters .truncatedStream (beforeDecoder s)
  · exact exec_sameParameters (s := beforeDecoder s) h

theorem emit_sameParameters {e e' : Encoder} {i : Instr} (h : e.emit i = .ok e') : e.SameParameters e' := by
  rw [Encoder.emit] at h
  split_ifs at h; cases h
  exact ⟨rfl, rfl, rfl⟩

theorem appendLiteral_sameParameters {e e' : Encoder} {b : Byte} (h : e.appendLiteral b = .ok e') :
    e.SameParameters e' := by
  rw [Encoder.appendLiteral] at h
  split_ifs at h <;> cases h
  · exact ⟨rfl, rfl, rfl⟩
  · exact ⟨rfl, rfl, rfl⟩

/-- Moving the source position after an emission keeps what the emission kept. -/
theorem map_consume_sameParameters {e e' : Encoder} {r : Except Cause Encoder} {count : Nat}
    (hr : ∀ e₁, r = .ok e₁ → e.SameParameters e₁) (h : r.map (·.consume count) = .ok e') : e.SameParameters e' := by
  cases r with
  | error c => cases h
  | ok e₁ => cases h; exact hr e₁ rfl

theorem iterate_sameParameters {e e' : Encoder} (h : e.iterate = .ok e') : e.SameParameters e' := by
  cases hd : e.decision with
  | finish =>
    rw [iterate_finish hd] at h
    split_ifs at h; cases h
    exact ⟨rfl, rfl, rfl⟩
  | fill count value =>
    rw [Encoder.iterate, hd] at h
    exact map_consume_sameParameters (fun _ => emit_sameParameters) h
  | copy length start =>
    rw [Encoder.iterate, hd] at h
    exact map_consume_sameParameters (fun _ => emit_sameParameters) h
  | literal b =>
    rw [iterate_literal hd] at h
    exact map_consume_sameParameters (fun _ => appendLiteral_sameParameters) h

/-- Everything a step of `ENC` can do: its iteration finds the output full, or it goes through. -/
theorem step_encoder_cases {s : State} (hm : encoderMoves s) :
    ((beforeEncoder s).enc.iterate = .error .outputExhausted ∧
      step s = .next (raise .enc .outputExhausted (beforeEncoder s))) ∨
    ∃ e, (beforeEncoder s).enc.iterate = .ok e ∧ step s = .next { beforeEncoder s with enc := e } := by
  rw [step_encoder hm, encoderStep]
  cases hi : (beforeEncoder s).enc.iterate with
  | error c => rw [iterate_error hi]; exact .inl ⟨rfl, rfl⟩
  | ok e => exact .inr ⟨e, rfl, rfl⟩

theorem step_encoder_sameParameters {s t : State} (hm : encoderMoves s) (h : step s = .next t) :
    s.enc.SameParameters t.enc := by
  obtain ⟨-, hs⟩ | ⟨e, hi, hs⟩ := step_encoder_cases hm <;> rw [hs] at h <;> cases h
  · exact raise_enc_sameParameters .outputExhausted (beforeEncoder s)
  · exact iterate_sameParameters (e := (beforeEncoder s).enc) hi

/-- Settles O44: every operation a step of an engine is made of keeps the engine's launch parameters. -/
theorem enginesNeverWriteTheirParameters : Obligations.EnginesNeverWriteTheirParameters :=
  fun _ _ h => ⟨fun hm => step_decoder_sameParameters hm h, fun hm => step_encoder_sameParameters hm h⟩

/-! ### Reset (10_state.md R29) -/

theorem reset_runOf (e : Engine) : State.reset.runOf e = .idle := by cases e <;> rfl

/-- Every register of either block holds 0 after reset, `STATUS` because an `IDLE` engine without an error code has no
bit set. -/
theorem reset_regValue (e : Engine) (r : Reg) : regValue State.reset e (State.reset.cursorsOf e) r = 0 := by
  cases e <;> cases r <;> rfl

/-- A read of any offset answers 0 after reset: an unlisted one always does, and a register answers its value, since no
engine is `BUSY`. -/
theorem reset_hostReadReg (e : Engine) (offset : Nat) : (hostReadReg e offset State.reset).hostData = 0 := by
  cases hr : regAt offset with
  | none => rw [hostReadReg_unlisted hr]
  | some r =>
    have hidle : State.reset.runOf e ≠ .busy := by rw [reset_runOf]; decide
    rw [hostReadReg_present hr (.inl hidle)]
    exact reset_regValue e r

/-- Settles O53: the registers by evaluation for each engine, the reads by the register map. -/
theorem resetLeavesEveryRegisterZero : Obligations.ResetLeavesEveryRegisterZero := by
  refine ⟨fun e => ?_, reset_hostReadReg⟩
  cases e with
  | dec => exact ⟨rfl, rfl, rfl, rfl, rfl⟩
  | enc => exact ⟨rfl, rfl, rfl, rfl, rfl⟩

end Sys2Proof.Machine
end

section
/-! The proofs for 30_encoding.md: what a tag's family makes of the bytes behind it (R63 to R66), and the bytes of each
opcode (R67). -/

namespace Sys2Proof

/-! ### Which tags belong to a family (30_encoding.md R64) -/

theorem familyOf_eq_scopy_iff {t : Byte} : familyOf t = .scopy ↔ t.toNat < 0x80 := by
  rw [familyOf_eq]; split_ifs <;> simp <;> omega

theorem familyOf_eq_endMarker_iff {t : Byte} : familyOf t = .endMarker ↔ t.toNat = 0x80 := by
  rw [familyOf_eq]; split_ifs <;> simp <;> omega

theorem familyOf_eq_lit_iff {t : Byte} : familyOf t = .lit ↔ 0x80 < t.toNat ∧ t.toNat < 0xC0 := by
  rw [familyOf_eq]; split_ifs <;> simp <;> omega

theorem familyOf_eq_mcopy_iff {t : Byte} : familyOf t = .mcopy ↔ 0xC0 ≤ t.toNat ∧ t.toNat < 0xFE := by
  rw [familyOf_eq]; split_ifs <;> simp <;> omega

theorem familyOf_eq_fill_iff {t : Byte} : familyOf t = .fill ↔ t.toNat = 0xFE := by
  rw [familyOf_eq]; split_ifs <;> simp <;> omega

theorem familyOf_eq_lcopy_iff {t : Byte} : familyOf t = .lcopy ↔ t.toNat = 0xFF := by
  rw [familyOf_eq]; split_ifs <;> simp <;> omega

/-! ### What the decoder answers for each family, its operands as arithmetic (30_encoding.md R66) -/

theorem decode_scopy {t : Byte} (h : familyOf t = .scopy) (b1 : Byte) (rest : List Byte) :
    decode (t :: b1 :: rest) = .ok (.scopy (t.toNat / 16 + 3) (t.toNat % 16 * 256 + b1.toNat), rest) := by
  simp only [decode, h]
  rw [shortOffset_eq, Nat.add_comm b1.toNat, Nat.mul_comm 256, Nat.shiftRight_eq_div_pow]

theorem decode_endMarker {t : Byte} (h : familyOf t = .endMarker) (rest : List Byte) :
    decode (t :: rest) = .ok (.endMarker, rest) := by
  simp only [decode, h]

theorem decode_lit {t : Byte} (h : familyOf t = .lit) {data : List Byte} (hd : data.length = t.toNat % 64)
    (rest : List Byte) : decode (t :: (data ++ rest)) = .ok (.lit data, rest) := by
  rw [← low6_eq] at hd
  simp only [decode, h, ← hd, List.length_append, Nat.le_add_right, if_true, List.take_left, List.drop_left]

theorem decode_fill {t : Byte} (h : familyOf t = .fill) (b1 b2 b3 : Byte) (rest : List Byte) :
    decode (t :: b1 :: b2 :: b3 :: rest) = .ok (.fill (b1.toNat + b2.toNat * 256) b3, rest) := by
  simp only [decode, h, le16_eq, Nat.mul_comm 256]

theorem decode_mcopy {t : Byte} (h : familyOf t = .mcopy) (b1 b2 : Byte) (rest : List Byte) :
    decode (t :: b1 :: b2 :: rest) = .ok (.mcopy (t.toNat % 64 + 3) (b1.toNat + b2.toNat * 256), rest) := by
  simp only [decode, h, le16_eq, Nat.mul_comm 256, low6_eq]

theorem decode_lcopy {t : Byte} (h : familyOf t = .lcopy) (b1 b2 b3 b4 : Byte) (rest : List Byte) :
    decode (t :: b1 :: b2 :: b3 :: b4 :: rest) =
      .ok (.lcopy (b1.toNat + b2.toNat * 256) (b3.toNat + b4.toNat * 256), rest) := by
  simp only [decode, h, le16_eq, Nat.mul_comm 256]

/-- Settles O2: the tag's range gives its family, the family's decoding lemma the operands; the ranges are those of
bytes. -/
theorem operandsAreAssembledFromTheBytes : Obligations.OperandsAreAssembledFromTheBytes := by
  intro b0 b1 b2 b3 b4 rest
  refine ⟨fun h => ⟨decode_scopy (familyOf_eq_scopy_iff.2 h) b1 rest, ?_⟩,
    fun h h' => ⟨?_, fun _ hd => decode_lit (familyOf_eq_lit_iff.2 ⟨h, h'⟩) hd rest⟩,
    fun h => ⟨decode_fill (familyOf_eq_fill_iff.2 h) b1 b2 b3 rest, ?_⟩,
    fun h h' => ⟨decode_mcopy (familyOf_eq_mcopy_iff.2 ⟨h, h'⟩) b1 b2 rest, ?_⟩,
    fun h => ⟨decode_lcopy (familyOf_eq_lcopy_iff.2 h) b1 b2 b3 b4 rest, ?_⟩⟩ <;> omega

/-! ### Every tag begins an instruction of its length (30_encoding.md R63, R65) -/

theorem instrLength_eq (t : Byte) : instrLength t =
    if t.toNat ≤ 0x7F then 2 else if t.toNat = 0x80 then 1 else if t.toNat ≤ 0xBF then 1 + t.toNat % 64
    else if t.toNat ≤ 0xFD then 3 else if t.toNat = 0xFE then 4 else 5 := by
  rw [instrLength, familyOf_eq, low6_eq]
  split_ifs <;> simp <;> omega

/-- The bytes of a present instruction decode to a well-formed one of its length, and the rest is what stands behind. -/
theorem decode_present {t : Byte} {rest : List Byte} (h : instrLength t ≤ rest.length + 1) :
    ∃ i, decode (t :: rest) = .ok (i, rest.drop (instrLength t - 1)) ∧ i.size = instrLength t ∧
      i.wellFormed = true := by
  cases hf : familyOf t <;> simp only [instrLength, hf] at h ⊢
  case scopy =>
    have ht := familyOf_eq_scopy_iff.1 hf
    obtain _ | ⟨b1, r⟩ := rest
    case cons => exact ⟨_, decode_scopy hf b1 r, rfl, (wellFormed_scopy _ _).2 (by omega)⟩
    simp at h
  case endMarker => exact ⟨_, decode_endMarker hf rest, rfl, rfl⟩
  case lit =>
    have ht := familyOf_eq_lit_iff.1 hf
    have hlen : (rest.take (low6 t)).length = t.toNat % 64 := by
      rw [List.length_take_of_le (by omega), low6_eq]
    refine ⟨.lit (rest.take (low6 t)), ?_, ?_, (wellFormed_lit _).2 (by omega)⟩
    · rw [Nat.add_sub_cancel_left, ← decode_lit hf hlen, List.take_append_drop]
    · rw [Instr.size, hlen, low6_eq]
  case fill =>
    obtain _ | ⟨b1, _ | ⟨b2, _ | ⟨b3, r⟩⟩⟩ := rest
    case cons.cons.cons => exact ⟨_, decode_fill hf b1 b2 b3 r, rfl, (wellFormed_fill _ _).2 (by omega)⟩
    all_goals simp at h
  case lcopy =>
    obtain _ | ⟨b1, _ | ⟨b2, _ | ⟨b3, _ | ⟨b4, r⟩⟩⟩⟩ := rest
    case cons.cons.cons.cons =>
      exact ⟨_, decode_lcopy hf b1 b2 b3 b4 r, rfl, (wellFormed_lcopy _ _).2 (by omega)⟩
    all_goals simp at h
  case mcopy =>
    have ht := familyOf_eq_mcopy_iff.1 hf
    obtain _ | ⟨b1, _ | ⟨b2, r⟩⟩ := rest
    case cons.cons => exact ⟨_, decode_mcopy hf b1 b2 r, rfl, (wellFormed_mcopy _ _).2 (by omega)⟩
    all_goals simp at h

/-- Too few bytes behind a tag are refused by the tag's name. -/
theorem decode_missing {t : Byte} {rest : List Byte} (h : rest.length + 1 < instrLength t) :
    decode (t :: rest) = .error (.missingPayload t) := by
  cases hf : familyOf t <;> simp only [instrLength, decode, hf] at h ⊢
  case scopy =>
    obtain _ | ⟨b1, r⟩ := rest
    case cons => simp at h
    rfl
  case endMarker => omega
  case lit => exact if_neg (by omega)
  case fill =>
    obtain _ | ⟨b1, _ | ⟨b2, _ | ⟨b3, r⟩⟩⟩ := rest
    case cons.cons.cons => simp only [List.length_cons] at h; omega
    all_goals rfl
  case lcopy =>
    obtain _ | ⟨b1, _ | ⟨b2, _ | ⟨b3, _ | ⟨b4, r⟩⟩⟩⟩ := rest
    case cons.cons.cons.cons => simp only [List.length_cons] at h; omega
    all_goals rfl
  case mcopy =>
    obtain _ | ⟨b1, _ | ⟨b2, r⟩⟩ := rest
    case cons.cons => simp only [List.length_cons] at h; omega
    all_goals rfl

/-- Settles O3, by the family of the tag. -/
theorem everyTagBeginsAnInstructionOfItsLength : Obligations.EveryTagBeginsAnInstructionOfItsLength :=
  fun t _ => ⟨instrLength_eq t, decode_present, decode_missing⟩

/-! ### The bytes of each opcode, with division and remainder (30_encoding.md R67) -/

theorem loByte_eq (v : Nat) : loByte v = BitVec.ofNat 8 (v % 256) :=
  BitVec.eq_of_toNat_eq (by rw [toNat_loByte, BitVec.toNat_ofNat, Nat.mod_mod])

theorem hiByte_eq (v : Nat) : hiByte v = BitVec.ofNat 8 (v / 256) := by
  rw [hiByte, Nat.shiftRight_eq_div_pow]

theorem encode_scopy {length offset : Nat} (h₁ : 3 ≤ length) (h₂ : length ≤ 10) (h₃ : offset ≤ 4095) :
    encode (.scopy length offset) =
      [BitVec.ofNat 8 ((length - 3) * 16 + offset / 256), BitVec.ofNat 8 (offset % 256)] := by
  have htag : BitVec.ofNat 8 (((length - 3) <<< 4) ||| (offset >>> 8)) =
      BitVec.ofNat 8 ((length - 3) * 16 + offset / 256) :=
    BitVec.eq_of_toNat_eq (by rw [toNat_tag_scopy h₁ h₂ h₃, BitVec.toNat_ofNat]; omega)
  rw [encode, htag, loByte_eq]

theorem encode_lit {data : List Byte} (h : data.length ≤ 63) :
    encode (.lit data) = BitVec.ofNat 8 (128 + data.length) :: data := by
  have htag : BitVec.ofNat 8 (0x80 ||| data.length) = BitVec.ofNat 8 (128 + data.length) :=
    BitVec.eq_of_toNat_eq (by rw [toNat_tag_lit h, BitVec.toNat_ofNat]; omega)
  rw [encode, htag]

theorem encode_fill (count : Nat) (value : Byte) : encode (.fill count value) =
    [0xFE#8, BitVec.ofNat 8 (count % 256), BitVec.ofNat 8 (count / 256), value] := by
  rw [encode, loByte_eq, hiByte_eq]

theorem encode_mcopy {length : Nat} (h : length ≤ 64) (offset : Nat) : encode (.mcopy length offset) =
    [BitVec.ofNat 8 (192 + (length - 3)), BitVec.ofNat 8 (offset % 256), BitVec.ofNat 8 (offset / 256)] := by
  have htag : BitVec.ofNat 8 (0xC0 ||| (length - 3)) = BitVec.ofNat 8 (192 + (length - 3)) :=
    BitVec.eq_of_toNat_eq (by rw [toNat_tag_mcopy (by omega), BitVec.toNat_ofNat]; omega)
  rw [encode, htag, loByte_eq, hiByte_eq]

theorem encode_lcopy (count offset : Nat) : encode (.lcopy count offset) =
    [0xFF#8, BitVec.ofNat 8 (count % 256), BitVec.ofNat 8 (count / 256), BitVec.ofNat 8 (offset % 256),
      BitVec.ofNat 8 (offset / 256)] := by
  rw [encode, loByte_eq, hiByte_eq, loByte_eq, hiByte_eq]

/-- A 16-bit field holds the number its two bytes were taken from. -/
theorem loByte_add_hiByte {v : Nat} (h : v ≤ 65535) : (loByte v).toNat + (hiByte v).toNat * 256 = v := by
  rw [toNat_loByte, toNat_hiByte]; omega

/-- Decoding is a left inverse of encoding on well-formed instructions, whatever follows in the stream (R67). -/
theorem decode_encode_append {i : Instr} (h : i.wellFormed = true) (rest : List Byte) :
    decode (encode i ++ rest) = .ok (i, rest) := by
  cases i with
  | scopy length offset =>
    obtain ⟨h₁, h₂, h₃⟩ := (wellFormed_scopy _ _).1 h
    have ht := toNat_tag_scopy h₁ h₂ h₃
    have hlength : (16 * (length - 3) + offset / 256) / 16 + 3 = length := by omega
    have hoffset : (16 * (length - 3) + offset / 256) % 16 * 256 + offset % 256 = offset := by omega
    refine (decode_scopy (familyOf_eq_scopy_iff.2 (by omega)) _ rest).trans ?_
    rw [ht, toNat_loByte, hlength, hoffset]
  | endMarker => rfl
  | lit data =>
    obtain ⟨h₁, h₂⟩ := (wellFormed_lit _).1 h
    have ht := toNat_tag_lit h₂
    exact decode_lit (familyOf_eq_lit_iff.2 (by omega)) (by omega) rest
  | fill count value =>
    refine (decode_fill (by decide) _ _ value rest).trans ?_
    rw [loByte_add_hiByte ((wellFormed_fill _ _).1 h)]
  | mcopy length offset =>
    obtain ⟨h₁, h₂, h₃⟩ := (wellFormed_mcopy _ _).1 h
    have ht := toNat_tag_mcopy (n := length - 3) (by omega)
    have hlength : (192 + (length - 3)) % 64 + 3 = length := by omega
    refine (decode_mcopy (familyOf_eq_mcopy_iff.2 (by omega)) _ _ rest).trans ?_
    rw [ht, hlength, loByte_add_hiByte h₃]
  | lcopy count offset =>
    obtain ⟨h₁, h₂⟩ := (wellFormed_lcopy _ _).1 h
    refine (decode_lcopy (by decide) _ _ _ _ rest).trans ?_
    rw [loByte_add_hiByte h₁, loByte_add_hiByte h₂]

theorem decode_encode {i : Instr} (h : i.wellFormed = true) : decode (encode i) = .ok (i, []) := by
  rw [← decode_encode_append h [], List.append_nil]

/-- Settles O4: each row's bytes by its encoding lemma, the operands back because decoding undoes encoding. -/
theorem opcodesAreBuiltFromTheirOperands : Obligations.OpcodesAreBuiltFromTheirOperands := by
  intro length offset count value data
  exact ⟨fun h₁ h₂ h₃ => ⟨encode_scopy h₁ h₂ h₃, decode_encode ((wellFormed_scopy _ _).2 ⟨h₁, h₂, h₃⟩)⟩,
    ⟨rfl, decode_encode wellFormed_endMarker⟩,
    fun h₁ h₂ => ⟨encode_lit h₂, decode_encode ((wellFormed_lit _).2 ⟨h₁, h₂⟩)⟩,
    fun h => ⟨encode_fill count value, decode_encode ((wellFormed_fill _ _).2 h)⟩,
    fun h₁ h₂ h₃ => ⟨encode_mcopy h₂ offset, decode_encode ((wellFormed_mcopy _ _).2 ⟨h₁, h₂, h₃⟩)⟩,
    fun h₁ h₂ => ⟨encode_lcopy count offset, decode_encode ((wellFormed_lcopy _ _).2 ⟨h₁, h₂⟩)⟩⟩

end Sys2Proof
end

section
/-! The proofs for 40_decoder.md: the forward copy (R82), and what each of the six opcodes does (R83 to R88). -/

namespace Sys2Proof.Machine

/-! ### The forward copy (40_decoder.md R82) -/

/-- After the first byte of a copy the pattern stands one place further on: where it wraps, its byte is the one just
copied to `dst`. -/
theorem Memory.read_write_pattern (unknown : Nat → Byte) (m : Memory) {src dst : Nat} (h : src < dst) (j : Nat) :
    (m.write dst (m.read unknown src)).read unknown (src + 1 + j % (dst - src)) =
      m.read unknown (src + (j + 1) % (dst - src)) := by
  have hlt : j % (dst - src) < dst - src := Nat.mod_lt j (by omega)
  rw [← Nat.mod_add_mod j]
  by_cases hwrap : j % (dst - src) + 1 = dst - src
  · rw [hwrap, Nat.mod_self, show src + 1 + j % (dst - src) = dst by omega, Memory.read_write_same, Nat.add_zero]
  · have hnext : j % (dst - src) + 1 < dst - src := by omega
    rw [Nat.mod_eq_of_lt hnext, Memory.read_write_other unknown m _ (by omega), Nat.add_assoc, Nat.add_comm 1]

/-- Settles O12, by induction on the length: the rest of a copy repeats the pattern the first byte leaves. -/
theorem copyForwardRepeatsThePattern : Obligations.CopyForwardRepeatsThePattern := by
  intro unknown m src dst n h a
  induction n generalizing m src dst with
  | zero => rw [if_neg (by omega)]; rfl
  | succ n ih =>
    rw [Memory.copyForward, ih _ _ _ (by omega), Nat.add_sub_add_right]
    rcases Nat.lt_trichotomy a dst with ha | rfl | ha
    · rw [if_neg (by omega), if_neg (by omega), Memory.read_write_other unknown m _ (by omega)]
    · rw [if_neg (by omega), if_pos (by omega), Memory.read_write_same, Nat.sub_self, Nat.zero_mod, Nat.add_zero]
    · rw [Memory.read_write_pattern unknown m h, Memory.read_write_other unknown m _ (by omega),
        show a - (dst + 1) + 1 = a - dst by omega]
      exact if_congr (by omega) rfl rfl

theorem Memory.read_copyForward_inside (unknown : Nat → Byte) (m : Memory) {src dst n k : Nat} (h : src < dst)
    (hk : k < n) : (m.copyForward unknown src dst n).read unknown (dst + k) =
      m.read unknown (src + k % (dst - src)) := by
  rw [copyForwardRepeatsThePattern unknown m src dst n h, if_pos (by omega), Nat.add_sub_cancel_left]

theorem Memory.read_writeList_inside (unknown : Nat → Byte) (m : Memory) (a : Nat) {vs : List Byte} {k : Nat}
    (hk : k < vs.length) : (m.writeList a vs).read unknown (a + k) = vs[k] := by
  rw [Memory.read_writeList, dif_pos (by omega)]
  simp only [Nat.add_sub_cancel_left]

/-! ### The producing opcodes (40_decoder.md R83, R85 to R88)

Each one's faults are the chain of checks of its `instrFault` lemma; where none holds, `exec` answers with
`completedDout`. -/

theorem read_completedDout_outside (i : Instr) (d : Decoder) (a : Nat)
    (h : a < d.dp.toNat ∨ d.dp.toNat + producedCount i ≤ a) :
    (completedDout i d).read d.unknownDout a = d.doutByte a := by
  rw [Memory.read, lookup_completedDout_outside i d a h]; rfl

/-- Settles O13, by the chain of the short copy's checks. -/
theorem shortCopyMeaning : Obligations.ShortCopyMeaning := by
  intro length offset s
  refine ⟨fun h => exec_fault ?_, fun h => exec_fault ?_, fun h₁ h₂ h₃ => exec_fault ?_, fun h₁ h₂ h₃ =>
    ⟨completedDout (.scopy length offset) s.dec, exec_completes nofun ?_, fun k hk => ?_,
      read_completedDout_outside (.scopy length offset) s.dec⟩⟩
  · rw [instrFault_scopy, if_pos h]
  · rw [instrFault_scopy, if_neg (by omega), if_pos h]
  · rw [instrFault_scopy, if_neg (by omega), if_neg (by omega), if_pos h₃]
  · rw [instrFault_scopy, if_neg (by omega), if_neg (by omega), if_neg (by omega)]
  · rw [completedDout, Memory.read_copyForward_inside _ _ (by omega) hk, Nat.sub_sub_self h₂]; rfl

/-- Settles O14, by the literal run's one check. -/
theorem literalRunMeaning : Obligations.LiteralRunMeaning := by
  intro data s
  refine ⟨fun h => exec_fault ?_, fun h => ⟨completedDout (.lit data) s.dec, exec_completes nofun ?_,
    fun k hk => Memory.read_writeList_inside _ _ _ hk, read_completedDout_outside (.lit data) s.dec⟩⟩
  · rw [instrFault_lit, if_pos h]
  · rw [instrFault_lit, if_neg (by omega)]

/-- Settles O15, by the fill's one check; its bytes are those of a constant list. -/
theorem fillRunMeaning : Obligations.FillRunMeaning := by
  intro count value s
  refine ⟨fun h => exec_fault ?_, fun h => ⟨completedDout (.fill count value) s.dec, exec_completes nofun ?_,
    fun k hk => ?_, read_completedDout_outside (.fill count value) s.dec, ?_⟩⟩
  · rw [instrFault_fill, if_pos h]
  · rw [instrFault_fill, if_neg (by omega)]
  · rw [completedDout, Memory.read_writeList_inside _ _ _ (by rwa [List.length_replicate]), List.getElem_replicate]
  · rintro rfl; rfl

/-- Settles O16, by the chain of the medium copy's checks. -/
theorem mediumCopyMeaning : Obligations.MediumCopyMeaning := by
  intro length offset s
  refine ⟨fun h => exec_fault ?_, fun h₁ h₂ => exec_fault ?_, fun h₁ h₂ =>
    ⟨completedDout (.mcopy length offset) s.dec, exec_completes nofun ?_,
      fun k hk => Memory.read_copyForward_inside _ _ h₁ hk,
      read_completedDout_outside (.mcopy length offset) s.dec⟩⟩
  · rw [instrFault_mcopy, if_pos h]
  · rw [instrFault_mcopy, if_neg (by omega), if_pos h₂]
  · rw [instrFault_mcopy, if_neg (by omega), if_neg (by omega)]

/-- Settles O17, by the chain of the long copy's checks; where a byte is copied the count is positive, so the offset lies
below the write cursor. -/
theorem longCopyMeaning : Obligations.LongCopyMeaning := by
  intro count offset s
  refine ⟨fun h₁ h₂ => exec_fault ?_, fun h₁ h₂ => exec_fault ?_, fun h₁ h₂ =>
    ⟨completedDout (.lcopy count offset) s.dec, exec_completes nofun ?_,
      fun k hk => Memory.read_copyForward_inside _ _ (by omega) hk,
      read_completedDout_outside (.lcopy count offset) s.dec, ?_⟩⟩
  · rw [instrFault_lcopy, if_pos ⟨h₁, h₂⟩]
  · rw [instrFault_lcopy, if_neg (by omega), if_pos h₂]
  · rw [instrFault_lcopy, if_neg (by omega), if_neg (by omega)]
  · rintro rfl; rfl

/-! ### The end marker (40_decoder.md R84), and a step at an instruction that is there (R80, R81) -/

/-- The tag an instruction's encoding begins with gives its length, for every instruction. -/
theorem tagGivesLength (i : Instr) : Laws.TagGivesLength.Statement i := by
  cases i with
  | scopy length offset => exact Laws.TagGivesLength.scopy length offset
  | endMarker => exact Laws.TagGivesLength.endMarker
  | lit data => exact Laws.TagGivesLength.lit data
  | fill count value => exact Laws.TagGivesLength.fill count value
  | mcopy length offset => exact Laws.TagGivesLength.mcopy length offset
  | lcopy count offset => exact Laws.TagGivesLength.lcopy count offset

theorem instrLength_of_holdsInstr {d : Decoder} {i : Instr} (h : d.holdsInstr i) :
    instrLength (d.dinByte d.sp.toNat) = i.size := by
  obtain ⟨hwf, -, hbytes⟩ := h
  obtain ⟨t, rest, henc, hlen, hsize⟩ := tagGivesLength i hwf
  rw [henc, ← hsize, Memory.readList] at hbytes
  rw [Decoder.dinByte, (List.cons.inj hbytes).1, hlen]

theorem fetch_of_holdsInstr {d : Decoder} {i : Instr} (h : d.holdsInstr i) : fetch d = .ok i := by
  have hlen := instrLength_of_holdsInstr h
  obtain ⟨hwf, hfit, hbytes⟩ := h
  obtain ⟨j, r, hdecode, hfetch⟩ := fetch_present (hlen ▸ hfit)
  rw [hlen, hbytes, decode_encode hwf] at hdecode
  cases hdecode
  exact hfetch

theorem step_of_holdsInstr {s : State} {i : Instr} (hm : decoderMoves s) (h : s.dec.holdsInstr i) :
    step s = exec i (beforeDecoder s) := by
  rw [step_decoder hm, decoderStep, beforeDecoder_fetch, fetch_of_holdsInstr h]

theorem holdsInstr_endMarker {d : Decoder} (h : d.sp.toNat < d.srcLen.toNat) (ht : d.dinByte d.sp.toNat = 0x80#8) :
    d.holdsInstr .endMarker :=
  ⟨wellFormed_endMarker, h, congrArg (fun t => [t]) ht⟩

/-- The two bits of `STATUS` by which a host tells a launch that is over (10_state.md R24). -/
theorem statusWord_done_bits (code : BitVec 4) :
    (statusWord .done code).getLsbD 0 = false ∧ (statusWord .done code).getLsbD 1 = true := by
  revert code; decide

/-- Settles O18: a tag 0x80 below `SRC_LEN` is an `END` that stands at the stream cursor, so the step is its `exec`. -/
theorem endMarkerMeaning : Obligations.EndMarkerMeaning := by
  refine fun s => ⟨exec_endMarker s, fun hm hlt ht => ?_⟩
  have hstep := step_of_holdsInstr hm (holdsInstr_endMarker hlt ht)
  obtain ⟨hbusy, hdone⟩ := statusWord_done_bits s.dec.errCode
  exact ⟨_, hstep, hstep.trans (exec_endMarker _), hbusy, hdone, rfl, rfl⟩

end Sys2Proof.Machine
end

section
/-! The proofs for 41_encoder_search.md: run detection (R101), the match search (R104, R106), and the tier of an accepted
match with the offset it writes (R108, R111). -/

namespace Sys2Proof.Machine

/-! ### Run detection (41_encoder_search.md R101) -/

/-- The byte a run starts at belongs to it. -/
theorem one_le_runLen (e : Encoder) {p : Nat} (h : p < e.srcLen.toNat) : 1 ≤ e.runLen p := by
  obtain ⟨k, hk⟩ : ∃ k, e.srcLen.toNat - p = k + 1 := ⟨e.srcLen.toNat - p - 1, by omega⟩
  rw [Encoder.runLen, hk, sameFrom, if_pos rfl]
  omega

/-- Settles O22: the run's scan stops only at the end of the source or at a different byte, and does not stop at its
first byte. -/
theorem runLenIsTheMaximalRun : Obligations.RunLenIsTheMaximalRun := by
  intro e p h
  obtain ⟨hle, hsame, hstop⟩ := sameFrom_spec e.einByte (e.einByte p) p (e.srcLen.toNat - p)
  exact ⟨one_le_runLen e h, hle, hsame, fun hlt => hstop (Nat.lt_sub_iff_add_lt'.2 hlt)⟩

/-! ### The match search (41_encoder_search.md R104, R106) -/

theorem matchLen_spec (e : Encoder) (c p : Nat) :
    e.matchLen c p ≤ min (e.srcLen.toNat - p) 65535 ∧
    (∀ i < e.matchLen c p, e.einByte (c + i) = e.einByte (p + i)) ∧
    (e.matchLen c p < min (e.srcLen.toNat - p) 65535 →
      e.einByte (c + e.matchLen c p) ≠ e.einByte (p + e.matchLen c p)) :=
  agreeFrom_spec e.einByte c p (matchCap e.srcLen.toNat p)

/-- A start that a 16-bit offset can name counts with its whole agreement. -/
theorem effLen_absolute (e : Encoder) {c : Nat} (p : Nat) (hc : c ≤ 65535) : e.effLen c p = e.matchLen c p :=
  if_pos hc

/-- A later start counts as far as a short copy reaches. -/
theorem effLen_short (e : Encoder) {c p : Nat} (hc : 65535 < c) (hd : p - c ≤ 4095) :
    e.effLen c p = min (e.matchLen c p) 10 :=
  (if_neg (Nat.not_le.2 hc)).trans (if_pos hd)

/-- A start that no offset can name does not count. -/
theorem effLen_unnameable (e : Encoder) {c p : Nat} (hc : 65535 < c) (hd : 4095 < p - c) : e.effLen c p = 0 :=
  (if_neg (Nat.not_le.2 hc)).trans (if_neg (Nat.not_le.2 hd))

theorem bestMatch_zero (e : Encoder) : e.bestMatch 0 = (0, 0) := rfl

theorem bestMatch_spec (e : Encoder) {p : Nat} (hp : 0 < p) : (e.bestMatch p).2 < p ∧
    e.effLen (e.bestMatch p).2 p = (e.bestMatch p).1 ∧
    ∀ c < p, e.effLen c p ≤ (e.bestMatch p).1 ∧ (c < (e.bestMatch p).2 → e.effLen c p < (e.bestMatch p).1) :=
  scanBelow_spec e.einByte e.srcLen.toNat p p hp

/-- Settles O23: the agreement by its scan, the effective length by its three clauses, the best match by the scan over
all candidates. -/
theorem bestMatchIsTheLongestThenLowest : Obligations.BestMatchIsTheLongestThenLowest := by
  refine fun e p _ => ⟨fun c _ => ?_, fun h => h ▸ bestMatch_zero e, bestMatch_spec e⟩
  obtain ⟨hle, hagree, hstop⟩ := matchLen_spec e c p
  exact ⟨hle, hagree, hstop, effLen_absolute e p, effLen_short e, effLen_unnameable e⟩

/-- A best match of at least one byte was found at a candidate: it starts before `p` and has that effective length. -/
theorem bestMatch_found {e : Encoder} {p L m : Nat} (h : e.bestMatch p = (L, m)) (hL : 0 < L) :
    m < p ∧ e.effLen m p = L := by
  rcases Nat.eq_zero_or_pos p with rfl | hp
  · rw [bestMatch_zero] at h
    cases h
    omega
  · obtain ⟨hlt, hlen, -⟩ := bestMatch_spec e hp
    rw [h] at hlt hlen
    exact ⟨hlt, hlen⟩

theorem effLen_le_matchLen (e : Encoder) (c p : Nat) : e.effLen c p ≤ e.matchLen c p := by
  rcases Nat.lt_or_ge 65535 c with hc | hc
  · rcases Nat.lt_or_ge 4095 (p - c) with hd | hd
    · rw [effLen_unnameable e hc hd]; omega
    · rw [effLen_short e hc hd]; omega
  · rw [effLen_absolute e p hc]

/-- A candidate that counts for more than a short copy can do starts where a 16-bit offset can name it: this is what
`EffLen` is for (R108, R110). -/
theorem start_le_of_effLen {e : Encoder} {c p : Nat} (hpos : 0 < e.effLen c p)
    (h : 10 < e.effLen c p ∨ 4095 < p - c) : c ≤ 65535 := by
  by_contra hc
  rcases Nat.lt_or_ge 4095 (p - c) with hd | hd
  · rw [effLen_unnameable e (by omega) hd] at hpos
    omega
  · rw [effLen_short e (by omega) hd] at h
    omega

/-! ### The tier of an accepted match (41_encoder_search.md R108) -/

theorem tierFor_scopy {L m p : Nat} (hL : L ≤ 10) (hd : p - m ≤ 4095) : tierFor L m p = .scopy L (p - m) :=
  if_pos ⟨hL, hd⟩

theorem tierFor_mcopy {L m p : Nat} (h : 10 < L ∨ 4095 < p - m) (hL : L ≤ 64) : tierFor L m p = .mcopy L m := by
  rw [tierFor, if_neg (by simp only [Config.shortMaxLen, Config.shortMaxOff]; omega), if_pos hL]

theorem tierFor_lcopy {L : Nat} (m p : Nat) (hL : 64 < L) : tierFor L m p = .lcopy L m := by
  rw [tierFor, if_neg (by simp only [Config.shortMaxLen]; omega), if_neg (Nat.not_le.2 hL)]

theorem tierFor_cases (L m p : Nat) : tierFor L m p = .scopy L (p - m) ∨ tierFor L m p = .mcopy L m ∨
    tierFor L m p = .lcopy L m := by
  rcases Nat.lt_or_ge 64 L with hlong | hL
  · exact .inr (.inr (tierFor_lcopy m p hlong))
  · by_cases h : 10 < L ∨ 4095 < p - m
    · exact .inr (.inl (tierFor_mcopy h hL))
    · exact .inl (tierFor_scopy (by omega) (by omega))

/-- Settles O24: each tier by its condition; an absolute tier is reached only with an effective length, or at a distance,
that no short copy has. -/
theorem tierIsTheFirstThatQualifies : Obligations.TierIsTheFirstThatQualifies := by
  intro e p L m _ hbest hL
  obtain ⟨hlt, hlen⟩ := bestMatch_found hbest (by omega)
  have hcap : L ≤ 65535 := by
    obtain ⟨hle, -⟩ := matchLen_spec e m p
    have := effLen_le_matchLen e m p
    omega
  refine ⟨by omega, by omega, tierFor_scopy, fun h => ⟨?_, tierFor_mcopy h, fun hlong =>
    ⟨tierFor_lcopy m p hlong, hcap⟩⟩⟩
  exact start_le_of_effLen (e := e) (p := p) (by omega) (by rwa [hlen])

/-! ### The offset each tier writes (41_encoder_search.md R111) -/

/-- A backward distance, taken back from the write cursor, is the start again. -/
theorem relativeSource_distance {m p : Nat} (h : m < p) : relativeSource p (p - m) = .ok m := by
  rw [relativeSource, if_neg (by omega), if_neg (by omega), Nat.sub_sub_self h.le]

theorem absoluteSource_ok {m p : Nat} (h : m < p) : absoluteSource p m = .ok m :=
  if_neg (Nat.not_le.2 h)

theorem longSource_ok {m p : Nat} (count : Nat) (h : m < p) : longSource p count m = .ok m := by
  rw [longSource, absoluteSource_ok h, ite_self]

/-- Settles O25: in each tier the decoder's source of that tier, at the offset the tier carries, is the start. -/
theorem offsetConventionsMatchTheDecoder : Obligations.OffsetConventionsMatchTheDecoder := by
  intro L m p _ hm
  obtain ht | ht | ht := tierFor_cases L m p <;> rw [ht]
  · exact ⟨fun _ _ h => by cases h; exact ⟨rfl, relativeSource_distance hm⟩, nofun, nofun⟩
  · exact ⟨nofun, fun _ _ h => by cases h; exact ⟨rfl, absoluteSource_ok hm⟩, nofun⟩
  · exact ⟨nofun, nofun, fun _ _ h => by cases h; exact ⟨rfl, longSource_ok L hm⟩⟩

end Sys2Proof.Machine
end

section
/-! The proofs for 42_encoder_emit.md: the capacity check before every emission (R126), and what a step of `ENC` writes
for each of its decisions (R121, R122, R124, R128). -/

namespace Sys2Proof.Machine

/-! ### What a write leaves to read -/

theorem Memory.read_write (unknown : Nat → Byte) (m : Memory) (a c : Nat) (v : Byte) :
    (m.write a v).read unknown c = if c = a then v else m.read unknown c := by
  split_ifs with h
  · rw [h, Memory.read_write_same]
  · exact m.read_write_other unknown v h

theorem Memory.read_writeList_outside (unknown : Nat → Byte) (m : Memory) (a : Nat) {vs : List Byte} {c : Nat}
    (h : c < a ∨ a + vs.length ≤ c) : (m.writeList a vs).read unknown c = m.read unknown c := by
  rw [Memory.read_writeList, dif_neg (by omega)]

theorem Memory.read_writeList_of_getElem? (unknown : Nat → Byte) (m : Memory) (a : Nat) {vs : List Byte} {k : Nat}
    {v : Byte} (h : vs[k]? = some v) : (m.writeList a vs).read unknown (a + k) = v := by
  obtain ⟨hk, hv⟩ := List.getElem?_eq_some_iff.1 h
  rw [Memory.read_writeList_inside unknown m a hk, hv]

theorem Memory.readList_writeList (unknown : Nat → Byte) (m : Memory) (a : Nat) (vs : List Byte) :
    (m.writeList a vs).readList unknown a vs.length = vs :=
  List.ext_getElem (Memory.length_readList ..) fun k _ hk => by
    rw [Memory.getElem_readList, Memory.read_writeList_inside unknown m a hk]

/-! ### The four decisions by their conditions (41_encoder_search.md R100, R102, R107) -/

theorem decision_finish {e : Encoder} (h : e.sp = e.srcLen) : e.decision = .finish := if_pos h

theorem decision_fill {e : Encoder} (h : e.sp ≠ e.srcLen) (hrun : 65 ≤ e.runLen e.sp.toNat) :
    e.decision = .fill (min (e.runLen e.sp.toNat) 65535) (e.einByte e.sp.toNat) :=
  (if_neg h).trans (if_pos hrun)

theorem decision_copy {e : Encoder} {L m : Nat} (h : e.sp ≠ e.srcLen) (hrun : e.runLen e.sp.toNat < 65)
    (hbest : e.bestMatch e.sp.toNat = (L, m)) (hL : 3 ≤ L) : e.decision = .copy L m := by
  rw [Encoder.decision, if_neg h, if_neg (Nat.not_le.2 hrun), hbest, if_pos hL]

theorem decision_literal {e : Encoder} (h : e.sp ≠ e.srcLen) (hrun : e.runLen e.sp.toNat < 65)
    (hbest : (e.bestMatch e.sp.toNat).1 < 3) : e.decision = .literal (e.einByte e.sp.toNat) := by
  rw [Encoder.decision, if_neg h, if_neg (Nat.not_le.2 hrun), if_neg (Nat.not_le.2 hbest)]

/-! ### The capacity check (42_encoder_emit.md R126) -/

/-- How many bytes the emission `ENC` has decided on appends to the stream: the `size` of R126. -/
def Encoder.emissionSize (e : Encoder) : Nat :=
  match e.decision with
  | .finish => 1
  | .fill _ _ => 4
  | .copy length start => (tierFor length start e.sp.toNat).size
  | .literal _ => if e.runCnt = 0 ∨ e.runCnt = 63 then 2 else 1

section
variable {e : Encoder}

theorem emissionSize_finish (hd : e.decision = .finish) : e.emissionSize = 1 := by
  rw [Encoder.emissionSize, hd]

theorem emissionSize_fill {count : Nat} {value : Byte} (hd : e.decision = .fill count value) :
    e.emissionSize = 4 := by
  rw [Encoder.emissionSize, hd]

theorem emissionSize_copy {length start : Nat} (hd : e.decision = .copy length start) :
    e.emissionSize = (tierFor length start e.sp.toNat).size := by
  rw [Encoder.emissionSize, hd]

theorem emissionSize_opening {b : Byte} (hd : e.decision = .literal b) (hr : e.runCnt = 0 ∨ e.runCnt = 63) :
    e.emissionSize = 2 := by
  rw [Encoder.emissionSize, hd]; exact if_pos hr

theorem emissionSize_extending {b : Byte} (hd : e.decision = .literal b) (hr : ¬(e.runCnt = 0 ∨ e.runCnt = 63)) :
    e.emissionSize = 1 := by
  rw [Encoder.emissionSize, hd]; exact if_neg hr

theorem iterate_opening {b : Byte} (hd : e.decision = .literal b) (hr : e.runCnt = 0 ∨ e.runCnt = 63)
    (h : e.dp.toNat + 2 ≤ e.dstCap.toNat) : e.iterate = .ok (Encoder.consume { e with
      runIdx := e.dp
      eout := e.eout.writeList e.dp.toNat [0x81#8, b]
      dp := e.dp + 2
      runCnt := 1 } 1) := by
  rw [iterate_literal hd, appendLiteral_opens hr h]; rfl

theorem iterate_extending {b : Byte} (hd : e.decision = .literal b) (hr : ¬(e.runCnt = 0 ∨ e.runCnt = 63))
    (h : e.dp.toNat + 1 ≤ e.dstCap.toNat) : e.iterate = .ok (Encoder.consume { e with
      eout := (e.eout.write e.dp.toNat b).write e.runIdx.toNat (runTag (e.runCnt + 1))
      dp := e.dp + 1
      runCnt := e.runCnt + 1 } 1) := by
  rw [iterate_literal hd, appendLiteral_extends hr h]; rfl

/-- Whatever was decided, an iteration without room for it fails. -/
theorem iterate_full (h : e.dstCap.toNat < e.dp.toNat + e.emissionSize) : e.iterate = .error .outputExhausted := by
  cases hd : e.decision with
  | finish =>
    rw [emissionSize_finish hd] at h
    exact (iterate_finish hd).trans (if_neg (Nat.not_le.2 h))
  | fill count value =>
    rw [emissionSize_fill hd] at h
    exact (iterate_fill hd).trans (if_neg (Nat.not_le.2 h))
  | copy length start =>
    rw [emissionSize_copy hd] at h
    exact (iterate_copy hd).trans (if_neg (Nat.not_le.2 h))
  | literal b =>
    rw [iterate_literal hd]
    by_cases hr : e.runCnt = 0 ∨ e.runCnt = 63
    · rw [emissionSize_opening hd hr] at h
      rw [appendLiteral_opens_full hr h]; rfl
    · rw [emissionSize_extending hd hr] at h
      rw [appendLiteral_extends_full hr h]; rfl

/-- With room for what was decided an iteration goes through; only the end marker changes the state of the engine. -/
theorem iterate_fits (h : e.dp.toNat + e.emissionSize ≤ e.dstCap.toNat) :
    ∃ e', e.iterate = .ok e' ∧ e'.run = if e.decision = .finish then .done else e.run := by
  cases hd : e.decision with
  | finish =>
    rw [emissionSize_finish hd] at h
    exact ⟨_, (iterate_finish hd).trans (if_pos h), rfl⟩
  | fill count value =>
    rw [emissionSize_fill hd] at h
    exact ⟨_, (iterate_fill hd).trans (if_pos h), rfl⟩
  | copy length start =>
    rw [emissionSize_copy hd] at h
    exact ⟨_, (iterate_copy hd).trans (if_pos h), rfl⟩
  | literal b =>
    by_cases hr : e.runCnt = 0 ∨ e.runCnt = 63
    · rw [emissionSize_opening hd hr] at h
      exact ⟨_, iterate_opening hd hr h, rfl⟩
    · rw [emissionSize_extending hd hr] at h
      exact ⟨_, iterate_extending hd hr h, rfl⟩

end

theorem step_encoder_full {s : State} (hm : encoderMoves s)
    (h : s.enc.dstCap.toNat < s.enc.dp.toNat + s.enc.emissionSize) :
    step s = .next (raise .enc .outputExhausted (beforeEncoder s)) := by
  rw [step_encoder hm, encoderStep, iterate_full (e := (beforeEncoder s).enc) h]

theorem step_encoder_ok {s : State} {e : Encoder} (hm : encoderMoves s) (h : (beforeEncoder s).enc.iterate = .ok e) :
    step s = .next { beforeEncoder s with enc := e } := by
  rw [step_encoder hm, encoderStep, h]

/-- Settles O31: without room for what was decided the iteration fails, with room it leaves the engine `DONE` or as it
was, `BUSY`. -/
theorem encoderFaultsExactlyWhenOutputIsFull : Obligations.EncoderFaultsExactlyWhenOutputIsFull := by
  intro s t hm hs
  rcases Nat.lt_or_ge s.enc.dstCap.toNat (s.enc.dp.toNat + s.enc.emissionSize) with hfull | hfits
  · rw [step_encoder_full hm hfull] at hs
    cases hs
    exact ⟨⟨fun _ => hfull, fun _ => rfl⟩, fun _ => ⟨rfl, rfl, rfl, rfl, rfl, rfl⟩⟩
  · obtain ⟨e, hi, hrun⟩ := iterate_fits (e := (beforeEncoder s).enc) hfits
    rw [step_encoder_ok hm hi] at hs
    cases hs
    have hbusy : (beforeEncoder s).enc.run = .busy := busy_of_encoderMoves (s := s) hm
    have hne : e.run ≠ .err := by
      rw [hrun, hbusy]
      split_ifs <;> decide
    exact ⟨iff_of_false hne (Nat.not_lt.2 hfits), fun herr => absurd herr hne⟩

/-! ### The emissions (42_encoder_emit.md R121, R122, R124, R128)

Where there is no room each is `step_encoder_full`; where there is, the step is the iteration of that decision, and what
the stream then holds is read from the bytes written. -/

/-- Settles O30: the emission is the one byte of the end marker. -/
theorem exhaustedSourceEmitsTheEnd : Obligations.ExhaustedSourceEmitsTheEnd := by
  intro s hm hsp
  have hd := decision_finish hsp
  refine ⟨fun h => step_encoder_full hm (by rwa [emissionSize_finish hd]), fun h => ?_⟩
  refine ⟨s.enc.eout.writeList s.enc.dp.toNat [0x80#8],
    step_encoder_ok hm ((iterate_finish (e := (beforeEncoder s).enc) hd).trans (if_pos h)), ?_, fun a ha => ?_⟩
  · exact Memory.read_writeList_of_getElem? _ _ _ (k := 0) rfl
  · exact Memory.read_writeList_outside _ _ _ (Nat.lt_or_gt_of_ne ha)

/-- Settles O27: the bytes are those of the fill's row, whose count fits its two bytes. -/
theorem longRunEmitsAFill : Obligations.LongRunEmitsAFill := by
  intro s hm hsp hrun
  have hd := decision_fill hsp hrun
  have hcount : min (s.enc.runLen s.enc.sp.toNat) 65535 ≤ 65535 := Nat.min_le_right ..
  generalize min (s.enc.runLen s.enc.sp.toNat) 65535 = count at hd hcount ⊢
  refine ⟨fun h => step_encoder_full hm (by rwa [emissionSize_fill hd]), fun h => ?_⟩
  refine ⟨s.enc.eout.writeList s.enc.dp.toNat [0xFE#8, loByte count, hiByte count, s.enc.einByte s.enc.sp.toNat],
    step_encoder_ok hm ((iterate_fill (e := (beforeEncoder s).enc) hd).trans (if_pos h)), ?_, ?_, ?_, ?_, fun a ha => ?_⟩
  · exact Memory.read_writeList_of_getElem? _ _ _ (k := 0) rfl
  · rw [Memory.read_writeList_of_getElem? _ _ _ rfl, toNat_loByte]
  · rw [Memory.read_writeList_of_getElem? _ _ _ rfl, toNat_hiByte]
    exact Nat.mod_eq_of_lt (by omega)
  · exact Memory.read_writeList_of_getElem? _ _ _ rfl
  · exact Memory.read_writeList_outside _ _ _ ha

theorem size_tierFor (L m p : Nat) :
    (tierFor L m p).size = if L ≤ 10 ∧ p - m ≤ 4095 then 2 else if L ≤ 64 then 3 else 5 := by
  split_ifs with hshort hmed
  · obtain ⟨hL, hd⟩ := hshort
    rw [tierFor_scopy hL hd]; rfl
  · rw [tierFor_mcopy (by omega) hmed]; rfl
  · rw [tierFor_lcopy m p (by omega)]; rfl

theorem encode_tierFor {L : Nat} (m p : Nat) (h : 3 ≤ L) : encode (tierFor L m p) =
    if L ≤ 10 ∧ p - m ≤ 4095 then
      [BitVec.ofNat 8 ((L - 3) * 16 + (p - m) / 256), BitVec.ofNat 8 ((p - m) % 256)]
    else if L ≤ 64 then [BitVec.ofNat 8 (0xC0 + (L - 3)), BitVec.ofNat 8 (m % 256), BitVec.ofNat 8 (m / 256)]
    else [0xFF#8, BitVec.ofNat 8 (L % 256), BitVec.ofNat 8 (L / 256), BitVec.ofNat 8 (m % 256),
      BitVec.ofNat 8 (m / 256)] := by
  split_ifs with hshort hmed
  · obtain ⟨hL, hd⟩ := hshort
    rw [tierFor_scopy hL hd, encode_scopy h hL hd]
  · rw [tierFor_mcopy (by omega) hmed, encode_mcopy hmed]
  · rw [tierFor_lcopy m p (by omega), encode_lcopy]

/-- Settles O28: the emission is the opcode of the match's tier, whose size and bytes the tier's two lemmas give. -/
theorem acceptedMatchEmitsACopy : Obligations.AcceptedMatchEmitsACopy := by
  intro s L m size hm hlt hrun hbest hL hsize
  have hd := decision_copy (fun heq => hlt.ne (congrArg BitVec.toNat heq)) hrun hbest hL
  rw [← size_tierFor] at hsize
  subst hsize
  refine ⟨fun h => step_encoder_full hm (by rwa [emissionSize_copy hd]), fun h => ?_⟩
  refine ⟨s.enc.eout.writeList s.enc.dp.toNat (encode (tierFor L m s.enc.sp.toNat)),
    step_encoder_ok hm ((iterate_copy (e := (beforeEncoder s).enc) hd).trans (if_pos h)), fun a ha => ?_, ?_⟩
  · rw [← encode_length] at ha
    exact Memory.read_writeList_outside _ _ _ ha
  · rw [← encode_tierFor m _ hL, ← encode_length]
    exact Memory.readList_writeList _ _ _ _

/-- The tag of a run with one byte more: a run that is not full still counts in the tag's six bits. -/
theorem runTag_succ {n : BitVec 6} (h : n ≠ 63) : runTag (n + 1) = BitVec.ofNat 8 (0x80 + (n.toNat + 1)) := by
  have hn : n.toNat + 1 ≤ 63 := by bv_omega
  have hsucc : (n + 1).toNat = n.toNat + 1 := by bv_omega
  apply BitVec.eq_of_toNat_eq
  rw [runTag, hsucc, toNat_tag_lit hn, BitVec.toNat_ofNat]
  omega

/-- Settles O29: the run record decides between a tag with its first byte and a byte with the open run's tag rewritten. -/
theorem literalOpensOrExtendsTheRun : Obligations.LiteralOpensOrExtendsTheRun := by
  intro s hm hsp hrun hbest
  have hd := decision_literal hsp hrun hbest
  refine ⟨fun hr => ⟨fun h => step_encoder_full hm (by rwa [emissionSize_opening hd hr]), fun h => ?_⟩,
    fun hclosed hnotfull => ?_⟩
  · refine ⟨s.enc.eout.writeList s.enc.dp.toNat [0x81#8, s.enc.einByte s.enc.sp.toNat],
      step_encoder_ok hm (iterate_opening (e := (beforeEncoder s).enc) hd hr h), ?_, ?_, fun a ha => ?_⟩
    · exact Memory.read_writeList_of_getElem? _ _ _ (k := 0) rfl
    · exact Memory.read_writeList_of_getElem? _ _ _ rfl
    · exact Memory.read_writeList_outside _ _ _ ha
  · have hr : ¬(s.enc.runCnt = 0 ∨ s.enc.runCnt = 63) := not_or.2 ⟨hclosed, hnotfull⟩
    refine ⟨fun h => step_encoder_full hm (by rwa [emissionSize_extending hd hr]), fun h => ?_⟩
    refine ⟨_, step_encoder_ok hm (iterate_extending (e := (beforeEncoder s).enc) hd hr h), fun a => ?_⟩
    rw [Memory.read_write, Memory.read_write, ← runTag_succ hnotfull]
    rfl

end Sys2Proof.Machine
end

section
/-! The proofs for 43_host_interface.md: what a register read answers (R141), and what a register write does or ignores
(R142 to R144). -/

namespace Sys2Proof.Machine

/-! ### The register map, from registers to offsets (10_state.md R26) -/

/-- The byte offset of a register in its engine's block (10_state.md R26). -/
def Reg.offset : Reg → Nat
  | .ctrl => 0x00
  | .status => 0x04
  | .srcLen => 0x08
  | .dstCap => 0x0C
  | .sp => 0x10
  | .dp => 0x14
  | .runIdx => 0x18
  | .runCnt => 0x1C

theorem regAt_offset (r : Reg) : regAt r.offset = some r := by cases r <;> rfl

theorem offset_of_regAt {offset : Nat} {r : Reg} (h : regAt offset = some r) : offset = r.offset := by
  unfold regAt at h
  split at h <;> cases h <;> rfl

/-! ### Register reads (43_host_interface.md R141) -/

/-- The cursors a read answers from: those of some step boundary while the engine is `BUSY`, else the current ones. -/
def answeringCursors (s : State) (e : Engine) : Cursors :=
  if s.runOf e = .busy then boundaryRead s e else s.cursorsOf e

theorem answeringCursors_mem (s : State) (e : Engine) : answeringCursors s e ∈ s.cursorsOf e :: s.trailOf e := by
  unfold answeringCursors
  split
  · exact boundaryRead_mem s e
  · exact List.mem_cons_self

/-- `DEC` has no run record, now or at any boundary it kept (10_state.md R26). -/
theorem answeringCursors_dec_runRecord {s : State} (h : s.dec.Inv) :
    (answeringCursors s .dec).runIdx = 0 ∧ (answeringCursors s .dec).runCnt = 0 :=
  have hall : ∀ c ∈ s.cursorsOf .dec :: s.trailOf .dec, c.runIdx = 0 ∧ c.runCnt = 0 :=
    List.forall_mem_cons.2 ⟨⟨rfl, rfl⟩, h.trailRunRecord⟩
  hall _ (answeringCursors_mem s .dec)

theorem regValue_of_not_isCursor {r : Reg} (h : r.isCursor = false) (s : State) (e : Engine) (c c' : Cursors) :
    regValue s e c r = regValue s e c' r := by
  cases r with
  | ctrl | status | srcLen | dstCap => rfl
  | sp | dp | runIdx | runCnt => cases h

theorem hostReadReg_hostData {offset : Nat} {r : Reg} (hr : regAt offset = some r) (e : Engine) (s : State) :
    (hostReadReg e offset s).hostData = regValue s e (answeringCursors s e) r := by
  by_cases hb : s.runOf e = .busy
  · cases hc : r.isCursor with
    | true => rw [hostReadReg_busy hr hb hc, answeringCursors, if_pos hb]
    | false =>
      rw [hostReadReg_present hr (.inr hc)]
      exact regValue_of_not_isCursor hc s e _ _
  · rw [hostReadReg_present hr (.inl hb), answeringCursors, if_neg hb]

/-- A read changes the host's answer and the count of free choices at most. -/
theorem hostReadReg_frame (e : Engine) (offset : Nat) (s : State) :
    ∃ answer reads, hostReadReg e offset s = { s with hostData := answer, busyReads := reads } := by
  unfold hostReadReg
  split
  · exact ⟨_, _, rfl⟩
  · split <;> exact ⟨_, _, rfl⟩

theorem hostReadReg_zero_of_no_value {offset : Nat} (h : offset ∉ [0x04, 0x08, 0x0C, 0x10, 0x14, 0x18, 0x1C])
    (e : Engine) (s : State) : (hostReadReg e offset s).hostData = 0 := by
  by_cases h0 : offset = 0x00
  · exact hostReadReg_hostData (r := .ctrl) (h0 ▸ rfl) e s
  · rw [hostReadReg_unlisted (regAt_unlisted (List.not_mem_cons_of_ne_of_not_mem h0 h))]

/-- Settles O46: a listed offset answers its register's value with the answering cursors, and a read has no effect but
the answer. -/
theorem registerReadsFollowTheMap : Obligations.RegisterReadsFollowTheMap := by
  intro s e offset hturn
  have hread : ∀ r : Reg, offset = r.offset →
      (hostReadReg e offset (takeEntry s)).hostData = regValue s e (answeringCursors s e) r :=
    fun r ho => hostReadReg_hostData (ho ▸ regAt_offset r) e (takeEntry s)
  obtain ⟨answer, reads, hframe⟩ := hostReadReg_frame e offset (takeEntry s)
  refine ⟨hostReadReg e offset (takeEntry s), answeringCursors s e, step_host hturn, answeringCursors_mem s e,
    fun hb => if_neg hb, by rw [hframe]; rfl, by rw [hframe]; rfl, by rw [hframe]; rfl, by rw [hframe]; rfl,
    ?status, hread .srcLen, hread .dstCap, hread .sp, hread .dp, hread .runIdx, ?runCnt, ?noRunRecord,
    fun ho => hostReadReg_zero_of_no_value ho e _⟩
  case status =>
    intro ho
    rw [hread .status ho]
    exact statusWord_toNat _ _
  case runCnt =>
    intro ho
    rw [hread .runCnt ho]
    exact BitVec.toNat_setWidth_of_le (by decide)
  case noRunRecord =>
    rintro hinv rfl ho
    obtain ⟨hidx, hcnt⟩ := answeringCursors_dec_runRecord hinv
    obtain ho | ho := ho
    · rw [hread .runIdx ho]
      exact hidx
    · rw [hread .runCnt ho, regValue, hcnt]
      rfl

/-! ### Register writes (43_host_interface.md R142 to R144) -/

section Writes

variable {e : Engine} {offset : Nat} {v : Word} {s : State}

theorem hostWriteReg_ctrl (hb : s.runOf e ≠ .busy) : hostWriteReg e 0x00 v s = writeCtrl e v s := by
  rw [hostWriteReg, if_neg hb]
  rfl

theorem hostWriteReg_ctrl_start (hb : s.runOf e ≠ .busy) (hv : v.getLsbD 0 = true)
    (hp : launchPremises s e = true) : hostWriteReg e 0x00 v s = .next (launch e s) := by
  rw [hostWriteReg_ctrl hb, writeCtrl, if_pos hv, if_pos hp]

theorem hostWriteReg_ctrl_clear (hv : v.getLsbD 0 = false) : hostWriteReg e 0x00 v s = .next s := by
  by_cases hb : s.runOf e = .busy
  · exact hostWriteReg_busy hb
  · rw [hostWriteReg_ctrl hb, writeCtrl, if_neg (Bool.eq_false_iff.1 hv)]

theorem hostWriteReg_srcLen (hb : s.runOf e ≠ .busy) : hostWriteReg e 0x08 v s = .next (writeSrcLen e v s) := by
  rw [hostWriteReg, if_neg hb]
  rfl

theorem hostWriteReg_dstCap (hb : s.runOf e ≠ .busy) : hostWriteReg e 0x0C v s = .next (writeDstCap e v s) := by
  rw [hostWriteReg, if_neg hb]
  rfl

theorem hostWriteReg_not_writable (h : offset ∉ [0x00, 0x08, 0x0C]) : hostWriteReg e offset v s = .next s := by
  by_cases hb : s.runOf e = .busy
  · exact hostWriteReg_busy hb
  · rw [hostWriteReg, if_neg hb]
    split
    case h_1 hr | h_2 hr | h_3 hr => simp [offset_of_regAt hr, Reg.offset] at h
    case h_4 => rfl

end Writes

/-- Settles O48: the three reasons to ignore a write, each by its lemma. -/
theorem ignoredWritesChangeNothing : Obligations.IgnoredWritesChangeNothing := by
  intro s e offset v hturn hignored
  rw [step_host hturn]
  obtain hb | ho | ⟨rfl, hv⟩ := hignored
  · exact hostWriteReg_busy (s := takeEntry s) hb
  · exact hostWriteReg_not_writable ho
  · exact hostWriteReg_ctrl_clear hv

/-- Settles O47: a `START` whose premises hold is the launch of the engine. -/
theorem startBeginsALaunch : Obligations.StartBeginsALaunch :=
  fun s _ hv =>
    ⟨fun hturn hb hp => (step_host hturn).trans (hostWriteReg_ctrl_start (e := .dec) (s := takeEntry s) hb hv hp),
     fun hturn hb hp => (step_host hturn).trans (hostWriteReg_ctrl_start (e := .enc) (s := takeEntry s) hb hv hp)⟩

/-- Settles O49: either register of either engine by the write's lemma. -/
theorem lengthAndCapacityWritesAreStored : Obligations.LengthAndCapacityWritesAreStored :=
  fun s _ =>
    ⟨fun hb =>
      ⟨fun hturn => (step_host hturn).trans (hostWriteReg_srcLen (e := .dec) (s := takeEntry s) hb),
       fun hturn => (step_host hturn).trans (hostWriteReg_dstCap (e := .dec) (s := takeEntry s) hb)⟩,
     fun hb =>
      ⟨fun hturn => (step_host hturn).trans (hostWriteReg_srcLen (e := .enc) (s := takeEntry s) hb),
       fun hturn => (step_host hturn).trans (hostWriteReg_dstCap (e := .enc) (s := takeEntry s) hb)⟩⟩

end Sys2Proof.Machine
end

section
/-! The proofs for 60_exceptions.md: the missing bytes of a stream (R151), the order of the faults of `DEC` (R154,
R158), and fault entry of either engine (R160). -/

namespace Sys2Proof.Machine

/-! ### The instruction at the stream cursor (30_encoding.md R64, 40_decoder.md R81)

Bytes that decode are the encoding of what they decode to, so where the tag and its payload are there, an instruction
stands at the stream cursor. -/

/-- The low byte of a 16-bit field is its first byte (20_memory.md R41). -/
theorem loByte_of_bytes (lo hi : Byte) : loByte (lo.toNat + hi.toNat * 256) = lo :=
  BitVec.eq_of_toNat_eq (by rw [toNat_loByte]; omega)

/-- The high byte of a 16-bit field is its second byte (20_memory.md R41). -/
theorem hiByte_of_bytes (lo hi : Byte) : hiByte (lo.toNat + hi.toNat * 256) = hi :=
  BitVec.eq_of_toNat_eq (by rw [toNat_hiByte]; omega)

/-- What a present tag and its payload decode to is encoded by those bytes, by the family of the tag. -/
theorem encode_of_decode {t : Byte} {bytes rest : List Byte} {i : Instr} (h : instrLength t ≤ bytes.length + 1)
    (hd : decode (t :: bytes) = .ok (i, rest)) : encode i ++ rest = t :: bytes := by
  cases hf : familyOf t <;> simp only [instrLength, hf] at h
  case scopy =>
    have ht := familyOf_eq_scopy_iff.1 hf
    obtain _ | ⟨b1, r⟩ := bytes
    case cons =>
      cases (decode_scopy hf b1 r).symm.trans hd
      have htag : BitVec.ofNat 8 ((t.toNat / 16 + 3 - 3) * 16 + (t.toNat % 16 * 256 + b1.toNat) / 256) = t := by
        bv_omega
      have hpayload : BitVec.ofNat 8 ((t.toNat % 16 * 256 + b1.toNat) % 256) = b1 := by bv_omega
      rw [encode_scopy (by omega) (by omega) (by omega), htag, hpayload]
      rfl
    simp at h
  case endMarker =>
    cases (decode_endMarker hf bytes).symm.trans hd
    obtain rfl : t = 0x80#8 := BitVec.eq_of_toNat_eq (familyOf_eq_endMarker_iff.1 hf)
    rfl
  case lit =>
    have ht := familyOf_eq_lit_iff.1 hf
    have hlen : (bytes.take (low6 t)).length = t.toNat % 64 := by
      rw [List.length_take_of_le (by omega), low6_eq]
    have htag : BitVec.ofNat 8 (128 + t.toNat % 64) = t := by bv_omega
    have hlit := decode_lit hf hlen (bytes.drop (low6 t))
    rw [List.take_append_drop] at hlit
    cases hlit.symm.trans hd
    rw [encode_lit (by omega), hlen, htag, List.cons_append, List.take_append_drop]
  case fill =>
    obtain _ | ⟨b1, _ | ⟨b2, _ | ⟨b3, r⟩⟩⟩ := bytes
    case cons.cons.cons =>
      cases (decode_fill hf b1 b2 b3 r).symm.trans hd
      obtain rfl : t = 0xFE#8 := BitVec.eq_of_toNat_eq (familyOf_eq_fill_iff.1 hf)
      rw [encode, loByte_of_bytes, hiByte_of_bytes]
      rfl
    all_goals simp at h
  case lcopy =>
    obtain _ | ⟨b1, _ | ⟨b2, _ | ⟨b3, _ | ⟨b4, r⟩⟩⟩⟩ := bytes
    case cons.cons.cons.cons =>
      cases (decode_lcopy hf b1 b2 b3 b4 r).symm.trans hd
      obtain rfl : t = 0xFF#8 := BitVec.eq_of_toNat_eq (familyOf_eq_lcopy_iff.1 hf)
      rw [encode, loByte_of_bytes, hiByte_of_bytes, loByte_of_bytes, hiByte_of_bytes]
      rfl
    all_goals simp at h
  case mcopy =>
    have ht := familyOf_eq_mcopy_iff.1 hf
    obtain _ | ⟨b1, _ | ⟨b2, r⟩⟩ := bytes
    case cons.cons =>
      cases (decode_mcopy hf b1 b2 r).symm.trans hd
      have htag : BitVec.ofNat 8 (192 + (t.toNat % 64 + 3 - 3)) = t := by bv_omega
      rw [encode_mcopy (by omega), htag, ← loByte_eq, ← hiByte_eq, loByte_of_bytes, hiByte_of_bytes]
      rfl
    all_goals simp at h

/-- Where the tag and its payload lie below `SRC_LEN`, some instruction stands at the stream cursor. -/
theorem exists_holdsInstr {d : Decoder}
    (h : d.sp.toNat + instrLength (d.dinByte d.sp.toNat) ≤ d.srcLen.toNat) : ∃ i, d.holdsInstr i := by
  obtain ⟨n, hn⟩ : ∃ n, instrLength (d.dinByte d.sp.toNat) = n + 1 :=
    Nat.exists_eq_add_one.2 (instrLength_pos _)
  have hpresent : instrLength (d.dinByte d.sp.toNat) ≤ (d.din.readList unknownDin (d.sp.toNat + 1) n).length + 1 := by
    rw [Memory.length_readList, hn]
  obtain ⟨i, hdecode, hsize, hwf⟩ := decode_present hpresent
  have hbytes := encode_of_decode hpresent hdecode
  rw [hn, Nat.add_sub_cancel, List.drop_of_length_le (Memory.length_readList ..).le, List.append_nil] at hbytes
  refine ⟨i, hwf, hsize ▸ h, ?_⟩
  rw [hsize, hn, hbytes]
  rfl

/-! ### What a step of `DEC` can do to its code and state -/

/-- An instruction without a fault keeps the code; only the end marker changes the state of the engine. -/
theorem exec_of_no_fault {i : Instr} {s : State} (h : instrFault s.dec i = none) :
    ∃ t, exec i s = .next t ∧ t.dec.errCode = s.dec.errCode ∧
      t.dec.run = if i = .endMarker then .done else s.dec.run := by
  by_cases hi : i = .endMarker
  · subst hi
    exact ⟨_, exec_endMarker s, rfl, (if_pos rfl).symm⟩
  · exact ⟨_, exec_completes hi h, advance_errCode .., (advance_run ..).trans (if_neg hi).symm⟩

theorem step_decoder_truncated {s : State} (hm : decoderMoves s) (h : s.dec.srcLen.toNat ≤ s.dec.sp.toNat ∨
    s.dec.srcLen.toNat < s.dec.sp.toNat + instrLength (s.dec.dinByte s.dec.sp.toNat)) :
    step s = .next (raise .dec .truncatedStream (beforeDecoder s)) := by
  rw [step_decoder hm, decoderStep, beforeDecoder_fetch, fetch_truncated h]

/-- A step of `DEC` is the fault entry of a cause that a rule raises, or it keeps the code and does not end in `ERR`. -/
theorem step_decoder_raises_or_keeps {s t : State} (hm : decoderMoves s) (hs : step s = .next t) :
    (∃ c, c ≠ .invalidOpcode ∧ t = raise .dec c (beforeDecoder s)) ∨
      (t.dec.errCode = s.dec.errCode ∧ t.dec.run ≠ .err) := by
  obtain ⟨-, hstep⟩ | ⟨i, -, hstep⟩ := step_decoder_cases hm <;> rw [hstep] at hs
  · cases hs
    exact .inl ⟨.truncatedStream, nofun, rfl⟩
  · cases hfault : instrFault (beforeDecoder s).dec i with
    | some c =>
      rw [exec_fault hfault] at hs
      cases hs
      exact .inl ⟨c, by obtain rfl | rfl := instrFault_cause hfault <;> nofun, rfl⟩
    | none =>
      obtain ⟨t', hexec, hcode, hrun⟩ := exec_of_no_fault hfault
      rw [hexec] at hs
      cases hs
      have hbusy : (beforeDecoder s).dec.run = .busy := busy_of_decoderMoves (s := s) hm
      refine .inr ⟨hcode, ?_⟩
      rw [hrun, hbusy]
      split_ifs <;> nofun

theorem causeCode_ne_one {c : Cause} (h : c ≠ .invalidOpcode) : causeCode c ≠ 1 := by
  revert h; cases c <;> decide

/-! ### The obligations -/

/-- Settles O8: in either case the fetch answers `TruncatedStream`, and the step is its fault entry. -/
theorem missingBytesTruncateTheStream : Obligations.MissingBytesTruncateTheStream :=
  fun _ hm h => step_decoder_truncated hm h

/-- Settles O9: a cause that is raised is not `InvalidOpcode`, and a step that raises none keeps the code. -/
theorem noStreamRaisesInvalidOpcode : Obligations.NoStreamRaisesInvalidOpcode := by
  intro s t hm hcode hs
  obtain ⟨c, hc, rfl⟩ | ⟨hkept, -⟩ := step_decoder_raises_or_keeps hm hs
  · exact causeCode_ne_one hc
  · rwa [hkept]

/-- Settles O20: the fetch makes the first two checks; behind it the step is `exec` of the instruction that stands
there, which faults as `instrFault` orders. -/
theorem faultsAreReportedInPriorityOrder : Obligations.FaultsAreReportedInPriorityOrder := by
  refine fun s hm => ⟨fun h => step_decoder_truncated hm (.inl h), fun _ h => step_decoder_truncated hm (.inr h),
    fun h => ?_⟩
  obtain ⟨i, hi⟩ := exists_holdsInstr h
  have hstep := step_of_holdsInstr hm hi
  refine ⟨i, hi, fun c hc => hstep.trans (exec_fault hc), fun hnone => ?_⟩
  obtain ⟨t, hexec, hcode, hrun⟩ := exec_of_no_fault (s := beforeDecoder s) hnone
  have hbusy : (beforeDecoder s).dec.run = .busy := busy_of_decoderMoves (s := s) hm
  exact ⟨t, hstep.trans hexec, hcode, hbusy ▸ hrun⟩

/-- Settles O21: a step that ends in `ERR` is a fault entry, of `ENC` because its output is full; and an engine that
moves is `BUSY`. -/
theorem faultEntryChangesOnlyCodeAndState : Obligations.FaultEntryChangesOnlyCodeAndState := by
  refine fun s t hs => ⟨fun hm herr => ?_, fun hm herr => ?_, fun herr hm => ?_, fun herr hm => ?_⟩
  · obtain ⟨c, -, ht⟩ | ⟨-, hne⟩ := step_decoder_raises_or_keeps hm hs
    · exact ⟨c, ht⟩
    · exact absurd herr hne
  · obtain ⟨hfull, -⟩ := encoderFaultsExactlyWhenOutputIsFull s t hm hs
    rw [step_encoder_full hm (hfull.1 herr)] at hs
    cases hs
    exact ⟨.outputExhausted, rfl⟩
  · cases herr.symm.trans (busy_of_decoderMoves hm)
  · cases herr.symm.trans (busy_of_encoderMoves hm)

end Sys2Proof.Machine
end

section
/-! The proofs for 70_reset_and_hazards.md: which step of `DEC` ends a launch (R188), and what reset does to the registers
and the spaces (R180). -/

namespace Sys2Proof.Machine

/-! ### The run state a step of `DEC` ends in (R188) -/

theorem holdsInstr_endMarker_iff {d : Decoder} : d.holdsInstr .endMarker ↔
    d.sp.toNat < d.srcLen.toNat ∧ d.dinByte d.sp.toNat = 0x80#8 := by
  refine ⟨fun ⟨_, hfit, hbytes⟩ => ⟨hfit, ?_⟩, fun ⟨hlt, htag⟩ => holdsInstr_endMarker hlt htag⟩
  rw [Instr.size, Memory.readList] at hbytes
  exact (List.cons.inj hbytes).1

/-- The run state after a step at an instruction that is there, however full the destination. -/
theorem run_of_holdsInstr {s t : State} {i : Instr} (hm : decoderMoves s) (hs : step s = .next t)
    (hi : s.dec.holdsInstr i) : t.dec.run =
      if instrFault s.dec i = none then (if i = .endMarker then .done else .busy) else .err := by
  rw [step_of_holdsInstr hm hi] at hs
  cases hfault : instrFault s.dec i with
  | some c =>
    rw [exec_fault (s := beforeDecoder s) hfault] at hs
    cases hs
    rfl
  | none =>
    obtain ⟨t', hexec, -, hrun⟩ := exec_of_no_fault (s := beforeDecoder s) hfault
    rw [hexec] at hs
    cases hs
    have hbusy : (beforeDecoder s).dec.run = .busy := busy_of_decoderMoves (s := s) hm
    rw [hrun, hbusy, if_pos rfl]

/-- A step that does not fault has found its instruction, since missing bytes are a fault. -/
theorem exists_holdsInstr_of_run_ne_err {s t : State} (hm : decoderMoves s) (hs : step s = .next t)
    (hrun : t.dec.run ≠ .err) : ∃ i, s.dec.holdsInstr i := by
  refine exists_holdsInstr (Nat.not_lt.1 fun hmissing => hrun ?_)
  rw [step_decoder_truncated hm (.inr hmissing)] at hs
  cases hs
  rfl

theorem run_done_iff {s t : State} (hm : decoderMoves s) (hs : step s = .next t) :
    t.dec.run = .done ↔ s.dec.holdsInstr .endMarker := by
  refine ⟨fun hdone => ?_, fun hi => ?_⟩
  · obtain ⟨i, hi⟩ := exists_holdsInstr_of_run_ne_err hm hs (by rw [hdone]; nofun)
    rw [run_of_holdsInstr hm hs hi] at hdone
    split_ifs at hdone with hfault hend
    exact hend ▸ hi
  · rw [run_of_holdsInstr hm hs hi, if_pos (instrFault_endMarker _), if_pos rfl]

theorem run_busy_iff {s t : State} (hm : decoderMoves s) (hs : step s = .next t) :
    t.dec.run = .busy ↔ ∃ i, s.dec.holdsInstr i ∧ i ≠ .endMarker ∧ instrFault s.dec i = none := by
  refine ⟨fun hbusy => ?_, fun ⟨i, hi, hend, hfault⟩ => ?_⟩
  · obtain ⟨i, hi⟩ := exists_holdsInstr_of_run_ne_err hm hs (by rw [hbusy]; nofun)
    rw [run_of_holdsInstr hm hs hi] at hbusy
    split_ifs at hbusy with hfault hend
    exact ⟨i, hi, hend, hfault⟩
  · rw [run_of_holdsInstr hm hs hi, if_pos hfault, if_neg hend]

/-- Settles O11: the run state after the step tells whether an instruction stood at the stream cursor, whether it
faulted and whether it was `END`. -/
theorem onlyTheEndMarkerCompletesALaunch : Obligations.OnlyTheEndMarkerCompletesALaunch :=
  fun _ _ hm hs => ⟨(run_done_iff hm hs).trans holdsInstr_endMarker_iff, run_busy_iff hm hs⟩

/-! ### Reset (R180) -/

/-- Abandoning a launch is not felt at or above its `DST_CAP`, neither in the known bytes nor in the unknown ones
(93_implementation_defined.md U9). -/
theorem Memory.read_forgetBelow {m : Memory} {cap : Word} {a : Nat} (space : Space) (lost : List Word)
    (hwf : m.wf = true) (ha : cap.toNat ≤ a) :
    (m.forgetBelow cap.toNat).read (fun b => Config.unwrittenByte space (lossesAt (cap :: lost) b) b) a =
      m.read (fun b => Config.unwrittenByte space (lossesAt lost b) b) a := by
  rw [Memory.read, Memory.lookup_forgetBelow _ hwf, if_pos ha, lossesAt_cons ha]
  rfl

theorem afterReset_dec_busy {d : Decoder} (h : d.run = .busy) : d.afterReset = { Decoder.reset with
    din := d.din
    dout := d.dout.forgetBelow d.dstCap.toNat
    doutLost := d.dstCap :: d.doutLost } := by
  rw [Decoder.afterReset, h]

theorem afterReset_dec_not_busy {d : Decoder} (h : d.run ≠ .busy) : d.afterReset =
    { Decoder.reset with din := d.din, dout := d.dout, doutLost := d.doutLost } := by
  rw [Decoder.afterReset]
  split
  case h_1 hb => exact absurd hb h
  case h_2 => rfl

theorem afterReset_enc_busy {e : Encoder} (h : e.run = .busy) : e.afterReset = { Encoder.reset with
    ein := e.ein
    eout := e.eout.forgetBelow e.dstCap.toNat
    eoutLost := e.dstCap :: e.eoutLost } := by
  rw [Encoder.afterReset, h]

theorem afterReset_enc_not_busy {e : Encoder} (h : e.run ≠ .busy) : e.afterReset =
    { Encoder.reset with ein := e.ein, eout := e.eout, eoutLost := e.eoutLost } := by
  rw [Encoder.afterReset]
  split
  case h_1 hb => exact absurd hb h
  case h_2 => rfl

theorem afterReset_dinByte (d : Decoder) : d.afterReset.dinByte = d.dinByte := by
  obtain ⟨dout, lost, h⟩ := afterReset_dec d
  rw [h]
  rfl

theorem afterReset_einByte (e : Encoder) : e.afterReset.einByte = e.einByte := by
  obtain ⟨eout, lost, h⟩ := afterReset_enc e
  rw [h]
  rfl

theorem afterReset_doutByte {d : Decoder} {a : Nat} (hwf : d.dout.wf = true)
    (h : d.run ≠ .busy ∨ d.dstCap.toNat ≤ a) : d.afterReset.doutByte a = d.doutByte a := by
  by_cases hb : d.run = .busy
  · rw [afterReset_dec_busy hb]
    exact Memory.read_forgetBelow .dout d.doutLost hwf (h.resolve_left (not_not_intro hb))
  · rw [afterReset_dec_not_busy hb]
    rfl

theorem afterReset_eoutByte {e : Encoder} {a : Nat} (hwf : e.eout.wf = true)
    (h : e.run ≠ .busy ∨ e.dstCap.toNat ≤ a) : e.afterReset.eoutByte a = e.eoutByte a := by
  by_cases hb : e.run = .busy
  · rw [afterReset_enc_busy hb]
    exact Memory.read_forgetBelow .eout e.eoutLost hwf (h.resolve_left (not_not_intro hb))
  · rw [afterReset_enc_not_busy hb]
    rfl

/-- Every register of either engine has its value of 10_state.md R29 after reset. -/
theorem assertReset_registers (s : State) (e : Engine) :
    (assertReset s).runOf e = .idle ∧ (assertReset s).errCodeOf e = 0 ∧ (assertReset s).srcLenOf e = 0 ∧
      (assertReset s).dstCapOf e = 0 ∧ (assertReset s).cursorsOf e = ⟨0, 0, 0, 0⟩ := by
  cases e with
  | dec =>
    obtain ⟨dout, lost, h⟩ := afterReset_dec s.dec
    rw [assertReset, h]
    exact ⟨rfl, rfl, rfl, rfl, rfl⟩
  | enc =>
    obtain ⟨eout, lost, h⟩ := afterReset_enc s.enc
    rw [assertReset, h]
    exact ⟨rfl, rfl, rfl, rfl, rfl⟩

/-- Settles O52: the step is the reset of both engines, whose registers and spaces the lemmas above give. -/
theorem assertedResetSetsEveryRegister : Obligations.AssertedResetSetsEveryRegister :=
  fun s hturn hdout heout =>
    ⟨assertReset (takeEntry s), step_host hturn, assertReset_registers (takeEntry s),
      fun a => ⟨congrFun (afterReset_dinByte s.dec) a, congrFun (afterReset_einByte s.enc) a⟩,
      fun _ => afterReset_doutByte hdout, fun _ => afterReset_eoutByte heout⟩

end Sys2Proof.Machine
end

section
/-! The proofs for 30_encoding.md that join the two directions of the code (R60, R64, R67): decoding undoes encoding,
what decodes is an encoding, and a step at an instruction is its `exec`, also at a word the host places (log entry 7).
-/

namespace Sys2Proof

/-- Settles O1: each word is decoded by evaluation. -/
theorem wordsFromTheSpecDecode : Obligations.WordsFromTheSpecDecode :=
  ⟨rfl, rfl, rfl, rfl, rfl, rfl, rfl, rfl⟩

/-- Settles O5, by the tag each instruction is encoded with. -/
theorem decodeOfEncodeIsTheInstruction : Obligations.DecodeOfEncodeIsTheInstruction :=
  fun _ rest h => decode_encode_append h rest

/-- Bytes that decode begin with a tag whose whole payload is there. -/
theorem present_of_decode {bs rest : List Byte} {i : Instr} (h : decode bs = .ok (i, rest)) :
    ∃ t bytes, bs = t :: bytes ∧ instrLength t ≤ bytes.length + 1 := by
  cases bs with
  | nil => cases h
  | cons t bytes =>
    refine ⟨t, bytes, rfl, Nat.not_lt.1 fun hmissing => ?_⟩
    rw [decode_missing hmissing] at h
    cases h

/-- Settles O6: the payload behind the tag is there, so the tag's family says what the bytes decode to. -/
theorem encodeOfDecodeIsTheBytes : Obligations.EncodeOfDecodeIsTheBytes := by
  intro bs i rest h
  obtain ⟨t, bytes, rfl, hpresent⟩ := present_of_decode h
  obtain ⟨j, hj, -, hwf⟩ := decode_present hpresent
  cases hj.symm.trans h
  exact ⟨hwf, Machine.encode_of_decode hpresent h, encode_length i⟩

end Sys2Proof

namespace Sys2Proof.Machine

/-- Settles O7: the fetch answers the instruction that stands at the stream cursor. -/
theorem stepExecutesTheInstructionAtTheCursor : Obligations.StepExecutesTheInstructionAtTheCursor :=
  fun _ _ hm hi => step_of_holdsInstr hm hi

/-! ### A word the host places (log entry 7) -/

theorem length_tableBytes (nbits w : Nat) : (tableBytes nbits w).length = 64 := by
  rw [tableBytes, List.length_map, List.length_range]

theorem decodeTableWord_eq_some {nbits w : Nat} {i : Instr} (h : decodeTableWord nbits w = some i) :
    ∃ rest, decode (tableBytes nbits w) = .ok (i, rest) := by
  unfold decodeTableWord at h
  split at h
  · rename_i j rest hdecode
    cases h
    exact ⟨rest, hdecode⟩
  · cases h

/-- The longest instruction fits in the index space behind the place chosen for it. -/
theorem placeIndex_lt (d : Decoder) : placeIndex d + 64 < 2 ^ 32 := by
  unfold placeIndex
  split
  · assumption
  · decide

/-- The front of what has just been written reads as the front of the bytes written. -/
theorem Memory.readList_writeList_front (unknown : Nat → Byte) (m : Memory) (a : Nat) (vs ws : List Byte) :
    (m.writeList a (vs ++ ws)).readList unknown a vs.length = vs :=
  List.ext_getElem (Memory.length_readList ..) fun k _ hk => by
    rw [Memory.getElem_readList, Memory.read_writeList_inside unknown m a (by rw [List.length_append]; omega),
      List.getElem_append_left hk]

/-- Bytes that begin with the encoding of an instruction put that instruction at the stream cursor. -/
theorem holdsInstr_placeFetch {i : Instr} (hwf : i.wellFormed = true) {rest : List Byte} (s : State)
    (hlen : (encode i ++ rest).length = 64) : (placeFetch (encode i ++ rest) s).dec.holdsInstr i := by
  have hplace := placeIndex_lt s.dec
  have hsrc := s.dec.srcLen.isLt
  have hsp : (placeFetch (encode i ++ rest) s).dec.sp.toNat = placeIndex s.dec :=
    Nat.mod_eq_of_lt (by omega)
  have hend : (placeFetch (encode i ++ rest) s).dec.srcLen.toNat = max s.dec.srcLen.toNat (placeIndex s.dec + 64) := by
    rw [← hlen]
    exact Nat.mod_eq_of_lt (by omega)
  have hsize : i.size ≤ 64 := by
    rw [← encode_length, ← hlen, List.length_append]
    omega
  refine ⟨hwf, by omega, ?_⟩
  rw [hsp, ← encode_length]
  exact Memory.readList_writeList_front _ _ _ _ _

/-- Settles O55: the word's bytes are the encoding of the instruction they decode to and some rest, so the placed
instruction stands at the stream cursor of a `BUSY` engine whose turn it is. -/
theorem aPlacedWordRunsAtTheNextStep : Obligations.APlacedWordRunsAtTheNextStep := by
  intro s nbits w i h
  obtain ⟨rest, hdecode⟩ := decodeTableWord_eq_some h
  obtain ⟨hwf, hbytes, -⟩ := encodeOfDecodeIsTheBytes _ _ _ hdecode
  have hlen : (encode i ++ rest).length = 64 := by rw [hbytes, length_tableBytes]
  have hmoves : decoderMoves (s.withFetchWord nbits w) := rfl
  refine ⟨hmoves, step_of_holdsInstr hmoves ?_, rfl⟩
  rw [State.withFetchWord, ← hbytes]
  exact holdsInstr_placeFetch hwf s hlen

end Sys2Proof.Machine
end

section
/-! The proofs for the machine as a whole (10_state.md R10, R24, 60_exceptions.md R164): a turn of an engine is a
function of that engine alone, so turns of the two engines commute, and what else a step can do is a move of the host
or the platform. -/

namespace Sys2Proof.Machine

/-! ### The step of an engine as a function of the engine alone -/

/-- `DEC` with its step boundary kept (43_host_interface.md R141), as its step finds it. -/
def Decoder.kept (d : Decoder) : Decoder := { d with trail := ⟨d.sp, d.dp, 0, 0⟩ :: d.trail }

/-- `ENC` with its step boundary kept (43_host_interface.md R141), as its step finds it. -/
def Encoder.kept (e : Encoder) : Encoder := { e with trail := ⟨e.sp, e.dp, e.runIdx, e.runCnt⟩ :: e.trail }

/-- Fault entry of `DEC` (60_exceptions.md R160). -/
def Decoder.faulted (c : Cause) (d : Decoder) : Decoder := { d with errCode := causeCode c, run := .err }

/-- Fault entry of `ENC` (60_exceptions.md R160). -/
def Encoder.faulted (c : Cause) (e : Encoder) : Encoder := { e with errCode := causeCode c, run := .err }

/-- `DEC` after an instruction that does not fault: `END` completes the launch, any other appends its bytes. -/
def Decoder.completed (i : Instr) (d : Decoder) : Decoder :=
  if i = .endMarker then { d with sp := d.sp + 1, run := .done }
  else d.advance (completedDout i d) (producedCount i) i.size

/-- `DEC` after `exec` of an instruction. -/
def Decoder.executed (i : Instr) (d : Decoder) : Decoder :=
  match instrFault d i with
  | some c => d.faulted c
  | none => d.completed i

/-- `DEC` after its step. -/
def Decoder.stepped (d : Decoder) : Decoder :=
  match fetch d with
  | .ok i => d.kept.executed i
  | .error c => d.kept.faulted c

/-- `ENC` after its step. -/
def Encoder.stepped (e : Encoder) : Encoder :=
  match e.kept.iterate with
  | .ok e' => e'
  | .error c => e.kept.faulted c

theorem exec_eq_executed (i : Instr) (s : State) : exec i s = .next { s with dec := s.dec.executed i } := by
  obtain ⟨c, hfault, hexec⟩ | ⟨hfault, hend, hexec⟩ | ⟨rfl, hexec⟩ := exec_cases i s <;> rw [hexec]
  · rw [Decoder.executed, hfault]; rfl
  · rw [Decoder.executed, hfault, Decoder.completed, if_neg hend]
  · rfl

theorem step_eq_stepped_dec {s : State} (hm : decoderMoves s) :
    step s = .next { takeEntry s with dec := s.dec.stepped } := by
  rw [step_decoder hm, decoderStep, beforeDecoder_fetch, Decoder.stepped]
  cases fetch s.dec with
  | ok i => exact exec_eq_executed i (beforeDecoder s)
  | error c => rfl

theorem step_eq_stepped_enc {s : State} (hm : encoderMoves s) :
    step s = .next { takeEntry s with enc := s.enc.stepped } := by
  rw [step_encoder hm, encoderStep, Encoder.stepped, show (beforeEncoder s).enc = s.enc.kept from rfl]
  cases s.enc.kept.iterate with
  | ok e => rfl
  | error c => rfl

/-- Everything a step of the machine can do. -/
theorem step_cases {s t : State} (h : step s = .next t) :
    (decoderMoves s ∧ t = { takeEntry s with dec := s.dec.stepped }) ∨
    (encoderMoves s ∧ t = { takeEntry s with enc := s.enc.stepped }) ∨
    (∃ m, nextTurn s = .host m ∧ hostMove m (takeEntry s) = .next t) ∨
    (∃ b, nextTurn s = .platform b ∧ t = { takeEntry s with buffers := b }) ∨
    (nextTurn s = .rest ∧ t = takeEntry s) := by
  cases hturn : nextTurn s with
  | decoder => rw [step_eq_stepped_dec hturn] at h; cases h; exact .inl ⟨hturn, rfl⟩
  | encoder => rw [step_eq_stepped_enc hturn] at h; cases h; exact .inr (.inl ⟨hturn, rfl⟩)
  | host m => rw [step_host hturn] at h; exact .inr (.inr (.inl ⟨m, rfl, h⟩))
  | platform b =>
    rw [step_platform hturn, platformMove] at h
    split_ifs at h; cases h
    exact .inr (.inr (.inr (.inl ⟨b, rfl, rfl⟩)))
  | rest => rw [step_rest hturn] at h; cases h; exact .inr (.inr (.inr (.inr ⟨rfl, rfl⟩)))

/-! ### Isolation of the engines (10_state.md R10) -/

theorem takeEntry_of_agenda_nil {s : State} (h : s.agenda = []) : takeEntry s = s := by
  rw [takeEntry, h, List.tail_nil, ← h]

/-- Settles O45: the step of an engine writes that engine only, and a step that is nobody's only takes its entry. -/
theorem aStepOfOneEngineLeavesTheOther : Obligations.AStepOfOneEngineLeavesTheOther := by
  refine fun s => ⟨fun t h => ⟨fun hm => ?_, fun hm => ?_, fun hhost hplatform => ?_⟩, fun e later ha hidle => ?_,
    fun ha hd he => ?_⟩
  · rw [step_eq_stepped_dec hm] at h; cases h; rfl
  · rw [step_eq_stepped_enc hm] at h; cases h; rfl
  · obtain ⟨hm, rfl⟩ | ⟨hm, rfl⟩ | ⟨m, hturn, -⟩ | ⟨b, hturn, -⟩ | ⟨-, rfl⟩ := step_cases h
    · exact ⟨fun hd => absurd (busy_of_decoderMoves hm) hd, fun _ => rfl⟩
    · exact ⟨fun _ => rfl, fun he => absurd (busy_of_encoderMoves hm) he⟩
    · exact absurd hturn (hhost m)
    · exact absurd hturn (hplatform b)
    · exact ⟨fun _ => rfl, fun _ => rfl⟩
  · rw [step_rest (rest_of_idle_entry ha hidle), takeEntry, ha, List.tail_cons]
  · rw [step_rest (rest_of_not_busy ha hd he), takeEntry_of_agenda_nil ha]

/-! ### Interleavings (60_exceptions.md R164) -/

/-- The machine after a turn of an engine, which does nothing while the engine is not `BUSY`. -/
def State.afterTurn (s : State) : Engine → State
  | .dec => { s with dec := if s.dec.run = .busy then s.dec.stepped else s.dec }
  | .enc => { s with enc := if s.enc.run = .busy then s.enc.stepped else s.enc }

theorem nextTurn_engine_entry (s : State) (e : Engine) (later : List Action) :
    nextTurn { s with agenda := .engine e :: later } = engineTurn s e := by
  cases e <;> rfl

theorem step_engine_entry (s : State) (e : Engine) (later : List Action) :
    step { s with agenda := .engine e :: later } = .next { s.afterTurn e with agenda := later } := by
  have hturn := nextTurn_engine_entry s e later
  cases e with
  | dec =>
    by_cases hb : s.dec.run = .busy
    · rw [step_eq_stepped_dec (hturn.trans (if_pos hb)), State.afterTurn, if_pos hb]; rfl
    · rw [step_rest (hturn.trans (if_neg hb)), State.afterTurn, if_neg hb]; rfl
  | enc =>
    by_cases hb : s.enc.run = .busy
    · rw [step_eq_stepped_enc (hturn.trans (if_pos hb)), State.afterTurn, if_pos hb]; rfl
    · rw [step_rest (hturn.trans (if_neg hb)), State.afterTurn, if_neg hb]; rfl

theorem afterTurn_comm (s : State) (e e' : Engine) : (s.afterTurn e).afterTurn e' = (s.afterTurn e').afterTurn e := by
  cases e <;> cases e' <;> rfl

theorem run_turns (turns : List Engine) (s : State) (later : List Action) :
    core.run turns.length { s with agenda := turns.map Action.engine ++ later } =
      .next { turns.foldl State.afterTurn s with agenda := later } := by
  induction turns generalizing s with
  | nil => rfl
  | cons e turns ih => exact (run_succ (step_engine_entry s e _)).trans (ih (s.afterTurn e))

/-- Settles O42: turns of the engines commute, so their order does not matter to the state they lead to. -/
theorem everyInterleavingGivesTheSameState : Obligations.EveryInterleavingGivesTheSameState := by
  intro s turns turns' later hperm
  have hfold : turns.foldl State.afterTurn s = turns'.foldl State.afterTurn s :=
    hperm.foldl_eq' (fun e _ e' _ s => afterTurn_comm s e e') s
  exact ⟨_, run_turns turns s later, hfold ▸ run_turns turns' s later⟩

/-! ### What the host's moves can do -/

theorem hostByteAccess_next {space : Space} {index : Nat} {s k t : State}
    (h : hostByteAccess space index s k = .next t) :
    index < Config.indexLimit ∧ s.runOf (spaceEngine space) ≠ .busy ∧ t = k := by
  rw [hostByteAccess] at h
  split_ifs at h with hindex hbusy; cases h
  exact ⟨Nat.not_le.1 hindex, hbusy, rfl⟩

/-- Everything a register write can do: nothing, a launch, or the storing of a parameter of an engine that rests. -/
theorem hostWriteReg_cases {e : Engine} {offset : Nat} {v : Word} {s t : State}
    (h : hostWriteReg e offset v s = .next t) : t = s ∨ (s.runOf e ≠ .busy ∧
      ((offset = 0x00 ∧ v.getLsbD 0 = true ∧ t = launch e s) ∨ t = writeSrcLen e v s ∨ t = writeDstCap e v s)) := by
  by_cases hb : s.runOf e = .busy
  · rw [hostWriteReg_busy hb] at h; cases h; exact .inl rfl
  rw [hostWriteReg, if_neg hb] at h
  split at h
  case h_1 hr =>
    rw [writeCtrl] at h
    split_ifs at h with hv hp <;> cases h
    · exact .inr ⟨hb, .inl ⟨offset_of_regAt hr, hv, rfl⟩⟩
    · exact .inl rfl
  case h_2 => cases h; exact .inr ⟨hb, .inr (.inl rfl)⟩
  case h_3 => cases h; exact .inr ⟨hb, .inr (.inr rfl)⟩
  case h_4 => cases h; exact .inl rfl

theorem writeByteOf_runOf (s : State) (space : Space) (a : Nat) (v : Byte) (e : Engine) :
    (s.writeByteOf space a v).runOf e = s.runOf e := by
  cases space <;> cases e <;> rfl

theorem writeSrcLen_runOf (s : State) (e e' : Engine) (v : Word) : (writeSrcLen e v s).runOf e' = s.runOf e' := by
  cases e <;> cases e' <;> rfl

theorem writeDstCap_runOf (s : State) (e e' : Engine) (v : Word) : (writeDstCap e v s).runOf e' = s.runOf e' := by
  cases e <;> cases e' <;> rfl

theorem launch_runOf_same (s : State) (e : Engine) : (launch e s).runOf e = .busy := by cases e <;> rfl

theorem launch_runOf_other (s : State) {e e' : Engine} (h : e ≠ e') : (launch e s).runOf e' = s.runOf e' := by
  cases e with
  | dec => cases e' with
    | dec => exact absurd rfl h
    | enc => rfl
  | enc => cases e' with
    | dec => rfl
    | enc => exact absurd rfl h

/-- A move of the host that changes an engine's state is a `START` of that engine or a reset (10_state.md R24). -/
theorem hostMove_changes_run {m : HostMove} {s t : State} {e : Engine} (h : hostMove m s = .next t)
    (hrun : t.runOf e ≠ s.runOf e) :
    (s.runOf e ≠ .busy ∧ t.runOf e = .busy ∧ ∃ v : Word, m = .writeReg e 0x00 v ∧ v.getLsbD 0 = true) ∨
      (t.runOf e = .idle ∧ m = .assertReset) := by
  cases m with
  | readReg e' offset =>
    obtain ⟨answer, reads, hframe⟩ := hostReadReg_frame e' offset s
    rw [hostMove, hframe] at h; cases h
    cases e <;> exact absurd rfl hrun
  | writeReg e' offset v =>
    obtain rfl | ⟨hb, ⟨rfl, hv, rfl⟩ | rfl | rfl⟩ := hostWriteReg_cases h
    · exact absurd rfl hrun
    · by_cases he : e' = e
      · subst he; exact .inl ⟨hb, launch_runOf_same s e', v, rfl, hv⟩
      · exact absurd (launch_runOf_other s he) hrun
    · exact absurd (writeSrcLen_runOf s e' e v) hrun
    · exact absurd (writeDstCap_runOf s e' e v) hrun
  | readByte space index =>
    obtain ⟨-, -, rfl⟩ := hostByteAccess_next h
    cases e <;> exact absurd rfl hrun
  | writeByte space index v =>
    obtain ⟨-, -, rfl⟩ := hostByteAccess_next h
    exact absurd (writeByteOf_runOf s space index v e) hrun
  | assertReset =>
    cases h
    exact .inr ⟨(assertReset_registers s e).1, rfl⟩

/-! ### The transitions of an engine's state (10_state.md R24) -/

theorem executed_run (i : Instr) (d : Decoder) :
    (d.executed i).run = .err ∨ (d.executed i).run = .done ∨ (d.executed i).run = d.run := by
  unfold Decoder.executed Decoder.completed
  split
  · exact .inl rfl
  · split_ifs
    · exact .inr (.inl rfl)
    · exact .inr (.inr rfl)

theorem stepped_dec_run (d : Decoder) : d.stepped.run = .err ∨ d.stepped.run = .done ∨ d.stepped.run = d.run := by
  unfold Decoder.stepped
  split
  · exact executed_run _ d.kept
  · exact .inl rfl

theorem iterate_run {e e' : Encoder} (h : e.iterate = .ok e') : e'.run = .done ∨ e'.run = e.run := by
  rcases Nat.lt_or_ge e.dstCap.toNat (e.dp.toNat + e.emissionSize) with hfull | hfits
  · rw [iterate_full hfull] at h; cases h
  · obtain ⟨e₁, h₁, hrun⟩ := iterate_fits hfits
    cases h₁.symm.trans h
    split_ifs at hrun
    · exact .inl hrun
    · exact .inr hrun

theorem stepped_enc_run (e : Encoder) : e.stepped.run = .err ∨ e.stepped.run = .done ∨ e.stepped.run = e.run := by
  unfold Encoder.stepped
  split
  · rename_i e' h
    exact .inr (iterate_run (e := e.kept) h)
  · exact .inl rfl

/-- Settles O43: the step of an engine ends in `DONE`, in `ERR` or as it was, `BUSY`; of the other moves only `START`
and reset touch an engine's state. -/
theorem runStatesChangeOnlyAsTheRuleSays : Obligations.RunStatesChangeOnlyAsTheRuleSays := by
  intro s t e h hrun
  obtain ⟨hm, rfl⟩ | ⟨hm, rfl⟩ | ⟨m, hturn, hmove⟩ | ⟨b, -, rfl⟩ | ⟨-, rfl⟩ := step_cases h
  · cases e with
    | dec =>
      obtain herr | hdone | hsame := stepped_dec_run s.dec
      · exact .inr (.inl ⟨busy_of_decoderMoves hm, .inr herr, hm⟩)
      · exact .inr (.inl ⟨busy_of_decoderMoves hm, .inl hdone, hm⟩)
      · exact absurd hsame hrun
    | enc => exact absurd rfl hrun
  · cases e with
    | dec => exact absurd rfl hrun
    | enc =>
      obtain herr | hdone | hsame := stepped_enc_run s.enc
      · exact .inr (.inl ⟨busy_of_encoderMoves hm, .inr herr, hm⟩)
      · exact .inr (.inl ⟨busy_of_encoderMoves hm, .inl hdone, hm⟩)
      · exact absurd hsame hrun
  · have hrunOf : (takeEntry s).runOf e = s.runOf e := by cases e <;> rfl
    rw [← hrunOf] at hrun ⊢
    obtain ⟨hidle, hbusy, v, rfl, hv⟩ | ⟨hidle, rfl⟩ := hostMove_changes_run hmove hrun
    · exact .inl ⟨hidle, hbusy, v, hturn, hv⟩
    · exact .inr (.inr ⟨hidle, hturn⟩)
  · cases e <;> exact absurd rfl hrun
  · cases e <;> exact absurd rfl hrun

end Sys2Proof.Machine
end

section
/-! The proofs for a step of `DEC` in 40_decoder.md: how far it moves the cursors (R90), what it leaves (R83 to R88),
that a launch ends (R90), and that nothing of the machine but the launch decides what it does (R91, 10_state.md R28).
-/

namespace Sys2Proof.Machine

/-! ### The cursors after a step (40_decoder.md R90) -/

/-- A register's advance does not wrap where the sum is below `2^32`. -/
theorem toNat_add_ofNat {w : Word} {n : Nat} (h : w.toNat + n < 2 ^ 32) :
    (w + BitVec.ofNat 32 n).toNat = w.toNat + n := by
  rw [BitVec.toNat_add, BitVec.toNat_ofNat]
  omega

section
variable {d : Decoder} {i : Instr}

theorem completed_of_ne (h : i ≠ .endMarker) :
    d.completed i = d.advance (completedDout i d) (producedCount i) i.size := if_neg h

theorem completed_endMarker (d : Decoder) : d.completed .endMarker = { d with sp := d.sp + 1, run := .done } := rfl

theorem stepped_of_holdsInstr (h : d.holdsInstr i) : d.stepped = d.kept.executed i := by
  rw [Decoder.stepped, fetch_of_holdsInstr h]

theorem stepped_of_missing (h : d.srcLen.toNat ≤ d.sp.toNat ∨
    d.srcLen.toNat < d.sp.toNat + instrLength (d.dinByte d.sp.toNat)) :
    d.stepped = d.kept.faulted .truncatedStream := by
  rw [Decoder.stepped, fetch_truncated h]

/-- Everything a step of `DEC` can do to it: a fault of one of the three causes a rule raises, or the completion of the
instruction at the stream cursor. -/
theorem stepped_dec_cases (d : Decoder) :
    (∃ c, (c = .truncatedStream ∨ c = .bufferOverrun ∨ c = .unwrittenSource) ∧ d.stepped = d.kept.faulted c) ∨
    ∃ i, d.holdsInstr i ∧ instrFault d i = none ∧ d.stepped = d.kept.completed i := by
  by_cases hpresent : d.sp.toNat + instrLength (d.dinByte d.sp.toNat) ≤ d.srcLen.toNat
  · obtain ⟨i, hi⟩ := exists_holdsInstr hpresent
    rw [stepped_of_holdsInstr hi, Decoder.executed, show instrFault d.kept i = instrFault d i from rfl]
    cases hfault : instrFault d i with
    | some c => exact .inl ⟨c, .inr (instrFault_cause hfault), rfl⟩
    | none => exact .inr ⟨i, hi, hfault, rfl⟩
  · exact .inl ⟨_, .inl rfl, stepped_of_missing (.inr (Nat.not_le.1 hpresent))⟩

theorem completed_sp (h : d.holdsInstr i) : (d.completed i).sp.toNat = d.sp.toNat + i.size := by
  obtain ⟨-, hfit, -⟩ := h
  have hlt := d.srcLen.isLt
  unfold Decoder.completed
  split_ifs with hend
  · subst hend
    exact toNat_add_ofNat (n := 1) (lt_of_le_of_lt hfit hlt)
  · exact toNat_add_ofNat (by omega)

theorem completed_dp (h : instrFault d i = none) : (d.completed i).dp.toNat = d.dp.toNat + producedCount i := by
  obtain ⟨-, -, hfit⟩ := instrFault_none h
  have hlt := d.dstCap.isLt
  unfold Decoder.completed
  split_ifs with hend
  · subst hend; rfl
  · exact toNat_add_ofNat (lt_of_le_of_lt (hfit hend) hlt)

end

/-- Settles O10: a step that does not fault completes the instruction at the stream cursor, which ends by `SRC_LEN` and,
if it produces, fits below `DST_CAP`. -/
theorem cursorsAdvanceByLengthAndCount : Obligations.CursorsAdvanceByLengthAndCount := by
  intro s t hm hs hrun
  rw [step_eq_stepped_dec hm] at hs; cases hs
  obtain ⟨c, -, hstepped⟩ | ⟨i, hi, hfault, hstepped⟩ := stepped_dec_cases s.dec
  · exact absurd (congrArg Decoder.run hstepped) hrun
  · obtain ⟨-, -, hcap⟩ := instrFault_none hfault
    have hsp : s.dec.stepped.sp.toNat = s.dec.sp.toNat + i.size := by
      rw [hstepped]; exact completed_sp (d := s.dec.kept) hi
    have hdp : s.dec.stepped.dp.toNat = s.dec.dp.toNat + producedCount i := by
      rw [hstepped]; exact completed_dp (d := s.dec.kept) hfault
    have hfit : s.dec.sp.toNat + i.size ≤ s.dec.srcLen.toNat := hi.2.1
    exact ⟨i, hi, hsp, hsp ▸ hfit, hdp, fun hend => hdp ▸ hcap hend⟩

/-! ### The frame of the opcodes (40_decoder.md R83 to R88) -/

/-- Settles O19, by the three things `exec` can do: a fault entry, an advance over the bytes produced, or `END`. -/
theorem opcodesChangeNothingElse : Obligations.OpcodesChangeNothingElse := by
  intro i s t h
  obtain ⟨c, -, hexec⟩ | ⟨-, hend, hexec⟩ | ⟨hend, hexec⟩ := exec_cases i s <;> rw [hexec] at h <;> cases h
  · refine ⟨rfl, rfl, rfl, rfl, rfl, rfl, rfl, rfl, rfl, rfl, fun _ _ => rfl, ?_,
      fun _ => .inr ⟨rfl, rfl, rfl, rfl⟩⟩
    rintro rfl; cases hexec
  · exact ⟨rfl, rfl, rfl, rfl, rfl, rfl, rfl, rfl, rfl, rfl, read_completedDout_outside i s.dec,
      fun h => absurd h hend, fun _ => .inl ⟨rfl, rfl⟩⟩
  · exact ⟨rfl, rfl, rfl, rfl, rfl, rfl, rfl, rfl, rfl, rfl, fun _ _ => rfl, fun _ => ⟨rfl, rfl, rfl⟩,
      fun h => absurd hend h⟩

/-! ### A launch of `DEC` ends (40_decoder.md R90) -/

theorem size_pos {i : Instr} : 0 < i.size := by
  cases i with
  | lit data => exact Nat.add_pos_left Nat.one_pos _
  | scopy | endMarker | fill | mcopy | lcopy => exact Nat.succ_pos _

/-- A step of a `BUSY` `DEC` ends the launch or takes stream bytes that were left. -/
theorem stepped_dec_progress {d : Decoder} (hb : d.run = .busy) :
    d.stepped.run = .err ∨ (d.stepped.run = .done ∧ d.sp.toNat < d.srcLen.toNat) ∨
    (d.stepped.run = .busy ∧ d.stepped.srcLen = d.srcLen ∧ d.sp.toNat < d.stepped.sp.toNat ∧
      d.stepped.sp.toNat ≤ d.srcLen.toNat) := by
  obtain ⟨c, -, hstepped⟩ | ⟨i, hi, -, hstepped⟩ := stepped_dec_cases d
  · exact .inl (hstepped ▸ rfl)
  · have hpos := size_pos (i := i)
    have hfit : d.sp.toNat + i.size ≤ d.srcLen.toNat := hi.2.1
    have hsp : d.stepped.sp.toNat = d.sp.toNat + i.size := by
      rw [hstepped]; exact completed_sp (d := d.kept) hi
    by_cases hend : i = .endMarker
    · subst hend
      exact .inr (.inl ⟨hstepped ▸ rfl, by omega⟩)
    · rw [completed_of_ne hend] at hstepped
      exact .inr (.inr ⟨hstepped ▸ hb, hstepped ▸ rfl, by omega, by omega⟩)

/-- Settles O34, by induction on the stream bytes that are left. -/
theorem decoderLaunchTerminates : Obligations.DecoderLaunchTerminates := by
  intro s ha hb
  induction hn : s.dec.srcLen.toNat - s.dec.sp.toNat using Nat.strong_induction_on generalizing s with
  | _ n ih =>
    have hs := step_eq_stepped_dec (decoderMoves_of_busy ha hb)
    rw [takeEntry_of_agenda_nil ha] at hs
    obtain herr | ⟨hdone, hlt⟩ | ⟨hbusy, hlen, hlt, hle⟩ := stepped_dec_progress hb
    · exact ⟨1, _, by omega, run_succ hs, .inr herr⟩
    · exact ⟨1, _, by omega, run_succ hs, .inl ⟨hdone, by omega⟩⟩
    · obtain ⟨k, t, hk, hrun, hend⟩ := ih (n - (s.dec.stepped.sp.toNat - s.dec.sp.toNat)) (by omega)
        { s with dec := s.dec.stepped } ha hbusy (by simp only [hlen]; omega)
      refine ⟨k + 1, t, by omega, (run_succ hs).trans hrun, hend.imp_left fun ⟨hdone, hk⟩ => ⟨hdone, by omega⟩⟩

/-! ### What a step of `DEC` depends on (10_state.md R28, 40_decoder.md R91) -/

section
variable {d d' : Decoder}

theorem sameLaunch_dec_kept (h : d.SameLaunch d') : d.kept.SameLaunch d'.kept :=
  ⟨h.run, h.errCode, h.srcLen, h.dstCap, h.sp, h.dp, h.stream, h.produced⟩

theorem sameLaunch_dec_faulted (h : d.SameLaunch d') (c : Cause) : (d.faulted c).SameLaunch (d'.faulted c) :=
  ⟨rfl, rfl, h.srcLen, h.dstCap, h.sp, h.dp, h.stream, h.produced⟩

theorem sameLaunch_dec_holdsInstr (h : d.SameLaunch d') {i : Instr} (hi : d.holdsInstr i) : d'.holdsInstr i := by
  obtain ⟨hwf, hfit, hbytes⟩ := hi
  refine ⟨hwf, h.sp ▸ h.srcLen ▸ hfit, ?_⟩
  rw [← hbytes, ← h.sp]
  exact Memory.readList_congr fun k hk => (h.stream _ (by omega)).symm

theorem sameLaunch_dec_instrFault (h : d.SameLaunch d') (i : Instr) : instrFault d' i = instrFault d i := by
  unfold instrFault overCapacity
  rw [h.dp, h.dstCap]

/-- A completed instruction leaves the same output bytes below the new write cursor, since a copy's source lies below
the old one. -/
theorem sameLaunch_dec_completedDout (h : d.SameLaunch d') {i : Instr} (hfault : instrFault d i = none) {a : Nat}
    (ha : a < d.dp.toNat + producedCount i) :
    (completedDout i d).read d.unknownDout a = (completedDout i d').read d'.unknownDout a := by
  rcases Nat.lt_or_ge a d.dp.toNat with hlt | hge
  · rw [read_completedDout_outside i d a (.inl hlt), read_completedDout_outside i d' a (.inl (h.dp ▸ hlt))]
    exact h.produced a hlt
  obtain ⟨k, rfl⟩ := Nat.exists_eq_add_of_le hge
  have hk : k < producedCount i := by omega
  have hcopy : ∀ src n, src < d.dp.toNat → k < n →
      (d.dout.copyForward d.unknownDout src d.dp.toNat n).read d.unknownDout (d.dp.toNat + k) =
        (d'.dout.copyForward d'.unknownDout src d.dp.toNat n).read d'.unknownDout (d.dp.toNat + k) := by
    intro src n hsrc hkn
    have hmod : k % (d.dp.toNat - src) < d.dp.toNat - src := Nat.mod_lt _ (by omega)
    rw [Memory.read_copyForward_inside _ _ hsrc hkn, Memory.read_copyForward_inside _ _ hsrc hkn]
    exact h.produced _ (by omega)
  obtain ⟨hbefore, hunwritten, -⟩ := instrFault_none hfault
  have hdp : d'.dp.toNat = d.dp.toNat := congrArg BitVec.toNat h.dp.symm
  cases i <;> simp only [completedDout, hdp]
  case endMarker => exact absurd hk (Nat.not_lt_zero _)
  case lit data => rw [Memory.read_writeList_inside _ _ _ hk, Memory.read_writeList_inside _ _ _ hk]
  case fill count value =>
    have hk : k < (List.replicate count value).length := List.length_replicate ▸ hk
    rw [Memory.read_writeList_inside _ _ _ hk, Memory.read_writeList_inside _ _ _ hk]
  case scopy length offset =>
    have hstart : ¬ d.dp.toNat < offset := of_decide_eq_false hbefore
    have hpos : offset ≠ 0 := of_decide_eq_false hunwritten
    exact hcopy _ _ (by omega) hk
  case mcopy length offset => exact hcopy _ _ (Nat.not_le.1 (of_decide_eq_false hunwritten)) hk
  case lcopy count offset =>
    simp only [sourceUnwritten, Bool.and_eq_false_iff, decide_eq_false_iff_not] at hunwritten
    simp only [producedCount] at hk
    exact hcopy _ _ (by omega) hk

theorem sameLaunch_dec_completed (h : d.SameLaunch d') {i : Instr} (hfault : instrFault d i = none) :
    (d.completed i).SameLaunch (d'.completed i) := by
  by_cases hend : i = .endMarker
  · subst hend
    exact ⟨rfl, h.errCode, h.srcLen, h.dstCap, congrArg (· + 1) h.sp, h.dp, h.stream, h.produced⟩
  · have hdp := completed_dp hfault
    rw [completed_of_ne hend] at hdp
    rw [completed_of_ne hend, completed_of_ne hend]
    exact ⟨h.run, h.errCode, h.srcLen, h.dstCap, congrArg (· + _) h.sp, congrArg (· + _) h.dp, h.stream,
      fun a ha => sameLaunch_dec_completedDout h hfault (hdp ▸ ha)⟩

theorem sameLaunch_dec_stepped (h : d.SameLaunch d') : d.stepped.SameLaunch d'.stepped := by
  by_cases hpresent : d.sp.toNat + instrLength (d.dinByte d.sp.toNat) ≤ d.srcLen.toNat
  · obtain ⟨i, hi⟩ := exists_holdsInstr hpresent
    rw [stepped_of_holdsInstr hi, stepped_of_holdsInstr (sameLaunch_dec_holdsInstr h hi), Decoder.executed,
      Decoder.executed, sameLaunch_dec_instrFault (sameLaunch_dec_kept h)]
    cases hfault : instrFault d.kept i with
    | some c => exact sameLaunch_dec_faulted (sameLaunch_dec_kept h) c
    | none => exact sameLaunch_dec_completed (sameLaunch_dec_kept h) hfault
  · have hmissing : d'.srcLen.toNat ≤ d'.sp.toNat ∨
        d'.srcLen.toNat < d'.sp.toNat + instrLength (d'.dinByte d'.sp.toNat) := by
      rw [← h.sp, ← h.srcLen]
      rcases Nat.lt_or_ge d.sp.toNat d.srcLen.toNat with hlt | hge
      · rw [← h.stream _ hlt]; exact .inr (Nat.not_le.1 hpresent)
      · exact .inl hge
    rw [stepped_of_missing hmissing, stepped_of_missing (.inr (Nat.not_le.1 hpresent))]
    exact sameLaunch_dec_faulted (sameLaunch_dec_kept h) _

theorem sameLaunch_dec_result (h : d.SameLaunch d') : d.result = d'.result := by
  rw [Decoder.result, Decoder.result, h.run, h.dp]
  congr 2
  exact Memory.readList_congr fun k hk => h.produced _ (by rw [h.dp]; omega)

end

/-- Settles O39: the fetch reads the stream only, an instruction's fault is decided by the registers, and the bytes it
produces come from the stream or from below the write cursor. -/
theorem decoderIgnoresPriorOutputContents : Obligations.DecoderIgnoresPriorOutputContents := by
  intro s s' t hm hm' h hs
  rw [step_eq_stepped_dec hm] at hs; cases hs
  exact ⟨_, step_eq_stepped_dec hm', sameLaunch_dec_stepped h, sameLaunch_dec_result (sameLaunch_dec_stepped h)⟩

end Sys2Proof.Machine
end

section
/-! The proofs for a step of `ENC` in 41_encoder_search.md: what it decides on (R100 to R111), what each iteration
makes of the engine, that a launch ends (R113), and that nothing of the machine but the launch decides what it does
(10_state.md R28). -/

namespace Sys2Proof.Machine

/-! ### What the encoder decides on (41_encoder_search.md R102, R103, R107, R108) -/

section
variable {e : Encoder}

theorem of_decision_fill {count : Nat} {value : Byte} (h : e.decision = .fill count value) :
    65 ≤ count ∧ count ≤ 65535 ∧ e.sp.toNat + count ≤ e.srcLen.toNat ∧
      ∀ i < count, e.einByte (e.sp.toNat + i) = value := by
  obtain ⟨-, hd⟩ | ⟨-, hrun, hd⟩ | ⟨-, -, -, hd⟩ | ⟨-, -, -, hd⟩ := decision_cases e <;> cases hd.symm.trans h
  obtain ⟨hle, hsame, -⟩ :=
    sameFrom_spec e.einByte (e.einByte e.sp.toNat) e.sp.toNat (e.srcLen.toNat - e.sp.toNat)
  unfold Encoder.runLen at hrun ⊢
  exact ⟨by omega, by omega, by omega, fun i hi => hsame i (by omega)⟩

theorem of_decision_copy {L m : Nat} (h : e.decision = .copy L m) :
    m < e.sp.toNat ∧ 3 ≤ L ∧ L ≤ 65535 ∧ e.sp.toNat + L ≤ e.srcLen.toNat ∧
      (10 < L ∨ 4095 < e.sp.toNat - m → m ≤ 65535) ∧
      ∀ i < L, e.einByte (m + i) = e.einByte (e.sp.toNat + i) := by
  obtain ⟨-, hd⟩ | ⟨-, -, hd⟩ | ⟨-, -, hL, hd⟩ | ⟨-, -, -, hd⟩ := decision_cases e <;> cases hd.symm.trans h
  generalize hbest : e.bestMatch e.sp.toNat = best at hL
  obtain ⟨L, m⟩ := best
  obtain ⟨hlt, hlen⟩ := bestMatch_found hbest (Nat.zero_lt_of_lt hL)
  obtain ⟨hcap, hagree, -⟩ := matchLen_spec e m e.sp.toNat
  have hle := effLen_le_matchLen e m e.sp.toNat
  rw [hlen] at hle
  exact ⟨hlt, hL, by omega, by omega, fun h => start_le_of_effLen (hlen ▸ Nat.zero_lt_of_lt hL) (by rwa [hlen]),
    fun i hi => hagree i (by omega)⟩

theorem of_decision_literal {b : Byte} (h : e.decision = .literal b) :
    e.sp ≠ e.srcLen ∧ b = e.einByte e.sp.toNat := by
  obtain ⟨-, hd⟩ | ⟨-, -, hd⟩ | ⟨-, -, -, hd⟩ | ⟨hne, -, -, hd⟩ := decision_cases e <;> cases hd.symm.trans h
  exact ⟨hne, rfl⟩

theorem of_decision_finish (h : e.decision = .finish) : e.sp = e.srcLen := by
  obtain ⟨heq, hd⟩ | ⟨-, -, hd⟩ | ⟨-, -, -, hd⟩ | ⟨-, -, -, hd⟩ := decision_cases e <;> cases hd.symm.trans h
  exact heq

end

theorem wellFormed_tierFor {L m p : Nat} (h₁ : 3 ≤ L) (h₂ : L ≤ 65535)
    (hm : 10 < L ∨ 4095 < p - m → m ≤ 65535) : (tierFor L m p).wellFormed = true := by
  by_cases hlong : 10 < L ∨ 4095 < p - m
  · rcases Nat.lt_or_ge 64 L with hL | hL
    · rw [tierFor_lcopy m p hL]; exact (wellFormed_lcopy _ _).2 ⟨h₂, hm hlong⟩
    · rw [tierFor_mcopy hlong hL]; exact (wellFormed_mcopy _ _).2 ⟨h₁, hL, hm hlong⟩
  · rw [tierFor_scopy (by omega) (by omega)]; exact (wellFormed_scopy _ _).2 ⟨h₁, by omega, by omega⟩

/-- Settles O26: the run and the match are measured within the source, and a match counts only where its tier can name
its start. -/
theorem encoderDecidesOnlyEncodableOpcodes : Obligations.EncoderDecidesOnlyEncodableOpcodes := by
  refine fun e _ => ⟨fun count value h => ?_, fun L m h => ?_⟩
  · obtain ⟨hmin, hmax, hfit, -⟩ := of_decision_fill h
    exact ⟨hmin, hfit, (wellFormed_fill _ _).2 hmax⟩
  · obtain ⟨hlt, hmin, hmax, hfit, hname, hagree⟩ := of_decision_copy h
    exact ⟨hlt, hfit, wellFormed_tierFor hmin hmax hname, hagree⟩

/-! ### An iteration by what it makes of the engine (41_encoder_search.md R100) -/

/-- The fill or copy that `ENC` has decided on (41_encoder_search.md R103, R107). -/
def Encoder.chooses (e : Encoder) (i : Instr) : Prop :=
  (∃ count value, e.decision = .fill count value ∧ i = .fill count value) ∨
    ∃ L m, e.decision = .copy L m ∧ i = tierFor L m e.sp.toNat

/-- `ENC` with an opcode written at the output cursor and no run open (42_encoder_emit.md R121, R122, R128). -/
def Encoder.emitted (e : Encoder) (i : Instr) : Encoder :=
  { e with eout := e.eout.writeList e.dp.toNat (encode i), dp := e.dp + BitVec.ofNat 32 i.size, runCnt := 0 }

/-- `ENC` with the end marker written (42_encoder_emit.md R128). -/
def Encoder.ended (e : Encoder) : Encoder := { e.emitted .endMarker with run := .done }

/-- `ENC` with a literal run opened (42_encoder_emit.md R124). -/
def Encoder.opened (e : Encoder) (b : Byte) : Encoder :=
  { e with runIdx := e.dp, eout := e.eout.writeList e.dp.toNat [0x81#8, b], dp := e.dp + 2, runCnt := 1 }

/-- `ENC` with its open literal run extended (42_encoder_emit.md R124). -/
def Encoder.extended (e : Encoder) (b : Byte) : Encoder :=
  { e with
    eout := (e.eout.write e.dp.toNat b).write e.runIdx.toNat (runTag (e.runCnt + 1))
    dp := e.dp + 1
    runCnt := e.runCnt + 1 }

theorem producedCount_tierFor (L m p : Nat) : producedCount (tierFor L m p) = L := by
  obtain h | h | h := tierFor_cases L m p <;> rw [h] <;> rfl

section
variable {e : Encoder}

theorem emissionSize_of_chooses {i : Instr} (h : e.chooses i) : e.emissionSize = i.size := by
  obtain ⟨count, value, hd, rfl⟩ | ⟨L, m, hd, rfl⟩ := h
  · exact emissionSize_fill hd
  · exact emissionSize_copy hd

theorem iterate_of_chooses {i : Instr} (h : e.chooses i) (hfits : e.dp.toNat + i.size ≤ e.dstCap.toNat) :
    e.iterate = .ok ((e.emitted i).consume (producedCount i)) := by
  obtain ⟨count, value, hd, rfl⟩ | ⟨L, m, hd, rfl⟩ := h
  · exact (iterate_fill hd).trans (if_pos hfits)
  · rw [producedCount_tierFor]
    exact (iterate_copy hd).trans (if_pos hfits)

/-- Everything an iteration can do: find the output full, end the stream, emit the chosen opcode, or open or extend a
literal run. -/
theorem iterate_cases (e : Encoder) :
    (e.dstCap.toNat < e.dp.toNat + e.emissionSize ∧ e.iterate = .error .outputExhausted) ∨
    (e.sp = e.srcLen ∧ e.dp.toNat + 1 ≤ e.dstCap.toNat ∧ e.iterate = .ok e.ended) ∨
    (∃ i, e.chooses i ∧ e.dp.toNat + i.size ≤ e.dstCap.toNat ∧
      e.iterate = .ok ((e.emitted i).consume (producedCount i))) ∨
    (∃ b, e.decision = .literal b ∧ (e.runCnt = 0 ∨ e.runCnt = 63) ∧ e.dp.toNat + 2 ≤ e.dstCap.toNat ∧
      e.iterate = .ok ((e.opened b).consume 1)) ∨
    (∃ b, e.decision = .literal b ∧ ¬(e.runCnt = 0 ∨ e.runCnt = 63) ∧ e.dp.toNat + 1 ≤ e.dstCap.toNat ∧
      e.iterate = .ok ((e.extended b).consume 1)) := by
  rcases Nat.lt_or_ge e.dstCap.toNat (e.dp.toNat + e.emissionSize) with hfull | hfits
  · exact .inl ⟨hfull, iterate_full hfull⟩
  refine .inr ?_
  cases hd : e.decision with
  | finish =>
    rw [emissionSize_finish hd] at hfits
    exact .inl ⟨of_decision_finish hd, hfits, (iterate_finish hd).trans (if_pos hfits)⟩
  | fill count value =>
    have hi : e.chooses (.fill count value) := .inl ⟨_, _, hd, rfl⟩
    rw [emissionSize_of_chooses hi] at hfits
    exact .inr (.inl ⟨_, hi, hfits, iterate_of_chooses hi hfits⟩)
  | copy L m =>
    have hi : e.chooses (tierFor L m e.sp.toNat) := .inr ⟨_, _, hd, rfl⟩
    rw [emissionSize_of_chooses hi] at hfits
    exact .inr (.inl ⟨_, hi, hfits, iterate_of_chooses hi hfits⟩)
  | literal b =>
    by_cases hr : e.runCnt = 0 ∨ e.runCnt = 63
    · rw [emissionSize_opening hd hr] at hfits
      exact .inr (.inr (.inl ⟨b, rfl, hr, hfits, iterate_opening hd hr hfits⟩))
    · rw [emissionSize_extending hd hr] at hfits
      exact .inr (.inr (.inr ⟨b, rfl, hr, hfits, iterate_extending hd hr hfits⟩))

/-- A chosen opcode consumes source bytes, and only such as there are. -/
theorem chooses_bounds {i : Instr} (h : e.chooses i) :
    0 < producedCount i ∧ e.sp.toNat + producedCount i ≤ e.srcLen.toNat := by
  obtain ⟨count, value, hd, rfl⟩ | ⟨L, m, hd, rfl⟩ := h
  · obtain ⟨hmin, -, hfit, -⟩ := of_decision_fill hd
    exact ⟨show 0 < count by omega, hfit⟩
  · obtain ⟨-, hmin, -, hfit, -⟩ := of_decision_copy hd
    rw [producedCount_tierFor]
    exact ⟨by omega, hfit⟩

theorem sp_lt_of_decision_literal {b : Byte} (h : e.decision = .literal b) (hle : e.sp.toNat ≤ e.srcLen.toNat) :
    e.sp.toNat < e.srcLen.toNat := by
  obtain ⟨hne, -⟩ := of_decision_literal h
  exact lt_of_le_of_ne hle fun heq => hne (BitVec.eq_of_toNat_eq heq)

theorem emitted_dp {i : Instr} (hfits : e.dp.toNat + i.size ≤ e.dstCap.toNat) :
    (e.emitted i).dp.toNat = e.dp.toNat + i.size :=
  toNat_add_ofNat (lt_of_le_of_lt hfits e.dstCap.isLt)

theorem opened_dp (b : Byte) (hfits : e.dp.toNat + 2 ≤ e.dstCap.toNat) :
    (e.opened b).dp.toNat = e.dp.toNat + 2 :=
  toNat_add_ofNat (lt_of_le_of_lt hfits e.dstCap.isLt)

theorem extended_dp (b : Byte) (hfits : e.dp.toNat + 1 ≤ e.dstCap.toNat) :
    (e.extended b).dp.toNat = e.dp.toNat + 1 :=
  toNat_add_ofNat (lt_of_le_of_lt hfits e.dstCap.isLt)

/-- The source position of an engine with the registers of `e` after `count` consumed bytes. -/
theorem consumed_sp {e' : Encoder} {count : Nat} (he : e'.sp = e.sp) (hfit : e.sp.toNat + count ≤ e.srcLen.toNat) :
    (e'.consume count).sp.toNat = e.sp.toNat + count := by
  rw [consume_sp, he]
  exact toNat_add_ofNat (lt_of_le_of_lt hfit e.srcLen.isLt)

/-- An iteration that goes through ends the stream, or leaves the engine as `BUSY` as it was with fewer source bytes to
come. -/
theorem iterate_progress {e' : Encoder} (h : e.iterate = .ok e') (hle : e.sp.toNat ≤ e.srcLen.toNat) :
    (e.sp = e.srcLen ∧ e' = e.ended) ∨ (e'.run = e.run ∧ e'.srcLen = e.srcLen ∧ e.sp.toNat < e'.sp.toNat ∧
      e'.sp.toNat ≤ e.srcLen.toNat) := by
  obtain ⟨-, hi⟩ | ⟨hsp, -, hi⟩ | ⟨i, hc, -, hi⟩ | ⟨b, hd, -, -, hi⟩ | ⟨b, hd, -, -, hi⟩ := iterate_cases e <;>
    cases hi.symm.trans h
  · exact .inl ⟨hsp, rfl⟩
  · obtain ⟨hpos, hfit⟩ := chooses_bounds hc
    have hsp := consumed_sp (e := e) (e' := e.emitted i) rfl hfit
    exact .inr ⟨rfl, rfl, by omega, by omega⟩
  · have hlt := sp_lt_of_decision_literal hd hle
    have hsp := consumed_sp (e := e) (e' := e.opened b) (count := 1) rfl hlt
    exact .inr ⟨rfl, rfl, by omega, by omega⟩
  · have hlt := sp_lt_of_decision_literal hd hle
    have hsp := consumed_sp (e := e) (e' := e.extended b) (count := 1) rfl hlt
    exact .inr ⟨rfl, rfl, by omega, by omega⟩

theorem stepped_of_iterate_ok {e' : Encoder} (h : e.kept.iterate = .ok e') : e.stepped = e' := by
  rw [Encoder.stepped, h]

theorem stepped_of_iterate_error {c : Cause} (h : e.kept.iterate = .error c) :
    e.stepped = e.kept.faulted .outputExhausted := by
  rw [Encoder.stepped, h, iterate_error h]

/-- A step of a `BUSY` `ENC` faults with `OutputExhausted`, ends the stream, or takes source bytes that were left. -/
theorem stepped_enc_progress (hb : e.run = .busy) (hle : e.sp.toNat ≤ e.srcLen.toNat) :
    (e.stepped.run = .err ∧ e.stepped.errCode = 5) ∨ e.stepped.run = .done ∨
    (e.stepped.run = .busy ∧ e.stepped.srcLen = e.srcLen ∧ e.sp.toNat < e.stepped.sp.toNat ∧
      e.stepped.sp.toNat ≤ e.srcLen.toNat) := by
  cases hi : e.kept.iterate with
  | error c => rw [stepped_of_iterate_error hi]; exact .inl ⟨rfl, rfl⟩
  | ok e' =>
    rw [stepped_of_iterate_ok hi]
    obtain ⟨-, rfl⟩ | ⟨hrun, hrest⟩ := iterate_progress hi hle
    · exact .inr (.inl rfl)
    · exact .inr (.inr ⟨hrun.trans hb, hrest⟩)

end

/-! ### A launch of `ENC` ends (41_encoder_search.md R113) -/

/-- Settles O35, by induction on the source bytes that are left. -/
theorem encoderLaunchTerminates : Obligations.EncoderLaunchTerminates := by
  intro s ha hd hb hle
  induction hn : s.enc.srcLen.toNat - s.enc.sp.toNat using Nat.strong_induction_on generalizing s with
  | _ n ih =>
    have hs := step_eq_stepped_enc (encoderMoves_of_busy ha hd hb)
    rw [takeEntry_of_agenda_nil ha] at hs
    obtain herr | hdone | ⟨hbusy, hlen, hlt, hle'⟩ := stepped_enc_progress hb hle
    · exact ⟨1, _, by omega, run_succ hs, .inr herr⟩
    · exact ⟨1, _, by omega, run_succ hs, .inl hdone⟩
    · obtain ⟨k, t, hk, hrun, hend⟩ := ih (n - (s.enc.stepped.sp.toNat - s.enc.sp.toNat)) (by omega)
        { s with enc := s.enc.stepped } ha hd hbusy (hlen ▸ hle') (by simp only [hlen]; omega)
      exact ⟨k + 1, t, by omega, (run_succ hs).trans hrun, hend⟩

/-! ### What a step of `ENC` depends on (10_state.md R28, 41_encoder_search.md R113)

The searches look at bytes below their bounds only, and these lie below `SRC_LEN`. -/

theorem sameFrom_congr {src src' : Nat → Byte} (v : Byte) {a k : Nat} (h : ∀ x < a + k, src x = src' x) :
    sameFrom src v a k = sameFrom src' v a k := by
  induction k generalizing a with
  | zero => rfl
  | succ k ih => rw [sameFrom, sameFrom, h a (by omega), ih fun x hx => h x (by omega)]

theorem agreeFrom_congr {src src' : Nat → Byte} {c p k : Nat} (hc : c ≤ p) (h : ∀ x < p + k, src x = src' x) :
    agreeFrom src c p k = agreeFrom src' c p k := by
  induction k generalizing c p with
  | zero => rfl
  | succ k ih =>
    rw [agreeFrom, agreeFrom, h c (by omega), h p (by omega), ih (by omega) fun x hx => h x (by omega)]

theorem effectiveLen_congr {src src' : Nat → Byte} {n c p : Nat} (hc : c ≤ p) (hp : p ≤ n)
    (h : ∀ x < n, src x = src' x) : effectiveLen src n c p = effectiveLen src' n c p := by
  have hcap : matchCap n p ≤ n - p := Nat.min_le_left ..
  unfold effectiveLen
  rw [agreeFrom_congr hc fun x hx => h x (by omega)]

theorem scanBelow_congr {src src' : Nat → Byte} {n p k : Nat} (hk : k ≤ p) (hp : p ≤ n)
    (h : ∀ x < n, src x = src' x) : scanBelow src n p k = scanBelow src' n p k := by
  induction k with
  | zero => rfl
  | succ k ih => rw [scanBelow, scanBelow, ih (by omega), effectiveLen_congr (by omega) hp h]

section
variable {e e' : Encoder}

theorem sameLaunch_enc_decision (h : e.SameLaunch e') (hle : e.sp.toNat ≤ e.srcLen.toNat) :
    e'.decision = e.decision := by
  by_cases hsp : e.sp = e.srcLen
  · rw [decision_finish hsp, decision_finish (h.sp ▸ h.srcLen ▸ hsp)]
  have hlt : e.sp.toNat < e.srcLen.toNat := lt_of_le_of_ne hle fun heq => hsp (BitVec.eq_of_toNat_eq heq)
  have hbyte := h.source _ hlt
  have hrun : e'.runLen e.sp.toNat = e.runLen e.sp.toNat := by
    rw [Encoder.runLen, Encoder.runLen, ← h.srcLen, ← hbyte]
    exact (sameFrom_congr _ fun x hx => h.source x (by omega)).symm
  have hbest : e'.bestMatch e.sp.toNat = e.bestMatch e.sp.toNat := by
    rw [Encoder.bestMatch, Encoder.bestMatch, ← h.srcLen]
    exact (scanBelow_congr le_rfl hle h.source).symm
  rw [Encoder.decision, Encoder.decision, ← h.sp, ← h.srcLen, hrun, hbest, hbyte]

theorem sameLaunch_enc_chooses (h : e.SameLaunch e') (hle : e.sp.toNat ≤ e.srcLen.toNat) {i : Instr}
    (hi : e.chooses i) : e'.chooses i := by
  rw [Encoder.chooses, sameLaunch_enc_decision h hle, ← h.sp]
  exact hi

theorem sameLaunch_enc_emissionSize (h : e.SameLaunch e') (hle : e.sp.toNat ≤ e.srcLen.toNat) :
    e'.emissionSize = e.emissionSize := by
  rw [Encoder.emissionSize, Encoder.emissionSize, sameLaunch_enc_decision h hle, ← h.sp, ← h.runCnt]

theorem sameLaunch_enc_kept (h : e.SameLaunch e') : e.kept.SameLaunch e'.kept :=
  ⟨h.run, h.errCode, h.srcLen, h.dstCap, h.sp, h.dp, h.runCnt, h.runIdx, h.source, h.emitted⟩

theorem sameLaunch_enc_faulted (h : e.SameLaunch e') (c : Cause) : (e.faulted c).SameLaunch (e'.faulted c) :=
  ⟨rfl, rfl, h.srcLen, h.dstCap, h.sp, h.dp, h.runCnt, h.runIdx, h.source, h.emitted⟩

theorem sameLaunch_enc_consume (h : e.SameLaunch e') (count : Nat) : (e.consume count).SameLaunch (e'.consume count) :=
  ⟨h.run, h.errCode, h.srcLen, h.dstCap, congrArg (· + _) h.sp, h.dp, h.runCnt, h.runIdx, h.source, h.emitted⟩

/-- Bytes written at the output cursor are the same bytes below the new one, whatever stood there. -/
theorem sameLaunch_enc_read_writeList (h : e.SameLaunch e') (vs : List Byte) {a : Nat}
    (ha : a < e.dp.toNat + vs.length) :
    (e.eout.writeList e.dp.toNat vs).read e.unknownEout a =
      (e'.eout.writeList e'.dp.toNat vs).read e'.unknownEout a := by
  rw [Memory.read_writeList, Memory.read_writeList]
  simp only [← h.dp]
  split_ifs with hin
  · rfl
  · exact h.emitted a (by omega)

theorem sameLaunch_enc_emitted (h : e.SameLaunch e') {i : Instr} (hfits : e.dp.toNat + i.size ≤ e.dstCap.toNat) :
    (e.emitted i).SameLaunch (e'.emitted i) := by
  refine ⟨h.run, h.errCode, h.srcLen, h.dstCap, h.sp, congrArg (· + _) h.dp, rfl, fun hr => absurd rfl hr, h.source,
    fun a ha => sameLaunch_enc_read_writeList h (encode i) ?_⟩
  rw [encode_length, ← emitted_dp hfits]
  exact ha

theorem sameLaunch_enc_ended (h : e.SameLaunch e') (hfits : e.dp.toNat + 1 ≤ e.dstCap.toNat) :
    e.ended.SameLaunch e'.ended := by
  obtain ⟨-, herrCode, hsrcLen, hdstCap, hsp, hdp, hrunCnt, hrunIdx, hsource, hemitted⟩ :=
    sameLaunch_enc_emitted (i := .endMarker) h hfits
  exact ⟨rfl, herrCode, hsrcLen, hdstCap, hsp, hdp, hrunCnt, hrunIdx, hsource, hemitted⟩

theorem sameLaunch_enc_opened (h : e.SameLaunch e') (b : Byte) (hfits : e.dp.toNat + 2 ≤ e.dstCap.toNat) :
    (e.opened b).SameLaunch (e'.opened b) := by
  exact ⟨h.run, h.errCode, h.srcLen, h.dstCap, h.sp, congrArg (· + _) h.dp, rfl, fun _ => h.dp, h.source,
    fun a ha => sameLaunch_enc_read_writeList h [0x81#8, b] (opened_dp b hfits ▸ ha)⟩

theorem sameLaunch_enc_extended (h : e.SameLaunch e') (b : Byte) (hr : e.runCnt ≠ 0)
    (hfits : e.dp.toNat + 1 ≤ e.dstCap.toNat) : (e.extended b).SameLaunch (e'.extended b) := by
  refine ⟨h.run, h.errCode, h.srcLen, h.dstCap, h.sp, congrArg (· + _) h.dp, congrArg (· + _) h.runCnt,
    fun _ => h.runIdx hr, h.source, fun a ha => ?_⟩
  rw [extended_dp b hfits] at ha
  show ((e.eout.write e.dp.toNat b).write _ _).read e.unknownEout a =
    ((e'.eout.write e'.dp.toNat b).write _ _).read e'.unknownEout a
  rw [← h.dp, ← h.runCnt, ← h.runIdx hr, Memory.read_write, Memory.read_write, Memory.read_write, Memory.read_write]
  split_ifs with htag hlast
  · rfl
  · rfl
  · exact h.emitted a (by omega)

/-- Two encoders alike in a launch make the same of an iteration. -/
theorem sameLaunch_enc_iterate (h : e.SameLaunch e') (hle : e.sp.toNat ≤ e.srcLen.toNat) :
    (e.iterate = .error .outputExhausted ∧ e'.iterate = .error .outputExhausted) ∨
      ∃ e₁ e₁', e.iterate = .ok e₁ ∧ e'.iterate = .ok e₁' ∧ e₁.SameLaunch e₁' := by
  have hd := sameLaunch_enc_decision h hle
  obtain ⟨hfull, hi⟩ | ⟨hsp, hfits, hi⟩ | ⟨i, hc, hfits, hi⟩ | ⟨b, hb, hr, hfits, hi⟩ | ⟨b, hb, hr, hfits, hi⟩ :=
    iterate_cases e
  · rw [h.dstCap, h.dp, ← sameLaunch_enc_emissionSize h hle] at hfull
    exact .inl ⟨hi, iterate_full hfull⟩
  · have hi' : e'.iterate = .ok e'.ended :=
      (iterate_finish (decision_finish (h.sp ▸ h.srcLen ▸ hsp))).trans (if_pos (h.dp ▸ h.dstCap ▸ hfits))
    exact .inr ⟨_, _, hi, hi', sameLaunch_enc_ended h hfits⟩
  · exact .inr ⟨_, _, hi, iterate_of_chooses (sameLaunch_enc_chooses h hle hc) (h.dp ▸ h.dstCap ▸ hfits),
      sameLaunch_enc_consume (sameLaunch_enc_emitted h hfits) _⟩
  · exact .inr ⟨_, _, hi, iterate_opening (hd.trans hb) (h.runCnt ▸ hr) (h.dp ▸ h.dstCap ▸ hfits),
      sameLaunch_enc_consume (sameLaunch_enc_opened h b hfits) 1⟩
  · exact .inr ⟨_, _, hi, iterate_extending (hd.trans hb) (h.runCnt ▸ hr) (h.dp ▸ h.dstCap ▸ hfits),
      sameLaunch_enc_consume (sameLaunch_enc_extended h b (fun h0 => hr (.inl h0)) hfits) 1⟩

theorem sameLaunch_enc_stepped (h : e.SameLaunch e') (hle : e.sp.toNat ≤ e.srcLen.toNat) :
    e.stepped.SameLaunch e'.stepped := by
  obtain ⟨hi, hi'⟩ | ⟨e₁, e₁', hi, hi', hsame⟩ := sameLaunch_enc_iterate (sameLaunch_enc_kept h) hle
  · rw [stepped_of_iterate_error hi, stepped_of_iterate_error hi']
    exact sameLaunch_enc_faulted (sameLaunch_enc_kept h) _
  · rwa [stepped_of_iterate_ok hi, stepped_of_iterate_ok hi']

theorem sameLaunch_enc_result (h : e.SameLaunch e') : e.result = e'.result := by
  rw [Encoder.result, Encoder.result, h.run, h.dp]
  congr 2
  exact Memory.readList_congr fun k hk => h.emitted _ (by rw [h.dp]; omega)

end

/-- Settles O40: the decision is made from the source and the registers, and what is emitted is written, never read. -/
theorem encoderIgnoresPriorOutputContents : Obligations.EncoderIgnoresPriorOutputContents := by
  intro s s' t hm hm' h hle hs
  rw [step_eq_stepped_enc hm] at hs; cases hs
  exact ⟨_, step_eq_stepped_enc hm', sameLaunch_enc_stepped h hle, sameLaunch_enc_result (sameLaunch_enc_stepped h hle)⟩

end Sys2Proof.Machine
end

section
/-! The proofs of the machine's invariant (10_state.md sections 2, 3 and 5, 60_exceptions.md section 1): it holds after
reset, and each move that changes an engine keeps it. -/

namespace Sys2Proof.Machine

/-- Bytes written at the end of what is known extend it. -/
theorem Memory.known_writeList {m : Memory} {n : Nat} (h : ∀ a < n, m.lookup a ≠ none) (vs : List Byte) {a : Nat}
    (ha : a < n + vs.length) : (m.writeList n vs).lookup a ≠ none := by
  rw [Memory.lookup_writeList]
  split_ifs with hin
  · rw [List.getElem?_eq_getElem (by omega)]; nofun
  · exact h a (by omega)

theorem cursorsBehind_mono {c : Cursors} {sp dp sp' dp' : Word} (h : cursorsBehind c sp dp)
    (hsp : sp.toNat ≤ sp'.toNat) (hdp : dp.toNat ≤ dp'.toNat) : cursorsBehind c sp' dp' :=
  ⟨h.1.trans hsp, h.2.trans hdp⟩

/-! ### `DEC` -/

/-- The invariant of a `DEC` that is not `BUSY`: its clauses about a launch ask for nothing. -/
theorem inv_dec_of_not_busy {d : Decoder} (hb : d.run ≠ .busy) (hdin : d.din.wf = true) (hdout : d.dout.wf = true)
    (hnoCode : d.run ≠ .err → d.errCode = 0)
    (hfaultCode : d.run = .err → d.errCode = 2 ∨ d.errCode = 3 ∨ d.errCode = 4)
    (htrail : ∀ c ∈ d.trail, c.runIdx = 0 ∧ c.runCnt = 0) : d.Inv :=
  ⟨hdin, hdout, fun h => absurd h hb, fun h => absurd h hb, fun h => absurd h hb, hnoCode, hfaultCode,
    fun h => absurd h hb, htrail⟩

section
variable {d : Decoder}

theorem inv_dec_kept (h : d.Inv) : d.kept.Inv :=
  ⟨h.dinWf, h.doutWf, h.streamBound, h.outputBound, h.written, h.noCode, h.faultCode,
    fun hb => List.forall_mem_cons.2 ⟨⟨le_rfl, le_rfl⟩, h.trailBehind hb⟩,
    List.forall_mem_cons.2 ⟨⟨rfl, rfl⟩, h.trailRunRecord⟩⟩

theorem inv_dec_faulted (h : d.Inv) {c : Cause}
    (hc : c = .truncatedStream ∨ c = .bufferOverrun ∨ c = .unwrittenSource) : (d.faulted c).Inv := by
  refine inv_dec_of_not_busy nofun h.dinWf h.doutWf (fun hne => absurd rfl hne) (fun _ => ?_) h.trailRunRecord
  obtain rfl | rfl | rfl := hc
  · exact .inr (.inl rfl)
  · exact .inl rfl
  · exact .inr (.inr rfl)

theorem inv_dec_completed (h : d.Inv) (hb : d.run = .busy) {i : Instr} (hi : d.holdsInstr i)
    (hfault : instrFault d i = none) : (d.completed i).Inv := by
  have hcode : d.errCode = 0 := h.noCode (by rw [hb]; nofun)
  by_cases hend : i = .endMarker
  · subst hend
    exact inv_dec_of_not_busy nofun h.dinWf h.doutWf (fun _ => hcode) nofun h.trailRunRecord
  have hfit : d.sp.toNat + i.size ≤ d.srcLen.toNat := hi.2.1
  obtain ⟨-, -, hcap⟩ := instrFault_none hfault
  have hsp := completed_sp hi
  have hdp := completed_dp hfault
  rw [completed_of_ne hend] at hsp hdp ⊢
  refine ⟨h.dinWf, wf_completedDout h.doutWf (hcap hend), fun _ => hsp.le.trans hfit, fun _ => hdp.le.trans (hcap hend),
    fun _ a ha => ?_, fun _ => hcode, fun herr => (nomatch hb.symm.trans herr), fun _ c hc => ?_, h.trailRunRecord⟩
  · rcases Nat.lt_or_ge a d.dp.toNat with hlt | hge
    · rw [advance_dout, lookup_completedDout_outside i d a (.inl hlt)]
      exact h.written hb a hlt
    · obtain ⟨v, hv⟩ := lookup_completedDout_inside i d a hge (by omega)
      rw [advance_dout, hv]
      nofun
  · exact cursorsBehind_mono (h.trailBehind hb c hc) (by omega) (by omega)

theorem inv_dec_stepped (h : d.Inv) (hb : d.run = .busy) : d.stepped.Inv := by
  obtain ⟨c, hc, hstepped⟩ | ⟨i, hi, hfault, hstepped⟩ := stepped_dec_cases d <;> rw [hstepped]
  · exact inv_dec_faulted (inv_dec_kept h) hc
  · exact inv_dec_completed (inv_dec_kept h) hb hi hfault

theorem inv_dec_afterReset (h : d.Inv) : d.afterReset.Inv := by
  by_cases hb : d.run = .busy
  · rw [afterReset_dec_busy hb]
    exact inv_dec_of_not_busy nofun h.dinWf (Memory.wf_forgetBelow _ h.doutWf) (fun _ => rfl) nofun nofun
  · rw [afterReset_dec_not_busy hb]
    exact inv_dec_of_not_busy nofun h.dinWf h.doutWf (fun _ => rfl) nofun nofun

end

/-! ### `ENC` -/

/-- The invariant of an `ENC` that is not `BUSY`: its clauses about a launch ask for nothing. -/
theorem inv_enc_of_not_busy {e : Encoder} (hb : e.run ≠ .busy) (hein : e.ein.wf = true) (heout : e.eout.wf = true)
    (hnoCode : e.run ≠ .err → e.errCode = 0) (hfaultCode : e.run = .err → e.errCode = 5) : e.Inv :=
  ⟨hein, heout, fun h => absurd h hb, fun h => absurd h hb, fun h => absurd h hb, fun h => absurd h hb,
    fun h => absurd h hb, fun h => absurd h hb, hnoCode, hfaultCode, fun h => absurd h hb⟩

section
variable {e : Encoder}

theorem inv_enc_kept (h : e.Inv) : e.kept.Inv :=
  ⟨h.einWf, h.eoutWf, h.sourceBound, h.outputBound, h.written, h.runTagHeld, h.runEnds, h.runHolds, h.noCode,
    h.faultCode, fun hb => List.forall_mem_cons.2 ⟨⟨le_rfl, le_rfl⟩, h.trailBehind hb⟩⟩

theorem inv_enc_faulted (h : e.Inv) : (e.faulted .outputExhausted).Inv :=
  inv_enc_of_not_busy nofun h.einWf h.eoutWf (fun hne => absurd rfl hne) fun _ => rfl

theorem wf_eout_writeList (h : e.Inv) {vs : List Byte} (hfits : e.dp.toNat + vs.length ≤ e.dstCap.toNat) :
    (e.eout.writeList e.dp.toNat vs).wf = true :=
  Memory.wf_writeList vs h.eoutWf (hfits.trans (Nat.le_of_lt e.dstCap.isLt))

theorem inv_enc_ended (h : e.Inv) (hb : e.run = .busy) (hfits : e.dp.toNat + 1 ≤ e.dstCap.toNat) : e.ended.Inv :=
  inv_enc_of_not_busy nofun h.einWf (wf_eout_writeList h (vs := encode .endMarker) hfits)
    (fun _ => h.noCode (by rw [hb]; nofun)) nofun

theorem inv_enc_emitted (h : e.Inv) (hb : e.run = .busy) {i : Instr} (hi : e.chooses i)
    (hfits : e.dp.toNat + i.size ≤ e.dstCap.toNat) : ((e.emitted i).consume (producedCount i)).Inv := by
  obtain ⟨-, hfit⟩ := chooses_bounds hi
  have hsp := consumed_sp (e := e) (e' := e.emitted i) rfl hfit
  have hdp := emitted_dp hfits
  refine ⟨h.einWf, wf_eout_writeList h (by rwa [encode_length]), fun _ => hsp.le.trans hfit,
    fun _ => hdp.le.trans hfits, fun _ a ha => ?_, fun _ hr => absurd rfl hr, fun _ hr => absurd rfl hr,
    fun _ hr => absurd rfl hr, h.noCode, h.faultCode, fun _ c hc => ?_⟩
  · refine Memory.known_writeList (h.written hb) (encode i) ?_
    rw [encode_length, ← hdp]
    exact ha
  · exact cursorsBehind_mono (h.trailBehind hb c hc) (by omega) (by rw [consume_dp]; omega)

theorem runTag_one : runTag 1 = 0x81#8 := by decide

theorem inv_enc_opened (h : e.Inv) (hb : e.run = .busy) {b : Byte} (hd : e.decision = .literal b)
    (hfits : e.dp.toNat + 2 ≤ e.dstCap.toNat) : ((e.opened b).consume 1).Inv := by
  obtain ⟨-, hbyte⟩ := of_decision_literal hd
  have hfit : e.sp.toNat + 1 ≤ e.srcLen.toNat := sp_lt_of_decision_literal hd (h.sourceBound hb)
  have hsp := consumed_sp (e := e) (e' := e.opened b) rfl hfit
  have hdp := opened_dp b hfits
  refine ⟨h.einWf, wf_eout_writeList h hfits, fun _ => hsp.le.trans hfit, fun _ => hdp.le.trans hfits,
    fun _ a ha => Memory.known_writeList (h.written hb) [0x81#8, b] (hdp ▸ ha), fun _ _ => ?tag, fun _ _ => ?ends,
    fun _ _ => ⟨?count, fun i hi => ?byte⟩, h.noCode, h.faultCode, fun _ c hc => ?trail⟩
  case tag =>
    show (e.eout.writeList e.dp.toNat [0x81#8, b]).lookup e.dp.toNat = _
    rw [Memory.lookup_writeList, if_pos ⟨le_rfl, Nat.lt_add_of_pos_right Nat.two_pos⟩, Nat.sub_self]
    exact congrArg some runTag_one.symm
  case ends => exact hdp.symm
  case count => rw [hsp]; exact Nat.le_add_left ..
  case byte =>
    obtain rfl : i = 0 := Nat.lt_one_iff.1 hi
    rw [hsp]
    exact (Memory.read_writeList_of_getElem? _ _ _ (k := 1) rfl).trans hbyte
  case trail => exact cursorsBehind_mono (h.trailBehind hb c hc) (by omega) (by rw [consume_dp]; omega)

theorem toNat_runCnt_succ {n : BitVec 6} (h : n ≠ 63) : (n + 1).toNat = n.toNat + 1 := by bv_omega

theorem inv_enc_extended (h : e.Inv) (hb : e.run = .busy) {b : Byte} (hd : e.decision = .literal b)
    (hr : ¬(e.runCnt = 0 ∨ e.runCnt = 63)) (hfits : e.dp.toNat + 1 ≤ e.dstCap.toNat) :
    ((e.extended b).consume 1).Inv := by
  obtain ⟨hopen, hnotfull⟩ := not_or.1 hr
  obtain ⟨-, hbyte⟩ := of_decision_literal hd
  have hfit : e.sp.toNat + 1 ≤ e.srcLen.toNat := sp_lt_of_decision_literal hd (h.sourceBound hb)
  have hsp := consumed_sp (e := e) (e' := e.extended b) rfl hfit
  have hdp := extended_dp b hfits
  have hcnt : ((e.extended b).consume 1).runCnt.toNat = e.runCnt.toNat + 1 := toNat_runCnt_succ hnotfull
  have hends := h.runEnds hb hopen
  obtain ⟨hle, hholds⟩ := h.runHolds hb hopen
  refine ⟨h.einWf, Memory.wf_write _ (Memory.wf_write _ h.eoutWf e.dp.isLt) e.runIdx.isLt,
    fun _ => hsp.le.trans hfit, fun _ => hdp.le.trans hfits, fun _ a ha => ?written,
    fun _ _ => Memory.lookup_write_same _ _ _, fun _ _ => ?ends, fun _ _ => ⟨?count, fun i hi => ?byte⟩, h.noCode,
    h.faultCode, fun _ c hc => ?trail⟩
  case written =>
    show ((e.eout.write e.dp.toNat b).write e.runIdx.toNat _).lookup a ≠ none
    rw [Memory.lookup_write, Memory.lookup_write]
    have ha : a < e.dp.toNat + 1 := hdp ▸ ha
    split_ifs with htag hlast
    · nofun
    · nofun
    · exact h.written hb a (by omega)
  case ends => rw [hcnt, consume_dp, hdp, ← hends]; rfl
  case count => rw [hcnt, hsp]; omega
  case byte =>
    rw [hcnt] at hi
    rw [hcnt, hsp, Nat.add_sub_add_right]
    show ((e.eout.write e.dp.toNat b).write e.runIdx.toNat _).read e.unknownEout (e.runIdx.toNat + 1 + i) =
      e.einByte (e.sp.toNat - e.runCnt.toNat + i)
    rw [Memory.read_write, if_neg (by omega), Memory.read_write]
    split_ifs with hlast
    · rw [hbyte]; congr 1; omega
    · exact hholds i (by omega)
  case trail => exact cursorsBehind_mono (h.trailBehind hb c hc) (by omega) (by rw [consume_dp]; omega)

theorem inv_enc_iterate (h : e.Inv) (hb : e.run = .busy) {e' : Encoder} (hi : e.iterate = .ok e') : e'.Inv := by
  obtain ⟨-, hit⟩ | ⟨-, hfits, hit⟩ | ⟨i, hc, hfits, hit⟩ | ⟨b, hd, -, hfits, hit⟩ | ⟨b, hd, hr, hfits, hit⟩ :=
    iterate_cases e <;> cases hit.symm.trans hi
  · exact inv_enc_ended h hb hfits
  · exact inv_enc_emitted h hb hc hfits
  · exact inv_enc_opened h hb hd hfits
  · exact inv_enc_extended h hb hd hr hfits

theorem inv_enc_stepped (h : e.Inv) (hb : e.run = .busy) : e.stepped.Inv := by
  cases hi : e.kept.iterate with
  | error c => rw [stepped_of_iterate_error hi]; exact inv_enc_faulted (inv_enc_kept h)
  | ok e' => rw [stepped_of_iterate_ok hi]; exact inv_enc_iterate (inv_enc_kept h) hb hi

theorem inv_enc_afterReset (h : e.Inv) : e.afterReset.Inv := by
  by_cases hb : e.run = .busy
  · rw [afterReset_enc_busy hb]
    exact inv_enc_of_not_busy nofun h.einWf (Memory.wf_forgetBelow _ h.eoutWf) (fun _ => rfl) nofun
  · rw [afterReset_enc_not_busy hb]
    exact inv_enc_of_not_busy nofun h.einWf h.eoutWf (fun _ => rfl) nofun

end

/-! ### The host's moves -/

section
variable {s : State}

theorem inv_launch (h : s.Inv) (e : Engine) : (launch e s).Inv := by
  cases e with
  | dec =>
    exact ⟨⟨h.dec.dinWf, h.dec.doutWf, fun _ => Nat.zero_le _, fun _ => Nat.zero_le _, fun _ _ => nofun, fun _ => rfl,
      nofun, fun _ => nofun, nofun⟩, h.enc⟩
  | enc =>
    exact ⟨h.dec, h.enc.einWf, h.enc.eoutWf, fun _ => Nat.zero_le _, fun _ => Nat.zero_le _, fun _ _ => nofun,
      fun _ hr => absurd rfl hr, fun _ hr => absurd rfl hr, fun _ hr => absurd rfl hr, fun _ => rfl, nofun,
      fun _ => nofun⟩

/-- Whatever the host stores in a decoder that is not `BUSY`, only the canonical form of its spaces is asked for. -/
theorem inv_dec_stored {d : Decoder} (h : d.Inv) (hb : d.run ≠ .busy) (srcLen dstCap : Word) {din dout : Memory}
    (hdin : din.wf = true) (hdout : dout.wf = true) :
    { d with srcLen := srcLen, dstCap := dstCap, din := din, dout := dout : Decoder }.Inv :=
  inv_dec_of_not_busy hb hdin hdout h.noCode h.faultCode h.trailRunRecord

/-- Whatever the host stores in an encoder that is not `BUSY`, only the canonical form of its spaces is asked for. -/
theorem inv_enc_stored {e : Encoder} (h : e.Inv) (hb : e.run ≠ .busy) (srcLen dstCap : Word) {ein eout : Memory}
    (hein : ein.wf = true) (heout : eout.wf = true) :
    { e with srcLen := srcLen, dstCap := dstCap, ein := ein, eout := eout : Encoder }.Inv :=
  inv_enc_of_not_busy hb hein heout h.noCode h.faultCode

theorem inv_writeSrcLen (h : s.Inv) {e : Engine} (hb : s.runOf e ≠ .busy) (v : Word) : (writeSrcLen e v s).Inv := by
  cases e with
  | dec => exact ⟨inv_dec_stored h.dec hb v _ h.dec.dinWf h.dec.doutWf, h.enc⟩
  | enc => exact ⟨h.dec, inv_enc_stored h.enc hb v _ h.enc.einWf h.enc.eoutWf⟩

theorem inv_writeDstCap (h : s.Inv) {e : Engine} (hb : s.runOf e ≠ .busy) (v : Word) : (writeDstCap e v s).Inv := by
  cases e with
  | dec => exact ⟨inv_dec_stored h.dec hb _ v h.dec.dinWf h.dec.doutWf, h.enc⟩
  | enc => exact ⟨h.dec, inv_enc_stored h.enc hb _ v h.enc.einWf h.enc.eoutWf⟩

theorem inv_writeByteOf (h : s.Inv) {space : Space} (hb : s.runOf (spaceEngine space) ≠ .busy) {a : Nat}
    (ha : a < Config.indexLimit) (v : Byte) : (s.writeByteOf space a v).Inv := by
  cases space with
  | din => exact ⟨inv_dec_stored h.dec hb _ _ (Memory.wf_write v h.dec.dinWf ha) h.dec.doutWf, h.enc⟩
  | dout => exact ⟨inv_dec_stored h.dec hb _ _ h.dec.dinWf (Memory.wf_write v h.dec.doutWf ha), h.enc⟩
  | ein => exact ⟨h.dec, inv_enc_stored h.enc hb _ _ (Memory.wf_write v h.enc.einWf ha) h.enc.eoutWf⟩
  | eout => exact ⟨h.dec, inv_enc_stored h.enc hb _ _ h.enc.einWf (Memory.wf_write v h.enc.eoutWf ha)⟩

theorem inv_hostMove (h : s.Inv) {m : HostMove} {t : State} (hm : hostMove m s = .next t) : t.Inv := by
  cases m with
  | readReg e offset =>
    obtain ⟨answer, reads, hframe⟩ := hostReadReg_frame e offset s
    rw [hostMove, hframe] at hm; cases hm
    exact ⟨h.dec, h.enc⟩
  | writeReg e offset v =>
    obtain rfl | ⟨hb, ⟨-, -, rfl⟩ | rfl | rfl⟩ := hostWriteReg_cases hm
    · exact h
    · exact inv_launch h e
    · exact inv_writeSrcLen h hb v
    · exact inv_writeDstCap h hb v
  | readByte space index =>
    obtain ⟨-, -, rfl⟩ := hostByteAccess_next hm
    exact ⟨h.dec, h.enc⟩
  | writeByte space index v =>
    obtain ⟨hindex, hb, rfl⟩ := hostByteAccess_next hm
    exact inv_writeByteOf h hb hindex v
  | assertReset =>
    cases hm
    exact ⟨inv_dec_afterReset h.dec, inv_enc_afterReset h.enc⟩

end

/-! ### The obligations -/

/-- Settles O32: no engine is `BUSY`, no code is set and no space lists a byte. -/
theorem resetMeetsTheInvariant : Obligations.ResetMeetsTheInvariant := by
  obtain ⟨hdin, hdout, hein, heout⟩ := reset_spaces_wf
  exact ⟨inv_dec_of_not_busy nofun hdin hdout (fun _ => rfl) nofun nofun,
    inv_enc_of_not_busy nofun hein heout (fun _ => rfl) nofun⟩

/-- Settles O33, by whose move the step is: an engine's own step keeps its invariant and leaves the other engine, a move
of the host keeps both, and no other step changes an engine. -/
theorem everyStepKeepsTheInvariant : Obligations.EveryStepKeepsTheInvariant := by
  intro s t h hs
  have hentry : (takeEntry s).Inv := ⟨h.dec, h.enc⟩
  obtain ⟨hm, rfl⟩ | ⟨hm, rfl⟩ | ⟨m, -, hmove⟩ | ⟨b, -, rfl⟩ | ⟨-, rfl⟩ := step_cases hs
  · exact ⟨inv_dec_stepped h.dec (busy_of_decoderMoves hm), h.enc⟩
  · exact ⟨h.dec, inv_enc_stepped h.enc (busy_of_encoderMoves hm)⟩
  · exact inv_hostMove hentry hmove
  · exact ⟨h.dec, h.enc⟩
  · exact hentry

end Sys2Proof.Machine
end

section
/-! The proofs for the host's byte accesses and stops (10_state.md R21, 43_host_interface.md R140, R145, 20_memory.md
R50), and for what a launch depends on (10_state.md R28, 70_reset_and_hazards.md R181). -/

namespace Sys2Proof.Machine

/-! ### Byte accesses (43_host_interface.md R140, R145) -/

theorem byteOf_writeByteOf_same (s : State) (space : Space) (a : Nat) (v : Byte) :
    (s.writeByteOf space a v).byteOf space a = v := by
  cases space with
  | din | dout | ein | eout => exact Memory.read_write_same _ _ a v

theorem byteOf_writeByteOf_other (s : State) {space space' : Space} {a a' : Nat} (v : Byte)
    (h : space' ≠ space ∨ a' ≠ a) : (s.writeByteOf space a v).byteOf space' a' = s.byteOf space' a' := by
  by_cases hspace : space' = space
  · subst hspace
    have ha := h.resolve_left (not_not_intro rfl)
    cases space' with
    | din | dout | ein | eout => exact Memory.read_write_other _ _ v ha
  · cases space with
    | din => cases space' with
      | din => exact absurd rfl hspace
      | dout | ein | eout => rfl
    | dout => cases space' with
      | dout => exact absurd rfl hspace
      | din | ein | eout => rfl
    | ein => cases space' with
      | ein => exact absurd rfl hspace
      | din | dout | eout => rfl
    | eout => cases space' with
      | eout => exact absurd rfl hspace
      | din | dout | ein => rfl

theorem writeByteOf_registers (s : State) (space : Space) (a : Nat) (v : Byte) (e : Engine) :
    (s.writeByteOf space a v).cursorsOf e = s.cursorsOf e ∧ (s.writeByteOf space a v).runOf e = s.runOf e ∧
      (s.writeByteOf space a v).srcLenOf e = s.srcLenOf e ∧ (s.writeByteOf space a v).dstCapOf e = s.dstCapOf e ∧
      (s.writeByteOf space a v).errCodeOf e = s.errCodeOf e := by
  cases space <;> cases e <;> exact ⟨rfl, rfl, rfl, rfl, rfl⟩

/-- Settles O50: the access is the host's to make, and a write is felt at its index of its space only. -/
theorem hostByteWritesReachTheirSpace : Obligations.HostByteWritesReachTheirSpace := by
  intro s space a v hturn ha hb
  have hb : (takeEntry s).runOf (spaceEngine space) ≠ .busy := by cases space <;> exact hb
  refine ⟨_, (step_host hturn).trans (hostByteAccess_free ha hb), byteOf_writeByteOf_same _ space a v,
    fun space' a' h => ?_, fun e => ?_⟩
  · rw [byteOf_writeByteOf_other _ v h]
    cases space' <;> rfl
  · have hentry := writeByteOf_registers (takeEntry s) space a v e
    cases e <;> exact hentry

theorem result_dec_of_done {d : Decoder} (h : d.run = .done) :
    ∃ r, d.result = some r ∧ r.length = d.dp.toNat ∧ ∀ a < d.dp.toNat, r[a]? = some (d.doutByte a) := by
  refine ⟨_, if_pos h, Memory.length_readList .., fun a ha => ?_⟩
  rw [Memory.getElem?_readList _ _ ha, Nat.zero_add]
  rfl

theorem result_enc_of_done {e : Encoder} (h : e.run = .done) :
    ∃ r, e.result = some r ∧ r.length = e.dp.toNat ∧ ∀ a < e.dp.toNat, r[a]? = some (e.eoutByte a) := by
  refine ⟨_, if_pos h, Memory.length_readList .., fun a ha => ?_⟩
  rw [Memory.getElem?_readList _ _ ha, Nat.zero_add]
  rfl

theorem result_dec_of_err {d : Decoder} (h : d.run = .err) : d.result = none := if_neg (by rw [h]; nofun)

theorem result_enc_of_err {e : Encoder} (h : e.run = .err) : e.result = none := if_neg (by rw [h]; nofun)

/-- Settles O56: the access is the host's to make, and a byte of a result is the byte of the output space. -/
theorem hostByteReadsAnswerTheByte : Obligations.HostByteReadsAnswerTheByte := by
  intro s space a hturn ha hb
  have hb : (takeEntry s).runOf (spaceEngine space) ≠ .busy := by cases space <;> exact hb
  have hbyte : (takeEntry s).byteOf space a = s.byteOf space a := by cases space <;> rfl
  refine ⟨_, rfl, hbyte ▸ (step_host hturn).trans (hostByteAccess_free ha hb), ?_, ?_, fun _ => result_dec_of_err,
    fun _ => result_enc_of_err⟩
  · rintro rfl hdone
    obtain ⟨r, hr, hlen, hget⟩ := result_dec_of_done hdone
    exact ⟨r, hr, hlen, hget a⟩
  · rintro rfl hdone
    obtain ⟨r, hr, hlen, hget⟩ := result_enc_of_done hdone
    exact ⟨r, hr, hlen, hget a⟩

/-! ### Stops (10_state.md R21, 20_memory.md R50) -/

theorem hostByteAccess_owned {space : Space} {index : Nat} {s : State} (k : State) (h : index < Config.indexLimit)
    (hb : s.runOf (spaceEngine space) = .busy) :
    hostByteAccess space index s k = .refused (.spaceOwnedByEngine space) := by
  rw [hostByteAccess, if_neg (Nat.not_le.2 h), if_pos hb]

theorem hostByteAccess_outside {space : Space} {index : Nat} (s k : State) (h : Config.indexLimit ≤ index) :
    hostByteAccess space index s k = .fault (.indexOutsideSpace space index) := if_pos h

/-- A host's access to a byte, read or write, is decided by `hostByteAccess`. -/
theorem step_byte_access {s : State} {space : Space} {a : Nat} {v : Byte}
    (h : nextTurn s = .host (.readByte space a) ∨ nextTurn s = .host (.writeByte space a v)) :
    ∃ k, step s = hostByteAccess space a (takeEntry s) k := by
  obtain h | h := h
  · exact ⟨_, step_host h⟩
  · exact ⟨_, step_host h⟩

/-- Settles O51: each move meets its check. -/
theorem brokenPremisesStopByName : Obligations.BrokenPremisesStopByName := by
  refine fun s => ⟨fun e v hturn hv hb hp => ?_, fun space a v hb ha hturn => ?_, fun space a v ha hturn => ?_,
    fun b hturn hb => ?_⟩
  · have hb : (takeEntry s).runOf e ≠ .busy := by cases e <;> exact hb
    have hp : ¬launchPremises (takeEntry s) e = true := Bool.eq_false_iff.1 hp
    rw [step_host hturn, hostMove, hostWriteReg_ctrl hb, writeCtrl, if_pos hv, if_neg hp]
  · have hb : (takeEntry s).runOf (spaceEngine space) = .busy := by cases space <;> exact hb
    obtain ⟨k, hs⟩ := step_byte_access hturn
    exact hs.trans (hostByteAccess_owned k ha hb)
  · obtain ⟨k, hs⟩ := step_byte_access hturn
    exact hs.trans (hostByteAccess_outside _ k ha)
  · exact (step_platform hturn).trans (if_pos hb)

/-! ### What a launch depends on (10_state.md R28, 70_reset_and_hazards.md R181) -/

/-- Equal lists read from index 0 on are equal reads. -/
theorem Memory.read_eq_of_readList_eq {unknown unknown' : Nat → Byte} {m m' : Memory} {n a : Nat}
    (h : m.readList unknown 0 n = m'.readList unknown' 0 n) (ha : a < n) : m.read unknown a = m'.read unknown' a := by
  have hget := Memory.getElem?_readList unknown m (a := 0) ha
  rw [h, Memory.getElem?_readList unknown' m' ha, Nat.zero_add] at hget
  exact (Option.some.inj hget).symm

theorem stream_bytes {d d' : Decoder} (hlen : d.srcLen = d'.srcLen) (h : d.stream = d'.stream) :
    ∀ a < d.srcLen.toNat, d.dinByte a = d'.dinByte a := by
  rw [Decoder.stream, Decoder.stream, ← hlen] at h
  exact fun a ha => Memory.read_eq_of_readList_eq h ha

theorem source_bytes {e e' : Encoder} (hlen : e.srcLen = e'.srcLen) (h : e.source = e'.source) :
    ∀ a < e.srcLen.toNat, e.einByte a = e'.einByte a := by
  rw [Encoder.source, Encoder.source, ← hlen] at h
  exact fun a ha => Memory.read_eq_of_readList_eq h ha

/-- Settles O54: `START` sets every other register, and no output byte lies below a write cursor of 0. -/
theorem launchesForgetThePast : Obligations.LaunchesForgetThePast :=
  fun _ _ =>
    ⟨fun hlen hcap h => ⟨rfl, rfl, hlen, hcap, rfl, rfl, stream_bytes hlen h, fun _ => nofun⟩,
     fun hlen hcap h => ⟨rfl, rfl, hlen, hcap, rfl, rfl, rfl, fun hr => absurd rfl hr, source_bytes hlen h,
      fun _ => nofun⟩⟩

section
variable {s s' : State}

theorem sameLaunch_dec_of_fresh (h : s.dec.fresh) (h' : s'.dec.fresh) (hlen : s.dec.srcLen = s'.dec.srcLen)
    (hcap : s.dec.dstCap = s'.dec.dstCap) (hstream : s.dec.stream = s'.dec.stream) : s.dec.SameLaunch s'.dec := by
  obtain ⟨hrun, hsp, hdp, hcode⟩ := h
  obtain ⟨hrun', hsp', hdp', hcode'⟩ := h'
  refine ⟨hrun.trans hrun'.symm, hcode.trans hcode'.symm, hlen, hcap, hsp.trans hsp'.symm, hdp.trans hdp'.symm,
    stream_bytes hlen hstream, fun a ha => ?_⟩
  rw [hdp] at ha
  exact absurd ha (Nat.not_lt_zero a)

theorem sameLaunch_enc_of_fresh (h : s.enc.fresh) (h' : s'.enc.fresh) (hlen : s.enc.srcLen = s'.enc.srcLen)
    (hcap : s.enc.dstCap = s'.enc.dstCap) (hsource : s.enc.source = s'.enc.source) : s.enc.SameLaunch s'.enc := by
  obtain ⟨hrun, hsp, hdp, hcode, hcnt⟩ := h
  obtain ⟨hrun', hsp', hdp', hcode', hcnt'⟩ := h'
  refine ⟨hrun.trans hrun'.symm, hcode.trans hcode'.symm, hlen, hcap, hsp.trans hsp'.symm, hdp.trans hdp'.symm,
    hcnt.trans hcnt'.symm, fun hr => absurd hcnt hr, source_bytes hlen hsource, fun a ha => ?_⟩
  rw [hdp] at ha
  exact absurd ha (Nat.not_lt_zero a)

/-- With an empty agenda a step of the machine is `DEC`'s while it is `BUSY`, and leaves `DEC` as it is after that. -/
theorem step_dec_of_agenda_nil (ha : s.agenda = []) :
    ∃ t, step s = .next t ∧ t.agenda = [] ∧ t.dec = if s.dec.run = .busy then s.dec.stepped else s.dec := by
  by_cases hd : s.dec.run = .busy
  · have hs := step_eq_stepped_dec (decoderMoves_of_busy ha hd)
    rw [takeEntry_of_agenda_nil ha] at hs
    exact ⟨_, hs, ha, (if_pos hd).symm⟩
  by_cases he : s.enc.run = .busy
  · have hs := step_eq_stepped_enc (encoderMoves_of_busy ha hd he)
    rw [takeEntry_of_agenda_nil ha] at hs
    exact ⟨_, hs, ha, (if_neg hd).symm⟩
  · have hs := step_rest (rest_of_not_busy ha hd he)
    rw [takeEntry_of_agenda_nil ha] at hs
    exact ⟨_, hs, ha, (if_neg hd).symm⟩

/-- With an empty agenda and `DEC` not `BUSY` a step of the machine is `ENC`'s while it is `BUSY`, and after that
nothing moves. -/
theorem step_enc_of_agenda_nil (ha : s.agenda = []) (hd : s.dec.run ≠ .busy) :
    step s = .next { s with enc := if s.enc.run = .busy then s.enc.stepped else s.enc } := by
  by_cases he : s.enc.run = .busy
  · rw [step_eq_stepped_enc (encoderMoves_of_busy ha hd he), takeEntry_of_agenda_nil ha, if_pos he]
  · rw [step_rest (rest_of_not_busy ha hd he), takeEntry_of_agenda_nil ha, if_neg he]

/-- Two launches of `DEC` alike stay alike, step for step. -/
theorem run_sameLaunch_dec (k : Nat) (ha : s.agenda = []) (ha' : s'.agenda = []) (h : s.dec.SameLaunch s'.dec) :
    ∃ t t', core.run k s = .next t ∧ core.run k s' = .next t' ∧ t.dec.SameLaunch t'.dec := by
  induction k generalizing s s' with
  | zero => exact ⟨s, s', rfl, rfl, h⟩
  | succ k ih =>
    obtain ⟨s₁, hs, ha₁, hd⟩ := step_dec_of_agenda_nil ha
    obtain ⟨s₁', hs', ha₁', hd'⟩ := step_dec_of_agenda_nil ha'
    rw [run_succ hs, run_succ hs']
    refine ih ha₁ ha₁' ?_
    rw [hd, hd', ← h.run]
    split_ifs
    · exact sameLaunch_dec_stepped h
    · exact h

/-- `ENC` is at or before the end of its source while it is `BUSY` (10_state.md R17); its steps keep that. -/
theorem stepped_enc_sourceBound {e : Encoder} (h : e.run = .busy → e.sp.toNat ≤ e.srcLen.toNat) (hb : e.run = .busy) :
    e.stepped.run = .busy → e.stepped.sp.toNat ≤ e.stepped.srcLen.toNat := by
  intro hb'
  obtain ⟨herr, -⟩ | hdone | ⟨-, hlen, -, hle⟩ := stepped_enc_progress hb (h hb)
  · cases hb'.symm.trans herr
  · cases hb'.symm.trans hdone
  · rwa [hlen]

/-- Two launches of `ENC` alike stay alike, step for step. -/
theorem run_sameLaunch_enc (k : Nat) (ha : s.agenda = []) (ha' : s'.agenda = []) (hd : s.dec.run ≠ .busy)
    (hd' : s'.dec.run ≠ .busy) (h : s.enc.SameLaunch s'.enc)
    (hle : s.enc.run = .busy → s.enc.sp.toNat ≤ s.enc.srcLen.toNat) :
    ∃ t t', core.run k s = .next t ∧ core.run k s' = .next t' ∧ t.enc.SameLaunch t'.enc := by
  induction k generalizing s s' with
  | zero => exact ⟨s, s', rfl, rfl, h⟩
  | succ k ih =>
    rw [run_succ (step_enc_of_agenda_nil ha hd), run_succ (step_enc_of_agenda_nil ha' hd'), ← h.run]
    split_ifs with hb
    · exact ih ha ha' hd hd' (sameLaunch_enc_stepped h (hle hb)) (stepped_enc_sourceBound hle hb)
    · exact ih ha ha' hd hd' h hle

end

/-- Settles O41: the first launch ends after some number of steps, and the second, alike in everything it depends on, is
then where the first is. -/
theorem aLaunchIsAFunctionOfItsInputs : Obligations.ALaunchIsAFunctionOfItsInputs := by
  refine fun s s' ha ha' => ⟨fun hf hf' hlen hcap hin => ?_, fun hd hd' hf hf' hlen hcap hin => ?_⟩
  · obtain ⟨k, t₀, -, hrun₀, hend⟩ := decoderLaunchTerminates s ha hf.1
    obtain ⟨t, t', hrun, hrun', h⟩ := run_sameLaunch_dec k ha ha' (sameLaunch_dec_of_fresh hf hf' hlen hcap hin)
    cases hrun₀.symm.trans hrun
    refine ⟨k, t₀, t', hrun, hrun', fun hb => ?_, h.run, h.errCode, h.sp, h.dp, sameLaunch_dec_result h⟩
    obtain ⟨hdone, -⟩ | herr := hend
    · cases hb.symm.trans hdone
    · cases hb.symm.trans herr
  · have hsp : s.enc.sp.toNat ≤ s.enc.srcLen.toNat := by rw [hf.2.1]; exact Nat.zero_le _
    obtain ⟨k, t₀, -, hrun₀, hend⟩ := encoderLaunchTerminates s ha hd hf.1 hsp
    obtain ⟨t, t', hrun, hrun', h⟩ :=
      run_sameLaunch_enc k ha ha' hd hd' (sameLaunch_enc_of_fresh hf hf' hlen hcap hin) fun _ => hsp
    cases hrun₀.symm.trans hrun
    refine ⟨k, t₀, t', hrun, hrun', fun hb => ?_, h.run, h.errCode, h.sp, h.dp, h.runCnt, sameLaunch_enc_result h⟩
    obtain hdone | ⟨herr, -⟩ := hend
    · cases hb.symm.trans hdone
    · cases hb.symm.trans herr

end Sys2Proof.Machine
end

section
/-! The proof of 42_encoder_emit.md R127: a launch of `ENC` on `n` source bytes emits at most `n + ceil(n/4) + 1`
bytes. -/

namespace Sys2Proof.Machine

/-! ### What holds of a launch of `ENC` at every step -/

theorem stepped_enc_sameParameters (e : Encoder) : e.SameParameters e.stepped := by
  cases hi : e.kept.iterate with
  | error c => rw [stepped_of_iterate_error hi]; exact ⟨rfl, rfl, rfl⟩
  | ok e' => rw [stepped_of_iterate_ok hi]; exact iterate_sameParameters (e := e.kept) hi

/-- What each step of a `BUSY` `ENC` keeps holds as long as the machine runs with an empty agenda and `DEC` at rest. -/
theorem run_enc_keeps {P : Encoder → Prop} (hstep : ∀ e, P e → e.run = .busy → P e.stepped) {k : Nat} {s t : State}
    (ha : s.agenda = []) (hd : s.dec.run ≠ .busy) (h : P s.enc) (hrun : core.run k s = .next t) : P t.enc := by
  induction k generalizing s with
  | zero => cases hrun; exact h
  | succ k ih =>
    rw [run_succ (step_enc_of_agenda_nil ha hd)] at hrun
    split_ifs at hrun with hb
    · exact ih (s := { s with enc := s.enc.stepped }) ha hd (hstep _ h hb) hrun
    · exact ih (s := s) ha hd h hrun

/-! ### The emitted bytes against the source bytes they stand for (42_encoder_emit.md R127)

A fill or copy of `c` source bytes has at most `(5c - 3) / 4` bytes, and a literal run one more than it stands for. So
where no run is open the stream is at most a quarter longer than what it stands for; an open run may owe its tag,
which the next three consumed bytes make up for. -/

/-- The stream of `e` is within its budget, counted in quarters of a byte. -/
def Encoder.WithinBudget (e : Encoder) : Prop :=
  (e.runCnt = 0 → 4 * e.dp.toNat ≤ 5 * e.sp.toNat) ∧ 4 * e.dp.toNat + e.runCnt.toNat ≤ 5 * e.sp.toNat + 4

section
variable {e : Encoder}

theorem cost_of_chooses {i : Instr} (h : e.chooses i) : 4 * i.size + 3 ≤ 5 * producedCount i := by
  obtain ⟨count, value, hd, rfl⟩ | ⟨L, m, hd, rfl⟩ := h
  · obtain ⟨hmin, -⟩ := of_decision_fill hd
    simp only [Instr.size, producedCount]
    omega
  · obtain ⟨-, hmin, -⟩ := of_decision_copy hd
    rw [producedCount_tierFor, size_tierFor]
    split_ifs <;> omega

/-- The debt of an open run is less than its tag. -/
theorem withinBudget_dp (h : e.WithinBudget) : 4 * e.dp.toNat ≤ 5 * e.sp.toNat + 3 := by
  obtain ⟨hclosed, hopen⟩ := h
  by_cases hr : e.runCnt = 0
  · exact (hclosed hr).trans (Nat.le_add_right ..)
  · have hpos : 0 < e.runCnt.toNat := Nat.pos_of_ne_zero fun h0 => hr (BitVec.eq_of_toNat_eq h0)
    omega

/-- A run that is closed or full owes nothing. -/
theorem withinBudget_closed (h : e.WithinBudget) (hr : e.runCnt = 0 ∨ e.runCnt = 63) :
    4 * e.dp.toNat ≤ 5 * e.sp.toNat := by
  obtain ⟨hclosed, hopen⟩ := h
  obtain hr | hr := hr
  · exact hclosed hr
  · rw [hr, show (63 : BitVec 6).toNat = 63 from rfl] at hopen
    omega

/-- Within its budget, an emission ends below the bound of R127. -/
theorem withinBudget_emission (h : e.WithinBudget) (hle : e.sp.toNat ≤ e.srcLen.toNat) :
    4 * (e.dp.toNat + e.emissionSize) ≤ 5 * e.srcLen.toNat + 7 := by
  have hdp := withinBudget_dp h
  cases hd : e.decision with
  | finish => rw [emissionSize_finish hd]; omega
  | fill count value =>
    have hi : e.chooses (.fill count value) := .inl ⟨_, _, hd, rfl⟩
    have hcost := cost_of_chooses hi
    obtain ⟨-, hfit⟩ := chooses_bounds hi
    rw [emissionSize_of_chooses hi]
    omega
  | copy L m =>
    have hi : e.chooses (tierFor L m e.sp.toNat) := .inr ⟨_, _, hd, rfl⟩
    have hcost := cost_of_chooses hi
    obtain ⟨-, hfit⟩ := chooses_bounds hi
    rw [emissionSize_of_chooses hi]
    omega
  | literal b =>
    have hlt := sp_lt_of_decision_literal hd hle
    by_cases hr : e.runCnt = 0 ∨ e.runCnt = 63
    · have hclosed := withinBudget_closed h hr
      rw [emissionSize_opening hd hr]
      omega
    · rw [emissionSize_extending hd hr]
      omega

/-- With the capacity of R127 an iteration goes through; it ends the stream below the bound, or stays within its
budget. -/
theorem withinBudget_iterate (h : e.WithinBudget) (hle : e.sp.toNat ≤ e.srcLen.toNat)
    (hcap : e.srcLen.toNat + (e.srcLen.toNat + 3) / 4 + 1 ≤ e.dstCap.toNat) :
    ∃ e', e.iterate = .ok e' ∧
      ((e'.run = .done ∧ e'.dp.toNat ≤ e.srcLen.toNat + (e.srcLen.toNat + 3) / 4 + 1) ∨
        (e'.run = e.run ∧ e'.sp.toNat ≤ e.srcLen.toNat ∧ e'.WithinBudget)) := by
  have hemission := withinBudget_emission h hle
  have hdp := withinBudget_dp h
  obtain ⟨hfull, -⟩ | ⟨hsp, hfits, hi⟩ | ⟨i, hc, hfits, hi⟩ | ⟨b, hd, hr, hfits, hi⟩ | ⟨b, hd, hr, hfits, hi⟩ :=
    iterate_cases e
  · omega
  · have hdp' : e.ended.dp.toNat = e.dp.toNat + 1 := emitted_dp (i := .endMarker) hfits
    rw [hsp] at hdp
    exact ⟨_, hi, .inl ⟨rfl, by omega⟩⟩
  · obtain ⟨-, hfit⟩ := chooses_bounds hc
    have hcost := cost_of_chooses hc
    have hdp' := emitted_dp hfits
    have hsp' := consumed_sp (e := e) (e' := e.emitted i) rfl hfit
    have hbudget : 4 * (e.emitted i).dp.toNat ≤ 5 * ((e.emitted i).consume (producedCount i)).sp.toNat := by omega
    exact ⟨_, hi, .inr ⟨rfl, hsp'.le.trans hfit, fun _ => hbudget, hbudget.trans (Nat.le_add_right ..)⟩⟩
  · have hclosed := withinBudget_closed h hr
    have hdp' := opened_dp b hfits
    have hfit := sp_lt_of_decision_literal hd hle
    have hsp' := consumed_sp (e := e) (e' := e.opened b) (count := 1) rfl hfit
    refine ⟨_, hi, .inr ⟨rfl, hsp'.le.trans hfit, nofun, ?_⟩⟩
    show 4 * (e.opened b).dp.toNat + 1 ≤ _
    omega
  · obtain ⟨-, hopen⟩ := h
    have hcnt := toNat_runCnt_succ fun hfull => hr (.inr hfull)
    have hdp' := extended_dp b hfits
    have hfit := sp_lt_of_decision_literal hd hle
    have hsp' := consumed_sp (e := e) (e' := e.extended b) (count := 1) rfl hfit
    refine ⟨_, hi, .inr ⟨rfl, hsp'.le.trans hfit, fun h0 => ?_, ?_⟩⟩
    · have h0 : e.runCnt + 1 = 0 := h0
      rw [h0] at hcnt
      exact absurd hcnt (Nat.succ_ne_zero _).symm
    · show 4 * (e.extended b).dp.toNat + (e.runCnt + 1).toNat ≤ _
      omega

end

/-- A launch with the capacity of R127: `BUSY` within its budget, or `DONE` within the bound. -/
def Encoder.NeverExhausts (e : Encoder) : Prop :=
  e.srcLen.toNat + (e.srcLen.toNat + 3) / 4 + 1 ≤ e.dstCap.toNat ∧
    ((e.run = .busy ∧ e.sp.toNat ≤ e.srcLen.toNat ∧ e.WithinBudget) ∨
      (e.run = .done ∧ e.dp.toNat ≤ e.srcLen.toNat + (e.srcLen.toNat + 3) / 4 + 1))

theorem neverExhausts_stepped (e : Encoder) (h : e.NeverExhausts) (hb : e.run = .busy) : e.stepped.NeverExhausts := by
  obtain ⟨hcap, ⟨-, hle, hbudget⟩ | ⟨hdone, -⟩⟩ := h
  · obtain ⟨-, hlen, hdstCap⟩ := stepped_enc_sameParameters e
    obtain ⟨e', hi, hend⟩ := withinBudget_iterate (e := e.kept) hbudget hle hcap
    rw [Encoder.NeverExhausts, hlen, hdstCap, stepped_of_iterate_ok hi]
    exact ⟨hcap, hend.symm.imp_left fun ⟨hrun, hle', hbudget'⟩ => ⟨hrun.trans hb, hle', hbudget'⟩⟩
  · cases hb.symm.trans hdone

theorem sameParameters_stepped (e₀ e : Encoder) (h : e₀.SameParameters e) : e₀.SameParameters e.stepped := by
  obtain ⟨hein, hlen, hcap⟩ := h
  obtain ⟨hein', hlen', hcap'⟩ := stepped_enc_sameParameters e
  exact ⟨hein'.trans hein, hlen'.trans hlen, hcap'.trans hcap⟩

/-- Settles O38: a launch that stays within its budget ends, and not for want of room. -/
theorem sufficientCapacityNeverExhausts : Obligations.SufficientCapacityNeverExhausts := by
  intro s ha hd hf hcap
  obtain ⟨hrun, hsp, hdp, -, hcnt⟩ := hf
  have hle : s.enc.sp.toNat ≤ s.enc.srcLen.toNat := by rw [hsp]; exact Nat.zero_le _
  obtain ⟨k, t, -, hk, hend⟩ := encoderLaunchTerminates s ha hd hrun hle
  have hstart : s.enc.NeverExhausts := by
    refine ⟨hcap, .inl ⟨hrun, hle, ?_⟩⟩
    rw [Encoder.WithinBudget, hsp, hdp, hcnt]
    exact ⟨fun _ => le_rfl, Nat.zero_le _⟩
  obtain ⟨-, hlen, -⟩ := run_enc_keeps (fun e h _ => sameParameters_stepped s.enc e h) ha hd ⟨rfl, rfl, rfl⟩ hk
  obtain ⟨-, ⟨hbusy, -⟩ | ⟨hdone, hbound⟩⟩ := run_enc_keeps neverExhausts_stepped ha hd hstart hk
  · obtain hdone | ⟨herr, -⟩ := hend
    · cases hbusy.symm.trans hdone
    · cases hbusy.symm.trans herr
  · exact ⟨k, t, hk, hdone, hlen ▸ hbound⟩

end Sys2Proof.Machine
end

section
/-! The proofs for the stream `ENC` has emitted at `DONE` (41_encoder_search.md R114, R115): it is the encoding of a
canonical list of opcodes, and decoding it gives the source back. -/

namespace Sys2Proof.Machine

/-! ### What it means that opcodes stand for bytes of a source

`describes` is the meaning of an opcode without a decoder: the bytes it appends, written with the cursor at `p`, are
those of `src` from `p` on. -/

/-- What `i` appends at write cursor `p`, to output that agrees with `src`, agrees with `src`. -/
def describes (src : Nat → Byte) (p : Nat) : Instr → Prop
  | .scopy length offset => 1 ≤ offset ∧ offset ≤ p ∧ ∀ k < length, src (p - offset + k) = src (p + k)
  | .endMarker => False
  | .lit data => ∀ (k : Nat) (h : k < data.length), data[k] = src (p + k)
  | .fill count value => ∀ k < count, value = src (p + k)
  | .mcopy length offset => offset < p ∧ ∀ k < length, src (offset + k) = src (p + k)
  | .lcopy count offset => offset < p ∧ ∀ k < count, src (offset + k) = src (p + k)

/-- A list of opcodes, the first with the write cursor at `p`, stands for the bytes of `src` from `p` on. -/
def listDescribes (src : Nat → Byte) : Nat → List Instr → Prop
  | _, [] => True
  | p, i :: is => describes src p i ∧ listDescribes src (p + producedCount i) is

theorem producedBy_cons (i : Instr) (is : List Instr) : producedBy (i :: is) = producedCount i + producedBy is := rfl

theorem producedBy_concat (is : List Instr) (i : Instr) : producedBy (is ++ [i]) = producedBy is + producedCount i := by
  simp [producedBy]

theorem listDescribes_concat (src : Nat → Byte) (p : Nat) (is : List Instr) (i : Instr) :
    listDescribes src p (is ++ [i]) ↔ listDescribes src p is ∧ describes src (p + producedBy is) i := by
  induction is generalizing p with
  | nil => simp [listDescribes, producedBy]
  | cons j is ih => rw [List.cons_append, listDescribes, listDescribes, ih, producedBy_cons, Nat.add_assoc, and_assoc]

/-! ### Canonical streams grow at their end (41_encoder_search.md R115) -/

/-- A literal run may follow: the last opcode, if it is a literal run, is full. -/
def readyForRun (is : List Instr) : Prop :=
  ∀ (init : List Instr) (data : List Byte), is = init ++ [.lit data] → data.length = Config.litMax

theorem canonicalStream_nil : canonicalStream [] := by
  refine ⟨fun before i after h => ?_, fun before a b after h => ?_, nofun⟩
  · simp at h
  · simp at h

theorem canonicalStream_concat {is : List Instr} {i : Instr} (h : canonicalStream is) (hwf : i.wellFormed = true)
    (hopcode : canonicalOpcode (producedBy is) i) (hrun : ∀ data, i = .lit data → readyForRun is)
    (hfirst : is = [] → (∃ data, i = .lit data) ∨ ∃ count value, i = .fill count value) :
    canonicalStream (is ++ [i]) := by
  obtain ⟨hall, hfull, hhead⟩ := h
  refine ⟨fun before j after heq => ?_, fun before a b after heq => ?_, fun j after heq => ?_⟩
  · obtain rfl | ⟨after, x, rfl⟩ := after.eq_nil_or_concat'
    · obtain ⟨rfl, hij⟩ := List.append_inj' heq rfl
      cases hij
      exact ⟨hwf, hopcode⟩
    · rw [← List.cons_append, ← List.append_assoc] at heq
      exact hall before j after (List.append_inj_left' heq rfl)
  · obtain rfl | ⟨after, x, rfl⟩ := after.eq_nil_or_concat'
    · have heq : is ++ [i] = (before ++ [.lit a]) ++ [.lit b] := by rw [heq, List.append_assoc]; rfl
      obtain ⟨his, hij⟩ := List.append_inj' heq rfl
      exact hrun b (List.cons.inj hij).1 before a his
    · rw [← List.cons_append, ← List.cons_append, ← List.append_assoc] at heq
      exact hfull before a b after (List.append_inj_left' heq rfl)
  · cases is with
    | nil => cases heq; exact hfirst rfl
    | cons j' is => cases heq; exact hhead _ _ rfl

/-! ### The chosen opcodes (41_encoder_search.md R103, R107) -/

section
variable {e : Encoder}

/-- A chosen fill or copy is canonical where it stands and stands for the bytes it consumes; it is no literal run, and
at the start of the source it is a fill. -/
theorem chooses_spec {i : Instr} (h : e.chooses i) : i.wellFormed = true ∧ canonicalOpcode e.sp.toNat i ∧
    describes e.einByte e.sp.toNat i ∧ (∀ data, i ≠ .lit data) ∧
    (e.sp.toNat = 0 → ∃ count value, i = .fill count value) := by
  obtain ⟨count, value, hd, rfl⟩ | ⟨L, m, hd, rfl⟩ := h
  · obtain ⟨hmin, hmax, -, hbytes⟩ := of_decision_fill hd
    exact ⟨(wellFormed_fill _ _).2 hmax, hmin, fun k hk => (hbytes k hk).symm, nofun, fun _ => ⟨_, _, rfl⟩⟩
  · obtain ⟨hlt, hmin, hmax, -, hname, hagree⟩ := of_decision_copy hd
    refine ⟨wellFormed_tierFor hmin hmax hname, ?_⟩
    have hpos : e.sp.toNat ≠ 0 := Nat.ne_zero_of_lt hlt
    by_cases hlong : 10 < L ∨ 4095 < e.sp.toNat - m
    · rcases Nat.lt_or_ge 64 L with hL | hL
      · rw [tierFor_lcopy m _ hL]
        exact ⟨⟨hL, hlt⟩, ⟨hlt, hagree⟩, nofun, fun h0 => absurd h0 hpos⟩
      · rw [tierFor_mcopy hlong hL]
        exact ⟨hlt, ⟨hlt, hagree⟩, nofun, fun h0 => absurd h0 hpos⟩
    · obtain ⟨hL, hd⟩ := not_or.1 hlong
      rw [tierFor_scopy (Nat.not_lt.1 hL) (Nat.not_lt.1 hd)]
      refine ⟨⟨by omega, Nat.not_lt.1 hd⟩, ⟨by omega, by omega, ?_⟩, nofun, fun h0 => absurd h0 hpos⟩
      rwa [Nat.sub_sub_self hlt.le]

end

/-! ### The bytes of the stream as a list -/

theorem flatMap_encode_concat (is : List Instr) (i : Instr) :
    (is ++ [i]).flatMap encode = is.flatMap encode ++ encode i := by
  rw [List.flatMap_append, List.flatMap_singleton]

theorem Memory.readList_add (unknown : Nat → Byte) (m : Memory) (a n k : Nat) :
    m.readList unknown a (n + k) = m.readList unknown a n ++ m.readList unknown (a + n) k := by
  induction n generalizing a with
  | zero => rw [Nat.zero_add, Nat.add_zero, Memory.readList, List.nil_append]
  | succ n ih => rw [Nat.add_right_comm, Memory.readList, ih, Memory.readList, List.cons_append, Nat.add_right_comm,
      Nat.add_assoc a n 1]

theorem Memory.readList_writeList_concat (unknown : Nat → Byte) (m : Memory) (n : Nat) (vs : List Byte) :
    (m.writeList n vs).readList unknown 0 (n + vs.length) = m.readList unknown 0 n ++ vs := by
  rw [Memory.readList_add, Nat.zero_add, Memory.readList_writeList]
  congr 1
  exact Memory.readList_congr fun k hk => Memory.read_writeList_outside _ _ _ (.inl (by omega))

theorem Memory.readList_write_set (unknown : Nat → Byte) (m : Memory) (a n : Nat) (v : Byte) :
    (m.write a v).readList unknown 0 n = (m.readList unknown 0 n).set a v := by
  refine List.ext_getElem (by simp) fun k hk _ => ?_
  rw [Memory.getElem_readList, List.getElem_set, Memory.getElem_readList, Nat.zero_add, Memory.read_write]
  exact if_congr eq_comm rfl rfl

/-- The stream bytes `ENC` has emitted in this launch. -/
def Encoder.emittedBytes (e : Encoder) : List Byte := e.eout.readList e.unknownEout 0 e.dp.toNat

section
variable {e : Encoder}

theorem emittedBytes_emitted {i : Instr} (hfits : e.dp.toNat + i.size ≤ e.dstCap.toNat) :
    (e.emitted i).emittedBytes = e.emittedBytes ++ encode i := by
  rw [Encoder.emittedBytes, emitted_dp hfits, ← encode_length]
  exact Memory.readList_writeList_concat _ _ _ _

theorem emittedBytes_opened (b : Byte) (hfits : e.dp.toNat + 2 ≤ e.dstCap.toNat) :
    (e.opened b).emittedBytes = e.emittedBytes ++ [0x81#8, b] := by
  rw [Encoder.emittedBytes, opened_dp b hfits]
  exact Memory.readList_writeList_concat _ _ _ [0x81#8, b]

theorem emittedBytes_extended (b : Byte) (hfits : e.dp.toNat + 1 ≤ e.dstCap.toNat) :
    (e.extended b).emittedBytes = (e.emittedBytes ++ [b]).set e.runIdx.toNat (runTag (e.runCnt + 1)) := by
  rw [Encoder.emittedBytes, extended_dp b hfits]
  refine (Memory.readList_write_set _ _ _ _ _).trans ?_
  congr 1
  exact Memory.readList_writeList_concat _ _ _ [b]

end

/-- The bytes of a literal run, its tag as the run record writes it (42_encoder_emit.md R124). -/
theorem encode_lit_eq_runTag {data : List Byte} {n : BitVec 6} (h : data.length = n.toNat) :
    encode (.lit data) = runTag n :: data := by
  rw [encode, runTag, h]

/-! ### The stream amid a launch: closed opcodes, then the open literal run -/

/-- The open literal run as opcodes: none if it holds no byte. -/
def openRun : List Byte → List Instr
  | [] => []
  | b :: bs => [.lit (b :: bs)]

theorem openRun_of_ne_nil {data : List Byte} (h : data ≠ []) : openRun data = [.lit data] := by
  cases data with
  | nil => exact absurd rfl h
  | cons b bs => rfl

/-- What `ENC` has emitted is the encoding of the opcodes `closed` and of the open run's bytes `data`, which stand for
the source bytes consumed. -/
structure Encoder.StreamIs (e : Encoder) (closed : List Instr) (data : List Byte) : Prop where
  canonical : canonicalStream closed
  ready : readyForRun closed
  count : data.length = e.runCnt.toNat
  bytes : e.emittedBytes = (closed ++ openRun data).flatMap encode
  tag : data ≠ [] → e.runIdx.toNat = (closed.flatMap encode).length
  produced : producedBy (closed ++ openRun data) = e.sp.toNat
  meaning : listDescribes e.einByte 0 (closed ++ openRun data)

section
variable {e : Encoder} {closed : List Instr} {data : List Byte}

theorem data_eq_nil_iff (h : e.StreamIs closed data) : data = [] ↔ e.runCnt = 0 := by
  rw [← List.length_eq_zero_iff, h.count]
  exact ⟨fun h0 => BitVec.eq_of_toNat_eq h0, fun h0 => h0 ▸ rfl⟩

/-- With its open run taken as closed, the stream is canonical. -/
theorem canonicalStream_of_streamIs (h : e.StreamIs closed data) : canonicalStream (closed ++ openRun data) := by
  by_cases hdata : data = []
  · rw [hdata, openRun, List.append_nil]
    exact h.canonical
  · have hlt := e.runCnt.isLt
    have hcount := h.count
    have hpos := List.length_pos_iff.2 hdata
    rw [openRun_of_ne_nil hdata]
    exact canonicalStream_concat h.canonical ((wellFormed_lit data).2 ⟨hpos, by omega⟩) trivial
      (fun _ _ => h.ready) fun _ => .inl ⟨_, rfl⟩

/-- A run that is closed or full may be followed by another. -/
theorem readyForRun_of_streamIs (h : e.StreamIs closed data) (hr : e.runCnt = 0 ∨ e.runCnt = 63) :
    readyForRun (closed ++ openRun data) := by
  by_cases hdata : data = []
  · rw [hdata, openRun, List.append_nil]
    exact h.ready
  · have hfull : e.runCnt = 63 := hr.resolve_left fun h0 => hdata ((data_eq_nil_iff h).2 h0)
    intro init data' heq
    rw [openRun_of_ne_nil hdata] at heq
    cases (List.append_inj' heq rfl).2
    rw [h.count, hfull]
    rfl

theorem streamIs_of_chooses (h : e.StreamIs closed data) {i : Instr} (hi : e.chooses i)
    (hfits : e.dp.toNat + i.size ≤ e.dstCap.toNat) :
    ((e.emitted i).consume (producedCount i)).StreamIs (closed ++ openRun data ++ [i]) [] := by
  obtain ⟨hwf, hopcode, hdescribes, hlit, hfirst⟩ := chooses_spec hi
  obtain ⟨-, hfit⟩ := chooses_bounds hi
  have hproduced := h.produced
  refine ⟨canonicalStream_concat (canonicalStream_of_streamIs h) hwf (hproduced ▸ hopcode)
      (fun data hi => absurd hi (hlit data)) fun hnil => .inr (hfirst ?_), fun init data heq => ?_, rfl, ?_,
    fun hne => absurd rfl hne, ?_, ?_⟩
  · rw [← hproduced, hnil]; rfl
  · exact absurd (List.cons.inj (List.append_inj' heq rfl).2).1 (hlit data)
  · refine (emittedBytes_emitted hfits).trans ?_
    rw [h.bytes, openRun, List.append_nil, flatMap_encode_concat]
  · rw [openRun, List.append_nil, producedBy_concat, hproduced]
    exact (consumed_sp (e := e) (e' := e.emitted i) rfl hfit).symm
  · rw [openRun, List.append_nil]
    refine (listDescribes_concat _ _ _ _).2 ⟨h.meaning, ?_⟩
    rw [Nat.zero_add, hproduced]
    exact hdescribes

theorem describes_lit_singleton {src : Nat → Byte} {p : Nat} {b : Byte} (h : b = src p) :
    describes src p (.lit [b]) := by
  intro k hk
  obtain rfl : k = 0 := Nat.lt_one_iff.1 hk
  exact h

theorem streamIs_of_opens (h : e.StreamIs closed data) {b : Byte} (hd : e.decision = .literal b)
    (hle : e.sp.toNat ≤ e.srcLen.toNat) (hr : e.runCnt = 0 ∨ e.runCnt = 63)
    (hfits : e.dp.toNat + 2 ≤ e.dstCap.toNat) :
    ((e.opened b).consume 1).StreamIs (closed ++ openRun data) [b] := by
  obtain ⟨-, hbyte⟩ := of_decision_literal hd
  refine ⟨canonicalStream_of_streamIs h, readyForRun_of_streamIs h hr, rfl, ?_, fun _ => ?_, ?_, ?_⟩
  · refine (emittedBytes_opened b hfits).trans ?_
    rw [h.bytes, openRun, flatMap_encode_concat, encode_lit_eq_runTag (n := 1) rfl, runTag_one]
  · rw [← h.bytes]
    exact (Memory.length_readList ..).symm
  · rw [openRun, producedBy_concat, h.produced]
    exact (consumed_sp (e := e) (e' := e.opened b) rfl (sp_lt_of_decision_literal hd hle)).symm
  · refine (listDescribes_concat _ _ _ _).2 ⟨h.meaning, describes_lit_singleton ?_⟩
    rw [Nat.zero_add, h.produced]
    exact hbyte

theorem streamIs_of_extends (h : e.StreamIs closed data) {b : Byte} (hd : e.decision = .literal b)
    (hle : e.sp.toNat ≤ e.srcLen.toNat) (hr : ¬(e.runCnt = 0 ∨ e.runCnt = 63))
    (hfits : e.dp.toNat + 1 ≤ e.dstCap.toNat) :
    ((e.extended b).consume 1).StreamIs closed (data ++ [b]) := by
  obtain ⟨hopen, hnotfull⟩ := not_or.1 hr
  obtain ⟨-, hbyte⟩ := of_decision_literal hd
  have hdata : data ≠ [] := fun hnil => hopen ((data_eq_nil_iff h).1 hnil)
  have hdata' : data ++ [b] ≠ [] := List.append_ne_nil_of_left_ne_nil hdata _
  have hcount : (data ++ [b]).length = (e.runCnt + 1).toNat := by
    rw [List.length_append, h.count, toNat_runCnt_succ hnotfull]; rfl
  have hproduced := h.produced
  have hdescribes := h.meaning
  rw [openRun_of_ne_nil hdata, producedBy_concat] at hproduced
  rw [openRun_of_ne_nil hdata, listDescribes_concat, Nat.zero_add] at hdescribes
  obtain ⟨hclosed, hlit⟩ := hdescribes
  refine ⟨h.canonical, h.ready, hcount, ?bytes, fun _ => h.tag hdata, ?produced, ?describes⟩
  case bytes =>
    refine (emittedBytes_extended b hfits).trans ?_
    rw [h.bytes, h.tag hdata, openRun_of_ne_nil hdata, openRun_of_ne_nil hdata', flatMap_encode_concat,
      flatMap_encode_concat, encode_lit_eq_runTag h.count,
      encode_lit_eq_runTag hcount, List.append_assoc, List.set_append_right _ _ le_rfl, Nat.sub_self]
    rfl
  case produced =>
    have hsp := consumed_sp (e := e) (e' := e.extended b) (count := 1) rfl (sp_lt_of_decision_literal hd hle)
    rw [openRun_of_ne_nil hdata', producedBy_concat, hsp, ← hproduced, producedCount, List.length_append]
    rfl
  case describes =>
    rw [openRun_of_ne_nil hdata', listDescribes_concat, Nat.zero_add]
    refine ⟨hclosed, fun k hk => ?_⟩
    rcases Nat.lt_or_ge k data.length with hlt | hge
    · rw [List.getElem_append_left hlt]
      exact hlit k hlt
    · obtain rfl : k = data.length := by rw [List.length_append, List.length_singleton] at hk; omega
      rw [List.getElem_concat_length rfl, hbyte, ← hproduced]
      rfl

theorem streamIs_kept (h : e.StreamIs closed data) : e.kept.StreamIs closed data :=
  ⟨h.canonical, h.ready, h.count, h.bytes, h.tag, h.produced, h.meaning⟩

/-- An iteration that goes through ends the stream at the end of the source, or has emitted the next opcode or
literal. -/
theorem streamIs_iterate (h : e.StreamIs closed data) (hle : e.sp.toNat ≤ e.srcLen.toNat) {e' : Encoder}
    (hi : e.iterate = .ok e') :
    (e.sp = e.srcLen ∧ e.dp.toNat + 1 ≤ e.dstCap.toNat ∧ e' = e.ended) ∨
      (e'.run = e.run ∧ ∃ closed' data', e'.StreamIs closed' data') := by
  obtain ⟨-, hit⟩ | ⟨hsp, hfits, hit⟩ | ⟨i, hc, hfits, hit⟩ | ⟨b, hd, hr, hfits, hit⟩ | ⟨b, hd, hr, hfits, hit⟩ :=
    iterate_cases e <;> cases hit.symm.trans hi
  · exact .inl ⟨hsp, hfits, rfl⟩
  · exact .inr ⟨rfl, _, _, streamIs_of_chooses h hc hfits⟩
  · exact .inr ⟨rfl, _, _, streamIs_of_opens h hd hle hr hfits⟩
  · exact .inr ⟨rfl, _, _, streamIs_of_extends h hd hle hr hfits⟩

end

/-- The stream of a launch that has ended is the encoding of `is` and the end marker; `is` is canonical and stands for
the whole source. -/
structure Encoder.Finished (e : Encoder) (is : List Instr) : Prop where
  canonical : canonicalStream is
  bytes : e.emittedBytes = (is ++ [Instr.endMarker]).flatMap encode
  produced : producedBy is = e.srcLen.toNat
  meaning : listDescribes e.einByte 0 is

theorem finished_ended {e : Encoder} {closed : List Instr} {data : List Byte} (h : e.StreamIs closed data)
    (hsp : e.sp = e.srcLen) (hfits : e.dp.toNat + 1 ≤ e.dstCap.toNat) : e.ended.Finished (closed ++ openRun data) := by
  refine ⟨canonicalStream_of_streamIs h, ?_, h.produced.trans (congrArg BitVec.toNat hsp), h.meaning⟩
  rw [flatMap_encode_concat, ← h.bytes]
  exact emittedBytes_emitted (i := .endMarker) hfits

/-- What holds of the stream in every state of a launch. -/
structure Encoder.StreamInv (e : Encoder) : Prop where
  busy : e.run = .busy → e.sp.toNat ≤ e.srcLen.toNat ∧ ∃ closed data, e.StreamIs closed data
  done : e.run = .done → ∃ is, e.Finished is

theorem streamInv_of_fresh {e : Encoder} (h : e.fresh) : e.StreamInv := by
  obtain ⟨hrun, hsp, hdp, -, hcnt⟩ := h
  refine ⟨fun _ => ⟨by rw [hsp]; exact Nat.zero_le _, [], [], canonicalStream_nil, fun init data heq => ?_,
    by rw [hcnt]; rfl, by rw [Encoder.emittedBytes, hdp]; rfl, fun hne => absurd rfl hne, by rw [hsp]; rfl, trivial⟩,
    fun hdone => (nomatch hrun.symm.trans hdone)⟩
  exact absurd heq.symm (List.append_ne_nil_of_right_ne_nil _ (List.cons_ne_nil _ _))

theorem streamInv_stepped (e : Encoder) (h : e.StreamInv) (hb : e.run = .busy) : e.stepped.StreamInv := by
  obtain ⟨hle, closed, data, hstream⟩ := h.busy hb
  have hbound := stepped_enc_sourceBound (fun _ => hle) hb
  cases hi : e.kept.iterate with
  | error c =>
    rw [stepped_of_iterate_error hi]
    exact ⟨nofun, nofun⟩
  | ok e' =>
    rw [stepped_of_iterate_ok hi] at hbound ⊢
    obtain ⟨hsp, hfits, rfl⟩ | ⟨hrun, hstream'⟩ := streamIs_iterate (streamIs_kept hstream) hle hi
    · exact ⟨nofun, fun _ => ⟨_, finished_ended (streamIs_kept hstream) hsp hfits⟩⟩
    · exact ⟨fun hb' => ⟨hbound hb', hstream'⟩, fun hdone => (nomatch hb.symm.trans (hrun.symm.trans hdone))⟩

/-- A fresh launch of `ENC` that ends in `DONE` has emitted the encoding of a canonical stream, from the parameters it
was launched with. -/
theorem finished_of_run {s s' : State} {k : Nat} (ha : s.agenda = []) (hd : s.dec.run ≠ .busy) (hf : s.enc.fresh)
    (hrun : core.run k s = .next s') (hdone : s'.enc.run = .done) :
    s.enc.SameParameters s'.enc ∧ s'.enc.result = some s'.enc.emittedBytes ∧ ∃ is, s'.enc.Finished is :=
  ⟨run_enc_keeps (fun e h _ => sameParameters_stepped s.enc e h) ha hd ⟨rfl, rfl, rfl⟩ hrun, if_pos hdone,
    (run_enc_keeps streamInv_stepped ha hd (streamInv_of_fresh hf) hrun).done hdone⟩

/-- Settles O37: at every step of the launch what is emitted encodes a canonical stream for the bytes consumed. -/
theorem encodedStreamsAreCanonical : Obligations.EncodedStreamsAreCanonical := by
  intro s s' k ha hd hf hrun hdone
  obtain ⟨⟨-, hlen, -⟩, hresult, is, h⟩ := finished_of_run ha hd hf hrun hdone
  exact ⟨is, h.canonical, hresult.trans (congrArg some h.bytes), h.produced.trans (congrArg BitVec.toNat hlen)⟩

/-! ### Decoding a list that stands for a source (41_encoder_search.md R114) -/

/-- Bytes that agree with those `p - m` before them repeat the bytes from `m` on cyclically. -/
theorem repeats_of_agrees {src : Nat → Byte} {m p n : Nat} (hm : m < p) (h : ∀ k < n, src (m + k) = src (p + k))
    {k : Nat} (hk : k < n) : src (m + k % (p - m)) = src (p + k) := by
  induction k using Nat.strong_induction_on with
  | _ k ih =>
    rcases Nat.lt_or_ge k (p - m) with hlt | hge
    · rw [Nat.mod_eq_of_lt hlt, h k hk]
    · rw [Nat.mod_eq_sub_mod hge, ih (k - (p - m)) (by omega) (by omega), ← h k hk]
      congr 1
      omega

section
variable {d : Decoder} {src : Nat → Byte} {i : Instr}

/-- An opcode that stands for bytes of a source does not fault where it has room. -/
theorem instrFault_of_describes (h : describes src d.dp.toNat i)
    (hcap : d.dp.toNat + producedCount i ≤ d.dstCap.toNat) : instrFault d i = none := by
  have hroom : ¬d.dstCap.toNat < d.dp.toNat + producedCount i := Nat.not_lt.2 hcap
  cases i with
  | endMarker => exact h.elim
  | scopy length offset =>
    obtain ⟨hpos, hle, -⟩ := h
    rw [instrFault_scopy, if_neg (by omega), if_neg (by omega)]
    exact if_neg hroom
  | lit data => exact (instrFault_lit d data).trans (if_neg hroom)
  | fill count value => exact (instrFault_fill d count value).trans (if_neg hroom)
  | mcopy length offset =>
    obtain ⟨hlt, -⟩ := h
    rw [instrFault_mcopy, if_neg (by omega)]
    exact if_neg hroom
  | lcopy count offset =>
    obtain ⟨hlt, -⟩ := h
    rw [instrFault_lcopy, if_neg (by omega)]
    exact if_neg hroom

/-- A forward copy from bytes that stand for the source gives bytes that do. -/
theorem copyForward_describes {m n : Nat} (hagree : ∀ a < d.dp.toNat, d.doutByte a = src a) (hm : m < d.dp.toNat)
    (h : ∀ k < n, src (m + k) = src (d.dp.toNat + k)) {k : Nat} (hk : k < n) :
    (d.dout.copyForward d.unknownDout m d.dp.toNat n).read d.unknownDout (d.dp.toNat + k) = src (d.dp.toNat + k) := by
  have hmod : k % (d.dp.toNat - m) < d.dp.toNat - m := Nat.mod_lt _ (by omega)
  rw [Memory.read_copyForward_inside _ _ hm hk, ← repeats_of_agrees hm h hk]
  exact hagree _ (by omega)

/-- The output of an opcode that stands for bytes of a source agrees with the source. -/
theorem completedDout_describes (hagree : ∀ a < d.dp.toNat, d.doutByte a = src a) (h : describes src d.dp.toNat i)
    {a : Nat} (ha : a < d.dp.toNat + producedCount i) : (completedDout i d).read d.unknownDout a = src a := by
  rcases Nat.lt_or_ge a d.dp.toNat with hlt | hge
  · rw [read_completedDout_outside i d a (.inl hlt)]
    exact hagree a hlt
  obtain ⟨k, rfl⟩ := Nat.exists_eq_add_of_le hge
  have hk : k < producedCount i := by omega
  cases i with
  | endMarker => exact h.elim
  | scopy length offset =>
    obtain ⟨hpos, hle, hbytes⟩ := h
    exact copyForward_describes hagree (by omega) hbytes hk
  | lit data => exact (Memory.read_writeList_inside _ _ _ hk).trans (h k hk)
  | fill count value =>
    have hk' : k < (List.replicate count value).length := List.length_replicate ▸ hk
    rw [completedDout, Memory.read_writeList_inside _ _ _ hk', List.getElem_replicate]
    exact h k hk
  | mcopy length offset =>
    obtain ⟨hlt, hbytes⟩ := h
    exact copyForward_describes hagree hlt hbytes hk
  | lcopy count offset =>
    obtain ⟨hlt, hbytes⟩ := h
    exact copyForward_describes hagree hlt hbytes hk

/-- Where the rest of the stream begins with an encoding, that instruction stands at the stream cursor, and the rest is
behind it. -/
theorem holdsInstr_of_rest {rest : List Byte} (hwf : i.wellFormed = true)
    (h : d.din.readList unknownDin d.sp.toNat (d.srcLen.toNat - d.sp.toNat) = encode i ++ rest) :
    d.holdsInstr i ∧
      d.din.readList unknownDin (d.sp.toNat + i.size) (d.srcLen.toNat - (d.sp.toNat + i.size)) = rest := by
  have hlen := congrArg List.length h
  have hpos := size_pos (i := i)
  rw [Memory.length_readList, List.length_append, encode_length] at hlen
  rw [show d.srcLen.toNat - d.sp.toNat = i.size + (d.srcLen.toNat - (d.sp.toNat + i.size)) by omega,
    Memory.readList_add] at h
  obtain ⟨hbytes, hrest⟩ := List.append_inj h (by rw [Memory.length_readList, encode_length])
  exact ⟨⟨hwf, by omega, hbytes⟩, hrest⟩

end

/-- `DEC` amid decoding a stream that stands for `src`: the opcodes `is` and the end marker are to come, and what it has
produced agrees with `src`. -/
structure Decoder.Decodes (d : Decoder) (src : Nat → Byte) (is : List Instr) : Prop where
  run : d.run = .busy
  rest : d.din.readList unknownDin d.sp.toNat (d.srcLen.toNat - d.sp.toNat) = (is ++ [Instr.endMarker]).flatMap encode
  wellFormed : ∀ i ∈ is, i.wellFormed = true
  meaning : listDescribes src d.dp.toNat is
  room : d.dp.toNat + producedBy is ≤ d.dstCap.toNat
  agrees : ∀ a < d.dp.toNat, d.doutByte a = src a

section
variable {d : Decoder} {src : Nat → Byte}

theorem decodes_stepped {i : Instr} {is : List Instr} (h : d.Decodes src (i :: is)) :
    d.stepped.Decodes src is ∧ d.stepped.dp.toNat = d.dp.toNat + producedCount i := by
  obtain ⟨hi, his⟩ := h.meaning
  have hend : i ≠ .endMarker := by rintro rfl; exact hi
  have hroom := h.room
  rw [producedBy_cons] at hroom
  have hfault : instrFault d i = none := instrFault_of_describes hi (by omega)
  obtain ⟨hholds, hrest⟩ := holdsInstr_of_rest (h.wellFormed i List.mem_cons_self) h.rest
  have hstepped : d.stepped = d.kept.completed i := by
    rw [stepped_of_holdsInstr hholds, Decoder.executed, show instrFault d.kept i = none from hfault]
  have hsp := completed_sp (d := d.kept) hholds
  have hdp := completed_dp (d := d.kept) hfault
  rw [hstepped]
  rw [completed_of_ne hend] at hsp hdp ⊢
  refine ⟨⟨h.run, ?rest, fun j hj => h.wellFormed j (List.mem_cons_of_mem i hj), ?meaning, ?room, fun a ha => ?agrees⟩,
    hdp⟩
  case rest => rw [hsp]; exact hrest
  case meaning => rw [hdp]; exact his
  case room => rw [hdp, Nat.add_assoc]; exact hroom
  case agrees => exact completedDout_describes (d := d.kept) h.agrees hi (hdp ▸ ha)

theorem decodes_end (h : d.Decodes src []) : d.stepped = { d.kept with sp := d.sp + 1, run := .done } := by
  obtain ⟨hholds, -⟩ := holdsInstr_of_rest wellFormed_endMarker (rest := []) h.rest
  rw [stepped_of_holdsInstr hholds]
  rfl

/-- Decoding goes through to the end marker, with the bytes the opcodes stand for. -/
theorem run_decodes {is : List Instr} {t : State} (ha : t.agenda = []) (h : t.dec.Decodes src is) :
    ∃ (j : Nat) (t' : State), core.run j t = .next t' ∧ t'.dec.run = .done ∧
      t'.dec.dp.toNat = t.dec.dp.toNat + producedBy is ∧ ∀ a < t'.dec.dp.toNat, t'.dec.doutByte a = src a := by
  obtain ⟨t₁, hs, ha₁, hd⟩ := step_dec_of_agenda_nil ha
  rw [if_pos h.run] at hd
  induction is generalizing t t₁ with
  | nil =>
    rw [decodes_end h] at hd
    refine ⟨1, t₁, run_succ hs, by rw [hd], by rw [hd]; rfl, fun a => ?_⟩
    rw [hd]
    exact h.agrees a
  | cons i is ih =>
    obtain ⟨h₁, hdp⟩ := decodes_stepped h
    rw [← hd] at h₁ hdp
    obtain ⟨t₂, hs₂, ha₂, hd₂⟩ := step_dec_of_agenda_nil ha₁
    rw [if_pos h₁.run] at hd₂
    obtain ⟨j, t', hrun, hdone, hdp', hagrees⟩ := ih ha₁ h₁ t₂ hs₂ ha₂ hd₂
    exact ⟨j + 1, t', (run_succ hs).trans hrun, hdone, by rw [hdp', hdp, producedBy_cons, Nat.add_assoc], hagrees⟩

end

theorem decodes_of_fresh {d : Decoder} {e : Encoder} {is : List Instr} (hf : d.fresh) (h : e.Finished is)
    (hstream : d.stream = e.emittedBytes) (hcap : e.srcLen.toNat ≤ d.dstCap.toNat) : d.Decodes e.einByte is := by
  obtain ⟨hrun, hsp, hdp, -⟩ := hf
  obtain ⟨hall, -, -⟩ := h.canonical
  refine ⟨hrun, ?_, fun i hi => ?_, ?_, ?_, fun a ha => ?_⟩
  · rw [hsp, ← h.bytes, ← hstream]
    rfl
  · obtain ⟨before, after, heq⟩ := List.append_of_mem hi
    exact (hall before i after heq).1
  · rw [hdp]
    exact h.meaning
  · rw [hdp, h.produced]
    exact (Nat.zero_add _).le.trans hcap
  · rw [hdp] at ha
    exact absurd ha (Nat.not_lt_zero a)

/-- Settles O36: each opcode of the emitted stream stands for the source bytes it was emitted for, and the decoder gives
just these, opcode by opcode. -/
theorem decodingTheEncodedStreamGivesTheSource : Obligations.DecodingTheEncodedStreamGivesTheSource := by
  intro s s' t k ha hd hf hrun hdone hta htf hstream hcap
  obtain ⟨⟨hein, hlen, -⟩, hresult, is, h⟩ := finished_of_run ha hd hf hrun hdone
  have hstream : t.dec.stream = s'.enc.emittedBytes := Option.some.inj (hstream.trans hresult)
  obtain ⟨j, t', hj, hdone', hdp, hagrees⟩ := run_decodes hta (decodes_of_fresh htf h hstream (hlen ▸ hcap))
  have hdp' : t'.dec.dp = s.enc.srcLen := by
    refine BitVec.eq_of_toNat_eq ?_
    rw [hdp, htf.2.2.1, h.produced, hlen]
    exact Nat.zero_add _
  refine ⟨j, t', hj, hdone', hdp', (if_pos hdone').trans (congrArg some ?_)⟩
  rw [hdp', Encoder.source, ← hein]
  refine Memory.readList_congr fun a ha => hagrees (0 + a) ?_
  rw [hdp', Nat.zero_add]
  exact ha

end Sys2Proof.Machine
end
